-- ==== Sys2Proof/Word.lean ====
section
/-! DEFINITION. The word types of HTB and the names of its four byte spaces. -/

namespace Sys2Proof

/-- A byte of a byte space, and a Symbol (00_scope.md glossary: "one byte value (0–255)"). -/
abbrev Byte := BitVec 8

/-- A host-visible register, a frequency counter, a command word (10_state.md R20, R27; 30_encoding.md R53). -/
abbrev Word := BitVec 32

/-- `WIDTH` and `HEIGHT` (`DIM_W = 16`, 00_scope.md R8). -/
abbrev Dim := BitVec 16

/-- An index into the node arena: 9 bits (10_state.md R28, R29). -/
abbrev NodeIdx := BitVec 9

/-- A code: a finite sequence of tokens, the edge leaving the root first; `false` is token 0, `true` is
token 1. The empty list stands for "none", since the empty code is never an entry (10_state.md R30; log 12). -/
abbrev Code := List Bool

/-- The four byte spaces (20_memory.md R37). -/
inductive Space where
  | src
  | pri
  | sdc
  | dst
deriving DecidableEq, Repr

/-- The symbols in ascending order (`NSYM = 256`, 00_scope.md R8). -/
def allSymbols : List Byte := (List.range 256).map (BitVec.ofNat 8)

end Sys2Proof
end

