-- ==== Sys2Proof/Config.lean ====
section
/-! DEFINITION. What an implementation fixes (00_scope.md R8) and the two values the spec leaves open
(93_implementation_defined.md U1, U4). -/

namespace Sys2Proof.Config

/-- The constant of register `ID`, ASCII "HTB1" (10_state.md R22). -/
def idValue : BitVec 32 := 0x48544231#32

/-- DESIGN CHOICE (log 7): the capacities of the machine that `State.reset` describes, the default capacities of
95_test_vectors.md. R8 leaves them OPEN; every other state may hold any others, and no step changes them. -/
def srcCapAtReset : BitVec 32 := 65536#32
/-- DESIGN CHOICE (log 7), see `srcCapAtReset`. -/
def priCapAtReset : BitVec 32 := 1048576#32
/-- DESIGN CHOICE (log 7), see `srcCapAtReset`. -/
def sdcCapAtReset : BitVec 32 := 66560#32
/-- DESIGN CHOICE (log 7), see `srcCapAtReset`. -/
def dstCapAtReset : BitVec 32 := 65536#32

/-- FREE VALUE (U1, U13; log 4): what a byte that has not been written since the latest reset reads as. The arguments
are the number of resets so far, the space and the offset, so that it is stable until the next reset. -/
opaque unwrittenByte : Nat → Space → Nat → Byte

/-- FREE VALUE (U4; log 6): what the n-th read of a changing register while `BUSY = 1` returns. -/
opaque busyReadValue : Nat → Word

end Sys2Proof.Config
end

