-- ==== Sys2Proof/Syntax.lean ====
section
/-! DEFINITION. The commands: one constructor per row of spec/opcode_table.json. No command has an explicit
operand (30_encoding.md R53, R56). -/

namespace Sys2Proof

/-- The eleven commands of 30_encoding.md R54. -/
inductive Instr where
  /-- `NOP`, 47_housekeeping.md R152 -/
  | nop
  /-- `CLR`, 47_housekeeping.md R153 -/
  | clr
  /-- `SAMPLE`, 41_sample.md R65 -/
  | sample
  /-- `BUILD`, 42_build.md R70 -/
  | build
  /-- `GEN`, 43_gen.md R85 -/
  | gen
  /-- `EMIT`, 44_codec.md R100 -/
  | emit
  /-- `TSAVE`, 45_table_io.md R121 -/
  | tsave
  /-- `TLOAD`, 45_table_io.md R127 -/
  | tload
  /-- `DEC`, 44_codec.md R108 -/
  | dec
  /-- `ENCODE`, 46_macro.md R140 -/
  | encode
  /-- `DECODE`, 46_macro.md R144 -/
  | decode
deriving DecidableEq, Repr

end Sys2Proof
end

