-- ==== Sys2Proof/Decode.lean ====
section
/-! DEFINITION. The command word (30_encoding.md R53 to R55): a total decoder that rejects by name, and the encoder. -/

namespace Sys2Proof

/-- Why a word (or a sequence of bytes) spells no command (R55, R62). -/
inductive DecodeReject where
  /-- bits [31:8] of the word are not all zero -/
  | reservedBitsSet (w : Word)
  /-- bits [31:8] are zero and `op` is not in the opcode map of R54 -/
  | unknownOpcode (op : Byte)
  /-- not exactly the four bytes of one command word (R53, R62) -/
  | notOneWord (bytes : Nat)
deriving DecidableEq, Repr

/-- The opcode map of R54: field `op`, bits [7:0]. -/
def opcode : Instr → Byte
  | .nop    => 0x00#8
  | .clr    => 0x01#8
  | .sample => 0x10#8
  | .build  => 0x11#8
  | .gen    => 0x12#8
  | .emit   => 0x13#8
  | .tsave  => 0x14#8
  | .tload  => 0x20#8
  | .dec    => 0x21#8
  | .encode => 0x40#8
  | .decode => 0x41#8

/-- The rows of the opcode map, in its order. -/
def allInstrs : List Instr :=
  [.nop, .clr, .sample, .build, .gen, .emit, .tsave, .tload, .dec, .encode, .decode]

/-- Field `op` of a command word, bits [7:0] (R53). -/
def opField (w : Word) : Byte := w.extractLsb' 0 8

/-- Field `rsv` of a command word, bits [31:8] (R53). -/
def rsvField (w : Word) : BitVec 24 := w.extractLsb' 8 24

/-- The command an opcode byte names, if any (R54). -/
def decodeOp (op : Byte) : Option Instr := allInstrs.find? (fun i => opcode i == op)

/-- The decoder of R55: every word is one of the eleven commands or illegal. -/
def decodeWord (w : Word) : Except DecodeReject Instr :=
  if rsvField w = 0#24 then
    match decodeOp (opField w) with
    | some i => .ok i
    | none => .error (.unknownOpcode (opField w))
  else .error (.reservedBitsSet w)

/-- The four bytes of a register word as the port carries them: least significant byte first (20_memory.md R45). -/
def bytesOfWord (w : Word) : List Byte :=
  [w.extractLsb' 0 8, w.extractLsb' 8 8, w.extractLsb' 16 8, w.extractLsb' 24 8]

/-- The decoder on bytes: one little-endian word, nothing shorter or longer (R45, R53, R62). -/
def decodeBytes : List Byte → Except DecodeReject Instr
  | [b0, b1, b2, b3] => decodeWord (b3 ++ b2 ++ b1 ++ b0)
  | bs => .error (.notOneWord bs.length)

/-- The encoder: the command word of R54, `rsv = 0`. -/
def encode (i : Instr) : Word := 0#24 ++ opcode i

/-- What the decoder reads from an opcode-table row whose bits are `w`: the bits above `nbits` are 0 and the word
lies on the port least significant byte first. -/
def decodeTableWord (nbits w : Nat) : Option Instr :=
  (decodeBytes (bytesOfWord (BitVec.ofNat 32 (w % 2 ^ nbits)))).toOption

end Sys2Proof
end

