-- ==== Sys2Proof/Machine/HostPort.lean ====
section
/-! DEFINITION. The host port: the register map (10_state.md R20), the host operations (20_memory.md R40 to R44) and
the host script with its pseudo-statements (30_encoding.md R60, R61). -/

namespace Sys2Proof.Machine

/-- The registers of the map of 10_state.md R20; the reserved offsets 0x58 to 0xFC have no name. -/
inductive Reg where
  | id | cmd | status | ctrl | width | height
  | srcLen | priLen | sdcLen | dstLen
  | expected | symCount | maxLen | nodeCount | root
  | decCount | decDropped | errInfo
  | srcCap | priCap | sdcCap | dstCap
deriving DecidableEq, Repr

/-- The host operations, as the atomic events of 20_memory.md R40 to R44. The number of bytes an access moves is given
with it, so that a form the port does not admit can be written down and refused. -/
inductive HostOp where
  /-- `RegRead(off)`, R40 -/
  | regRead (off bytes : Nat)
  /-- `RegWrite(off, v)`, R41 -/
  | regWrite (off bytes : Nat) (v : Word)
  /-- `MemRead(S, addr, bytes)`, R42 -/
  | memRead (S : Space) (addr bytes : Nat)
  /-- `MemWrite(S, addr, bytes, v)`, R43 -/
  | memWrite (S : Space) (addr bytes : Nat) (v : Byte)
  /-- the script statement `wait`: read `STATUS` until `BUSY` reads 0, R60 -/
  | waitIdle
  /-- the platform asserts `rst`, 70_reset_and_hazards.md R180 (log 18) -/
  | hardwareReset
deriving DecidableEq, Repr

/-- What a host read returned. -/
inductive HostValue where
  | word (v : Word)
  | byte (v : Byte)
deriving DecidableEq, Repr

/-- Byte offset of each register from the register block's base (R20). -/
def Reg.offset : Reg → Nat
  | .id         => 0x00
  | .cmd        => 0x04
  | .status     => 0x08
  | .ctrl       => 0x0C
  | .width      => 0x10
  | .height     => 0x14
  | .srcLen     => 0x18
  | .priLen     => 0x1C
  | .sdcLen     => 0x20
  | .dstLen     => 0x24
  | .expected   => 0x28
  | .symCount   => 0x2C
  | .maxLen     => 0x30
  | .nodeCount  => 0x34
  | .root       => 0x38
  | .decCount   => 0x3C
  | .decDropped => 0x40
  | .errInfo    => 0x44
  | .srcCap     => 0x48
  | .priCap     => 0x4C
  | .sdcCap     => 0x50
  | .dstCap     => 0x54

/-- Every register of the map, by ascending offset. -/
def allRegs : List Reg :=
  [.id, .cmd, .status, .ctrl, .width, .height, .srcLen, .priLen, .sdcLen, .dstLen, .expected, .symCount, .maxLen,
   .nodeCount, .root, .decCount, .decDropped, .errInfo, .srcCap, .priCap, .sdcCap, .dstCap]

/-- The register at an offset; `none` at a reserved offset (R35). -/
def regAt (off : Nat) : Option Reg := allRegs.find? (fun r => r.offset == off)

/-- The registers whose value stays defined while `BUSY = 1` (20_memory.md R40, 70_reset_and_hazards.md R181). -/
def Reg.stableWhileBusy : Reg → Bool
  | .id | .status | .ctrl | .width | .height | .expected | .srcCap | .priCap | .sdcCap | .dstCap => true
  | .cmd | .srcLen | .priLen | .sdcLen | .dstLen | .symCount | .maxLen | .nodeCount | .root
  | .decCount | .decDropped | .errInfo => false

/-- The id of a space, the `ERR_INFO` of `IO_FAILURE` (60_exceptions.md R160). -/
def spaceId : Space → Word
  | .src => 0#32
  | .pri => 1#32
  | .sdc => 2#32
  | .dst => 3#32

/-- The length register of each space (20_memory.md R37). -/
def lenReg : Space → Reg
  | .src => .srcLen
  | .pri => .priLen
  | .sdc => .sdcLen
  | .dst => .dstLen

/-- `wr <REG>, <value>` (R60). -/
def scriptWr (r : Reg) (v : Word) : List HostOp := [.regWrite r.offset 4 v]

/-- `rd <REG>` (R60). -/
def scriptRd (r : Reg) : List HostOp := [.regRead r.offset 4]

/-- `wm <SPACE>, <addr>, <b0>, ..`: one byte write per value, in order (R60). -/
def scriptWm (S : Space) (addr : Nat) : List Byte → List HostOp
  | [] => []
  | b :: bs => .memWrite S addr 1 b :: scriptWm S (addr + 1) bs

/-- `rm <SPACE>, <addr>, <n>`: one read per byte, in order (R60). -/
def scriptRm (S : Space) (addr n : Nat) : List HostOp := (List.range n).map (fun k => .memRead S (addr + k) 1)

/-- `wait` (R60). -/
def scriptWait : List HostOp := [.waitIdle]

/-- `cmd <MNEMONIC>` (R61). -/
def scriptCmd (i : Instr) : List HostOp := scriptWr .cmd (encode i)

/-- `run <MNEMONIC>`: `cmd` then `wait` (R61). -/
def scriptRun (i : Instr) : List HostOp := scriptCmd i ++ scriptWait

/-- `load <SPACE>, <b0>, ..`: the bytes from offset 0, then the length (R61; for `DST` the length register ignores the
write, so the statement is meant for `SRC`, `PRI`, `SDC`). -/
def scriptLoad (S : Space) (bs : List Byte) : List HostOp :=
  scriptWm S 0 bs ++ scriptWr (lenReg S) (BitVec.ofNat 32 bs.length)

/-- `dims <w>, <h>` (R61). -/
def scriptDims (w h : Word) : List HostOp := scriptWr .width w ++ scriptWr .height h

/-- `ack`: clear `DONE` (R61). -/
def scriptAck : List HostOp := scriptWr .status 2#32

end Sys2Proof.Machine
end

