-- ==== Sys2Proof/Machine/State.lean ====
section
/-! DEFINITION. The state of HTB (10_state.md R20), the reasons a step can stop, and the state after reset
(70_reset_and_hazards.md R180). -/

namespace Sys2Proof.Machine

/-- The outcome codes of 60_exceptions.md R160, in code order; codes 7 to 15 are never produced (U9). -/
inductive OutcomeCode where
  | ok
  | emptyInput
  | tableNotFound
  | truncatedOutput
  | unknownSymbol
  | ioFailure
  | illegalCommand
deriving DecidableEq, Repr

/-- A record of the node arena (10_state.md R28). The fields the rule fixes at 0 (a leaf's children, an internal node's
symbol) are not stored (log 13). -/
inductive Node where
  | leaf (sym : Byte) (freq : Word)
  | internal (freq : Word) (left right : NodeIdx)
deriving DecidableEq, Repr

/-- A table with one entry per symbol (10_state.md R27, R30). -/
abbrev Table (α : Type) := Vector α 256

/-- A byte space: the bytes written since the latest reset as (offset, byte) pairs, offsets strictly rising; an offset
that is not listed has not been written (20_memory.md R37; log 5). -/
abbrev Memory := List Host.Cell

/-- The four capacities, registers that read a parameter (10_state.md R35, 00_scope.md R8; log 7). -/
structure Caps where
  src : Word
  pri : Word
  sdc : Word
  dst : Word
deriving DecidableEq, Repr

/-- No command and no host access of HTB ends in a machine fault: an error is an outcome code, and the machine goes on
(60_exceptions.md R160, R169, R170; log 19). So this type has no constructor. -/
inductive Fault : Type where
deriving DecidableEq, Repr

/-- Why the model gives a step no meaning. -/
inductive Refusal where
  /-- An arm of `exec` that has no meaning yet; no arm of this model is such. Safe. -/
  | notModelled (mnemonic : String)
  /-- Raised by a host operation that is not an aligned 32-bit register access inside the block, or a one-byte space
  access below the capacity (20_memory.md R44; U2: "refuse"). Safe. -/
  | accessNotAdmitted (op : HostOp)
  /-- Raised by a host access to a byte space while `BUSY = 1` (20_memory.md R44, 70_reset_and_hazards.md R181;
  U3: "refuse"). Safe. -/
  | spaceAccessWhileBusy (op : HostOp)
deriving DecidableEq, Repr

/-- The architectural state of 10_state.md R20, then the model's own fields (log 2, 3, 4, 6, 9). -/
structure State where
  /-- `SRC_CAP`, `PRI_CAP`, `SDC_CAP`, `DST_CAP` (R35) -/
  caps : Caps
  /-- `WIDTH` (R25) -/
  width : Dim
  /-- `HEIGHT` (R25) -/
  height : Dim
  /-- `SRC_LEN` (R26) -/
  srcLen : Word
  /-- `PRI_LEN` (R26) -/
  priLen : Word
  /-- `SDC_LEN` (R26) -/
  sdcLen : Word
  /-- `DST_LEN` (R26) -/
  dstLen : Word
  /-- `DEC_COUNT` (R33) -/
  decCount : Word
  /-- `DEC_DROPPED` (R33) -/
  decDropped : Word
  /-- `ERR_INFO` (R33) -/
  errInfo : Word
  /-- `CTRL.IE` (R34) -/
  ie : Bool
  /-- `STATUS.DONE` (R24) -/
  done : Bool
  /-- `STATUS.TBL_MALFORMED` (R24) -/
  tblMalformed : Bool
  /-- `STATUS.OUTCOME` (R24) -/
  outcome : OutcomeCode
  /-- `BUSY`, also `STATUS[0]` (R21, R24) -/
  busy : Bool
  /-- `CMD_LATCH` (R21) -/
  cmdLatch : Word
  /-- `FREQ[0..255]` (R27) -/
  freq : Table Word
  /-- `NODE[0 .. NODE_CNT − 1]` (R28, R29); `NODE_CNT` is its length (log 13) -/
  nodes : List Node
  /-- `ROOT_VALID` and `ROOT_IDX` (R29): `none` is `ROOT_VALID = 0` (log 13) -/
  root : Option NodeIdx
  /-- `CODE[0..255]` (R30) -/
  code : Table Code
  /-- space `SRC` (20_memory.md R37) -/
  srcMem : Memory
  /-- space `PRI` (20_memory.md R37) -/
  priMem : Memory
  /-- space `SDC` (20_memory.md R37) -/
  sdcMem : Memory
  /-- space `DST` (20_memory.md R37) -/
  dstMem : Memory
  /-- MODEL: the host operations still to be performed, first one next (log 3) -/
  script : List HostOp
  /-- MODEL: what the host's reads have returned, newest first (log 3) -/
  responses : List HostValue
  /-- MODEL: how many host moves each command accepted from now on outlasts (log 2) -/
  durations : List Nat
  /-- MODEL: how many host moves the running command still outlasts (log 2) -/
  hostSlots : Nat
  /-- MODEL: how many values of `Config.busyReadValue` have been used (log 6) -/
  draws : Nat
  /-- MODEL: how many hardware resets have happened, an argument of `Config.unwrittenByte` (log 4) -/
  resets : Nat
deriving DecidableEq, Repr

/-- The state of a machine with the given capacities right after hardware reset (R180). `CMD_LATCH` is meaningless then
(log 8); the model's own fields are empty or 0 (log 9). -/
def State.resetWith (caps : Caps) : State where
  caps := caps
  width := 0#16
  height := 0#16
  srcLen := 0#32
  priLen := 0#32
  sdcLen := 0#32
  dstLen := 0#32
  decCount := 0#32
  decDropped := 0#32
  errInfo := 0#32
  ie := false
  done := false
  tblMalformed := false
  outcome := .ok
  busy := false
  cmdLatch := 0#32
  freq := Vector.replicate 256 0#32
  nodes := []
  root := none
  code := Vector.replicate 256 []
  srcMem := []
  priMem := []
  sdcMem := []
  dstMem := []
  script := []
  responses := []
  durations := []
  hostSlots := 0
  draws := 0
  resets := 0

/-- The machine right after reset (R180), with the capacities of `Config` (log 7). -/
def State.reset : State :=
  State.resetWith ⟨Config.srcCapAtReset, Config.priCapAtReset, Config.sdcCapAtReset, Config.dstCapAtReset⟩

end Sys2Proof.Machine
end

