-- ==== Sys2Proof/Machine/Ops.lean ====
section
/-! DEFINITION. The named operations over tables, byte spaces, registers and the sequencing state; accepting a command
and completing it (10_state.md R21), which is also how an error is reported (60_exceptions.md R169). -/

namespace Sys2Proof.Machine

/-! ### Tables -/

/-- Every entry the same. -/
def Table.fill {α : Type} (x : α) : Table α := Vector.replicate 256 x

/-- `T[s]`. -/
def Table.entry {α : Type} (t : Table α) (s : Byte) : α := t[s.toNat]'(s.isLt)

/-- Every symbol with its entry, in ascending symbol order: `for s in 0..255: .. T[s] ..`. -/
def Table.entries {α : Type} (t : Table α) : List (Byte × α) := allSymbols.zip t.toList

/-- `T[s] <- x`. -/
def Table.put {α : Type} (t : Table α) (s : Byte) (x : α) : Table α := t.set s.toNat x s.isLt

/-- The empty frequency table (R27). -/
def emptyFreq : Table Word := Table.fill 0#32

/-- The empty code ROM: every entry "none" (R30). -/
def emptyCode : Table Code := Table.fill []

/-! ### Byte spaces -/

/-- The byte last written at an offset, if one has been written since the latest reset. -/
def Memory.find : Memory → Nat → Option Byte
  | [], _ => none
  | (b, v) :: m, a => if b = a then some v else Memory.find m a

/-- Store one byte, keeping the offsets strictly rising. -/
def Memory.store : Memory → Nat → Byte → Memory
  | [], a, v => [(a, v)]
  | (b, w) :: m, a, v =>
    if a < b then (a, v) :: (b, w) :: m
    else if a = b then (a, v) :: m
    else (b, w) :: Memory.store m a v

/-- Store consecutive bytes, upward from an offset (20_memory.md R39). -/
def Memory.storeAll : Memory → Nat → List Byte → Memory
  | m, _, [] => m
  | m, a, v :: vs => Memory.storeAll (Memory.store m a v) (a + 1) vs

/-- The canonical form: offsets strictly rising (log 5). -/
abbrev Memory.wf (m : Memory) : Prop := m.Pairwise (fun x y => x.1 < y.1)

/-- The written bytes of a space. -/
def State.space (s : State) : Space → Memory
  | .src => s.srcMem
  | .pri => s.priMem
  | .sdc => s.sdcMem
  | .dst => s.dstMem

/-- Replace the written bytes of a space. -/
def State.setSpace (s : State) (S : Space) (m : Memory) : State :=
  match S with
  | .src => { s with srcMem := m }
  | .pri => { s with priMem := m }
  | .sdc => { s with sdcMem := m }
  | .dst => { s with dstMem := m }

/-- The capacity of a space, in bytes (R35). -/
def State.capOf (s : State) : Space → Nat
  | .src => s.caps.src.toNat
  | .pri => s.caps.pri.toNat
  | .sdc => s.caps.sdc.toNat
  | .dst => s.caps.dst.toNat

/-- The length register of a space (R26), as a number of bytes. -/
def State.lenOf (s : State) : Space → Nat
  | .src => s.srcLen.toNat
  | .pri => s.priLen.toNat
  | .sdc => s.sdcLen.toNat
  | .dst => s.dstLen.toNat

/-- Write the length register of a space. -/
def State.setLen (s : State) (S : Space) (n : Word) : State :=
  match S with
  | .src => { s with srcLen := n }
  | .pri => { s with priLen := n }
  | .sdc => { s with sdcLen := n }
  | .dst => { s with dstLen := n }

/-- `MemRead(S, a, 1)` (20_memory.md R37, R42): the last byte written there, and the free value of U1 where nothing has
been written since the latest reset. -/
def State.memRead (s : State) (S : Space) (a : Nat) : Byte :=
  ((s.space S).find a).getD (Config.unwrittenByte s.resets S a)

/-- `MemWrite(S, a, 1, v)` (R43). -/
def State.memWrite (s : State) (S : Space) (a : Nat) (v : Byte) : State :=
  s.setSpace S ((s.space S).store a v)

/-- The first `n` bytes of a space. -/
def State.bytes (s : State) (S : Space) (n : Nat) : List Byte := (List.range n).map (s.memRead S)

/-- The content of a space: its bytes below its length register (R38). -/
def State.content (s : State) (S : Space) : List Byte := s.bytes S (s.lenOf S)

/-- `commit` of a finished artifact: its bytes from offset 0 upward, then the length register (R38, R166). -/
def State.commit (s : State) (S : Space) (out : List Byte) : State :=
  (s.setSpace S ((s.space S).storeAll 0 out)).setLen S (BitVec.ofNat 32 out.length)

/-! ### Outcomes -/

/-- How a command's pseudocode ends: an outcome code and its information word (60_exceptions.md R160). -/
structure Ending where
  code : OutcomeCode
  info : Word
deriving DecidableEq, Repr

/-- `outcome OK`. -/
def okEnding : Ending := ⟨.ok, 0#32⟩

/-- The benign stop `EMPTY_INPUT` (R161). -/
def emptyInputEnding : Ending := ⟨.emptyInput, 0#32⟩

/-- `raise TABLE_NOT_FOUND(0)` (R163). -/
def tableNotFoundEnding : Ending := ⟨.tableNotFound, 0#32⟩

/-- `raise TRUNCATED_OUTPUT(count)` (R164). -/
def truncatedEnding (count : Nat) : Ending := ⟨.truncatedOutput, BitVec.ofNat 32 count⟩

/-- `raise UNKNOWN_SYMBOL(offset)` (R165). -/
def unknownSymbolEnding (offset : Nat) : Ending := ⟨.unknownSymbol, BitVec.ofNat 32 offset⟩

/-- `raise IO_FAILURE(space id)` (R162). -/
def ioFailureEnding (S : Space) : Ending := ⟨.ioFailure, spaceId S⟩

/-- `ILLEGAL_COMMAND` of a word that spells no command (R167). -/
def illegalEnding (w : Word) : Ending := ⟨.illegalCommand, w⟩

/-- The accept step of 10_state.md R21. The host side (how long the command lasts) is set by the caller. -/
def State.accept (s : State) (w : Word) : State :=
  { s with cmdLatch := w, busy := true, done := false, outcome := .ok, errInfo := 0#32 }

/-- The complete step of 10_state.md R21, which is the whole of the reporting mechanism (60_exceptions.md R169): no
state is saved, no mode changes, control goes nowhere. -/
def State.complete (s : State) (e : Ending) : State :=
  { s with outcome := e.code, errInfo := e.info, done := true, busy := false }

/-- After a command's body the sequencer completes it. Every outcome leaves an idle machine that accepts the next command
(R170: the "return"). -/
def finish (r : State × Ending) : Host.Outcome State Fault Refusal := .next (r.1.complete r.2)

/-- Sequencing inside a macro: a `raise` of the first body ends the macro (46_macro.md, 60_exceptions.md R170). -/
def andThen (r : State × Ending) (next : State → State × Ending) : State × Ending :=
  if r.2.code = .ok then next r.1 else r

/-- `clear_all()` (47_housekeeping.md R153). -/
def State.clearAll (s : State) : State :=
  { s with
    freq := emptyFreq, nodes := [], root := none, code := emptyCode,
    decCount := 0#32, decDropped := 0#32, tblMalformed := false }

/-- Empty `FREQ` and the arena, at the end of `ENCODE` (46_macro.md R143). -/
def State.dropTree (s : State) : State := { s with freq := emptyFreq, nodes := [], root := none }

/-- Hardware reset (70_reset_and_hazards.md R180): registers and tables take their reset values and every byte of every
space becomes unspecified. The capacities are the machine's own; what belongs to the host goes on (log 18). -/
def State.hardwareReset (s : State) : State :=
  { State.resetWith s.caps with
    script := s.script, responses := s.responses, durations := s.durations,
    draws := s.draws, resets := s.resets + 1 }

end Sys2Proof.Machine
end

