-- ==== Sys2Proof/Machine/Operands.lean ====
section
/-! DEFINITION. What the commands read and how they spell it: the view registers over the tables, the inverse lookup, the
decimal and token renderings (00_scope.md notation; 10_state.md R25, R29 to R32; 30_encoding.md R57 to R59). -/

namespace Sys2Proof.Machine

/-! ### Views -/

/-- `EXPECTED = WIDTH × HEIGHT`, exact (R25). -/
def State.expected (s : State) : Nat := s.width.toNat * s.height.toNat

/-- The symbols that have an entry in a ROM, ascending. -/
def codedSymbols (t : Table Code) : List Byte := (t.entries.filter (fun e => e.2 ≠ [])).map Prod.fst

/-- `SYM_COUNT`: the number of symbols with an entry (R31). -/
def symCount (t : Table Code) : Nat := (codedSymbols t).length

/-- `MAX_LEN`: the longest entry, 0 for the empty ROM (R31). -/
def maxLen (t : Table Code) : Nat := (t.entries.map (fun e => e.2.length)).foldl max 0

/-- `NODE_CNT` (R29). -/
def State.nodeCnt (s : State) : Nat := s.nodes.length

/-- The inverse lookup: the smallest symbol whose entry is the non-empty sequence `q` (R32). -/
def lookup (t : Table Code) (q : Code) : Option Byte :=
  if q = [] then none else (t.entries.find? (fun e => e.2 == q)).map Prod.fst

/-! ### ASCII -/

/-- The space byte. -/
def spaceByte : Byte := 0x20#8

/-- The newline byte. -/
def newlineByte : Byte := 0x0A#8

/-- The ASCII digit of a number below 10. -/
def digitByte (d : Nat) : Byte := BitVec.ofNat 8 (0x30 + d)

/-- `isdigit(c)`: 0x30 ≤ c ≤ 0x39. -/
def isDigit (c : Byte) : Bool := decide (0x30 ≤ c.toNat) && decide (c.toNat ≤ 0x39)

/-- The value of a digit byte, `c − 0x30`. -/
def digitVal (c : Byte) : Nat := c.toNat - 0x30

/-- The decimal digits of `v`, most significant first, no leading zero, at most `fuel` of them. -/
def decDigits : Nat → Nat → List Byte
  | 0, _ => []
  | fuel + 1, v => if v < 10 then [digitByte v] else decDigits fuel (v / 10) ++ [digitByte (v % 10)]

/-- `dec(v)` of a dimension: 1 to 5 digits (R57). -/
def dec (v : Dim) : List Byte := decDigits 5 v.toNat

/-- `dec3(v)`: exactly three digits (R59). -/
def dec3 (v : Byte) : List Byte :=
  [digitByte (v.toNat / 100), digitByte (v.toNat / 10 % 10), digitByte (v.toNat % 10)]

/-- `tok(b)`: the ASCII token of a code bit; one whole byte each, never packed (R58, 44_codec.md R103). -/
def tok (b : Bool) : Byte := if b then 0x31#8 else 0x30#8

/-- A byte that is a token. -/
def isTok (c : Byte) : Bool := c == 0x30#8 || c == 0x31#8

/-- The code bit of a token byte. -/
def tokBit (c : Byte) : Bool := c == 0x31#8

/-- The tokens of a code, first token first. -/
def tokens (q : Code) : List Byte := q.map tok

/-- The header line of the primary artifact (R57, 44_codec.md R101). -/
def header (w h : Dim) : List Byte := dec w ++ [spaceByte] ++ dec h ++ [newlineByte]

/-- A record of the sidecar artifact (R59). -/
def record (x : Byte) (q : Code) : List Byte := dec3 x ++ [spaceByte] ++ tokens q ++ [newlineByte]

end Sys2Proof.Machine
end

