-- ==== Sys2Proof/Machine/Flags.lean ====
section
/-! DEFINITION. `STATUS`, `CTRL` and the interrupt output: these are all the flags of HTB (10_state.md R24, R34;
60_exceptions.md R160, R171). -/

namespace Sys2Proof.Machine

/-- The four-bit code of an outcome (60_exceptions.md R160). -/
def outcomeBits : OutcomeCode → BitVec 4
  | .ok => 0#4
  | .emptyInput => 1#4
  | .tableNotFound => 2#4
  | .truncatedOutput => 3#4
  | .unknownSymbol => 4#4
  | .ioFailure => 5#4
  | .illegalCommand => 6#4

/-- `STATUS` as read: [0] BUSY, [1] DONE, [2] TBL_MALFORMED, [11:8] OUTCOME, all other bits 0 (R24). -/
def State.statusWord (s : State) : Word :=
  0#20 ++ outcomeBits s.outcome ++ 0#5 ++ BitVec.ofBool s.tblMalformed ++ BitVec.ofBool s.done ++ BitVec.ofBool s.busy

/-- `CTRL` as read: [0] IE, all other bits 0 (R34). -/
def State.ctrlWord (s : State) : Word := 0#31 ++ BitVec.ofBool s.ie

/-- A host write of `STATUS` while idle: bit 1 written as 1 clears `DONE`, nothing else changes (R24). -/
def State.writeStatus (s : State) (v : Word) : State := if v.getLsbD 1 then { s with done := false } else s

/-- A host write of `CTRL` while idle (R34). -/
def State.writeCtrl (s : State) (v : Word) : State := { s with ie := v.getLsbD 0 }

/-- The output `irq_o` (60_exceptions.md R171). -/
def State.irqO (s : State) : Bool := s.done && s.ie

/-- `ROOT` as read: [31] ROOT_VALID, [8:0] ROOT_IDX, all other bits 0 (R29). -/
def State.rootWord (s : State) : Word :=
  match s.root with
  | none => 0#32
  | some i => 1#1 ++ 0#22 ++ i

end Sys2Proof.Machine
end

