-- ==== Sys2Proof/WellFormed.lean ====
section
/-! DEFINITION. The checks on syntax. A command has no operand, so every command is well formed (30_encoding.md R53);
what can be ill formed is a host operation (20_memory.md R44). -/

namespace Sys2Proof

/-- R53, R56: a command has no operand field that could be wrong. Every constructor is named, so that a command with an
operand could not slip past. -/
def Instr.wellFormed : Instr → Bool
  | .nop | .clr | .sample | .build | .gen | .emit | .tsave | .tload | .dec | .encode | .decode => true

namespace Machine

/-- R44: a register access moves one aligned 32-bit word inside the 256-byte register block. -/
def regAccessWellFormed (off bytes : Nat) : Bool := bytes == 4 && off % 4 == 0 && decide (off < 0x100)

/-- R44: a byte-space access moves one byte. (That its offset lies below the capacity and that `BUSY = 0` are checks on
the state, made when it is performed.) -/
def memAccessWellFormed (bytes : Nat) : Bool := bytes == 1

/-- The form of a host operation that the port admits (R44). -/
def HostOp.wellFormed : HostOp → Bool
  | .regRead off n => regAccessWellFormed off n
  | .regWrite off n _ => regAccessWellFormed off n
  | .memRead _ _ n => memAccessWellFormed n
  | .memWrite _ _ n _ => memAccessWellFormed n
  | .waitIdle => true
  | .hardwareReset => true

end Machine

end Sys2Proof
end

