-- ==== Sys2Proof/Machine/HostMoves.lean ====
section
/-! DEFINITION. What a host operation does (20_memory.md R40 to R44; 70_reset_and_hazards.md R180, R181), and how the
host's script advances (30_encoding.md R60). -/

namespace Sys2Proof.Machine

/-- The value of a register, as the register map defines it (10_state.md R20, R22 to R26, R29, R31, R33 to R35). -/
def State.regValue (s : State) : Reg → Word
  | .id         => Config.idValue
  | .cmd        => 0#32
  | .status     => s.statusWord
  | .ctrl       => s.ctrlWord
  | .width      => 0#16 ++ s.width
  | .height     => 0#16 ++ s.height
  | .srcLen     => s.srcLen
  | .priLen     => s.priLen
  | .sdcLen     => s.sdcLen
  | .dstLen     => s.dstLen
  | .expected   => BitVec.ofNat 32 s.expected
  | .symCount   => BitVec.ofNat 32 (symCount s.code)
  | .maxLen     => BitVec.ofNat 32 (maxLen s.code)
  | .nodeCount  => BitVec.ofNat 32 s.nodeCnt
  | .root       => s.rootWord
  | .decCount   => s.decCount
  | .decDropped => s.decDropped
  | .errInfo    => s.errInfo
  | .srcCap     => s.caps.src
  | .priCap     => s.caps.pri
  | .sdcCap     => s.caps.sdc
  | .dstCap     => s.caps.dst

/-- The value at an offset of the register block; reserved offsets read 0 (R35). -/
def State.wordAt (s : State) (off : Nat) : Word :=
  match regAt off with
  | some r => s.regValue r
  | none => 0#32

/-- An offset whose value is defined while `BUSY = 1`: a register that R40 lists, or a reserved offset, which reads 0
whether or not a command runs (20_memory.md R40; 10_state.md R35; 93_implementation_defined.md U2, U4; log 6). -/
def offsetStableWhileBusy (off : Nat) : Bool :=
  match regAt off with
  | some r => r.stableWhileBusy
  | none => true

/-- Hand a value to the host. -/
def State.respond (s : State) (v : HostValue) : State := { s with responses := v :: s.responses }

/-- `RegRead(off)`: no side effect on any of HTB's state (R40). While `BUSY = 1` a register that is not stable returns
the next free value (U4; log 6). -/
def State.regRead (s : State) (off : Nat) : State :=
  if s.busy && !offsetStableWhileBusy off then
    { s with responses := .word (Config.busyReadValue s.draws) :: s.responses, draws := s.draws + 1 }
  else s.respond (.word (s.wordAt off))

/-- The host's write of `CMD` while idle: the accept step of R21; the host's input says how many host moves the command
outlasts, none if it says nothing (R186; log 2). -/
def State.acceptFromHost (s : State) (w : Word) : State :=
  { s.accept w with hostSlots := s.durations.headD 0, durations := s.durations.tail }

/-- The write effect of a register while idle (10_state.md R23 to R26, R34; read-only registers: none). -/
def State.regWriteIdle (s : State) (v : Word) : Reg → State
  | .cmd    => s.acceptFromHost v
  | .status => s.writeStatus v
  | .ctrl   => s.writeCtrl v
  | .width  => { s with width := v.extractLsb' 0 16 }
  | .height => { s with height := v.extractLsb' 0 16 }
  | .srcLen => s.setLen .src v
  | .priLen => s.setLen .pri v
  | .sdcLen => s.setLen .sdc v
  | .id | .dstLen | .expected | .symCount | .maxLen | .nodeCount | .root
  | .decCount | .decDropped | .errInfo | .srcCap | .priCap | .sdcCap | .dstCap => s

/-- `RegWrite(off, v)`: no effect at all while `BUSY = 1`, none at a reserved offset (R35, R41, R181). -/
def State.regWrite (s : State) (off : Nat) (v : Word) : State :=
  if s.busy then s
  else
    match regAt off with
    | some r => s.regWriteIdle v r
    | none => s

/-- A space access is admitted below the capacity (R44). -/
def State.spaceAccessInRange (s : State) (S : Space) (a : Nat) : Bool := decide (a < s.capOf S)

/-- One host operation of an admitted form, `s` being the state after the host has taken it from its script. -/
def hostPerform (op : HostOp) (s : State) : Host.Outcome State Fault Refusal :=
  match op with
  | .regRead off _ => .next (s.regRead off)
  | .regWrite off _ v => .next (s.regWrite off v)
  | .memRead S a _ =>
    if s.busy then .refused (.spaceAccessWhileBusy op)
    else if s.spaceAccessInRange S a then .next (s.respond (.byte (s.memRead S a)))
    else .refused (.accessNotAdmitted op)
  | .memWrite S a _ v =>
    if s.busy then .refused (.spaceAccessWhileBusy op)
    else if s.spaceAccessInRange S a then .next (s.memWrite S a v)
    else .refused (.accessNotAdmitted op)
  | .waitIdle =>
    -- `wait` reads `STATUS` and stays the next statement while that read shows `BUSY = 1` (R60)
    .next { s.respond (.word s.statusWord) with script := if s.busy then .waitIdle :: s.script else s.script }
  | .hardwareReset => .next s.hardwareReset

/-- The host's next move: the first operation of the script, refused if its form is not admitted (R44; log 17). An empty
script is a host that has no more statements; nothing happens then (R180, R188; log 16). -/
def hostMove (s : State) : Host.Outcome State Fault Refusal :=
  match s.script with
  | [] => .next s
  | op :: rest =>
    if op.wellFormed then hostPerform op { s with script := rest } else .refused (.accessNotAdmitted op)

/-- A host move made while a command runs uses up one of the moves the command outlasts (log 2). -/
def State.spendSlot (s : State) : State := { s with hostSlots := s.hostSlots - 1 }

/-- While `BUSY = 1` the host moves first as long as the command outlasts another of its moves and it has one to make. -/
def State.hostMovesFirst (s : State) : Bool := decide (0 < s.hostSlots) && !s.script.isEmpty

end Sys2Proof.Machine
end

