-- ==== Sys2Proof/Machine/Build.lean ====
section
/-! DEFINITION. `BUILD`, the greedy merge (42_build.md). -/

namespace Sys2Proof.Machine

/-- `NODE[i].freq`. -/
def Node.freq : Node → Word
  | .leaf _ f => f
  | .internal f _ _ => f

/-- `NODE[i].freq` of the record an index names; 0 where no record stands (no index of the priority structure is such). -/
def freqOfIdx (nodes : List Node) (i : NodeIdx) : Word := (nodes[i.toNat]?).elim 0#32 Node.freq

/-- `i ≺ j`: by frequency, then by arena index (R74). -/
def precedes (nodes : List Node) (i j : NodeIdx) : Bool :=
  decide ((freqOfIdx nodes i).toNat < (freqOfIdx nodes j).toNat) ||
    (decide ((freqOfIdx nodes i).toNat = (freqOfIdx nodes j).toNat) && decide (i.toNat < j.toNat))

/-- The ≺-least of an index and the indices of a list. -/
def leastIdx (nodes : List Node) : NodeIdx → List NodeIdx → NodeIdx
  | best, [] => best
  | best, j :: js => leastIdx nodes (if precedes nodes j best then j else best) js

/-- `extract_min(Q)`: the ≺-least index of the priority structure, and the structure without it (R74, R75; log 25). -/
def extractMin (nodes : List Node) : List NodeIdx → Option (NodeIdx × List NodeIdx)
  | [] => none
  | q :: qs => some (leastIdx nodes q qs, (q :: qs).erase (leastIdx nodes q qs))

/-- The leaves, one per symbol with a non-zero count, in ascending symbol order (R71). -/
def leavesOf (t : Table Word) : List Node :=
  (t.entries.filter (fun e => e.2 ≠ 0#32)).map (fun e => .leaf e.1 e.2)

/-- The index the next record gets (R71: creation order). -/
def nextIdx (nodes : List Node) : NodeIdx := BitVec.ofNat 9 nodes.length

/-- The internal record a merge creates: the first extracted node on the left, the second on the right (R73). -/
def mergedNode (nodes : List Node) (a b : NodeIdx) : Node :=
  .internal (freqOfIdx nodes a + freqOfIdx nodes b) a b

/-- The merge loop: while two nodes can be extracted, merge them (R72). Each round leaves one index fewer, so the number
of indices bounds the rounds. -/
def mergeLoop : Nat → List Node → List NodeIdx → List Node × List NodeIdx
  | 0, nodes, q => (nodes, q)
  | fuel + 1, nodes, q =>
    match extractMin nodes q with
    | none => (nodes, q)
    | some (a, q1) =>
      match extractMin nodes q1 with
      | none => (nodes, q)
      | some (b, q2) => mergeLoop fuel (nodes ++ [mergedNode nodes a b]) (nextIdx nodes :: q2)

/-- The priority structure before the first merge: the indices of the leaves (R70). -/
def leafIndices (leaves : List Node) : List NodeIdx := (List.range leaves.length).map (BitVec.ofNat 9)

/-- The arena and what remains in the priority structure after the last merge (R70). -/
def buildTree (t : Table Word) : List Node × List NodeIdx :=
  mergeLoop (leavesOf t).length (leavesOf t) (leafIndices (leavesOf t))

/-- The body of `BUILD` (R70, R76). -/
def buildBody (s : State) : State × Ending :=
  match buildTree s.freq with
  | (_, []) => ({ s with nodes := [], root := none }, emptyInputEnding)
  | (nodes, r :: _) => ({ s with nodes := nodes, root := some r }, okEnding)

/-- `BUILD` (R70). -/
def execBuild (s : State) : Host.Outcome State Fault Refusal := finish (buildBody s)

end Sys2Proof.Machine
end

