-- ==== Sys2Proof/Machine/Codec.lean ====
section
/-! DEFINITION. `EMIT` and `DEC` (44_codec.md). -/

namespace Sys2Proof.Machine

/-! ### EMIT -/

/-- The encoding loop: `i` is the offset of the next buffer byte, `out` the artifact so far (R100, R102). The unknown
symbol is found before any of its tokens would be appended, the overflow after they are (R106). -/
def emitLoop (t : Table Code) (cap : Nat) : Nat → List Byte → List Byte → Except Ending (List Byte)
  | _, [], out => .ok out
  | i, b :: bs, out =>
    if t.entry b = [] then .error (unknownSymbolEnding i)
    else if cap < (out ++ tokens (t.entry b)).length then .error (ioFailureEnding .pri)
    else emitLoop t cap (i + 1) bs (out ++ tokens (t.entry b))

/-- The primary artifact, or how the command ends without one; checks in the order of R100's pseudocode. -/
def emitArtifact (s : State) : Except Ending (List Byte) :=
  if s.capOf .src < s.lenOf .src then .error (ioFailureEnding .src)
  else if s.lenOf .src = 0 then .error emptyInputEnding
  else if s.capOf .pri < (header s.width s.height).length then .error (ioFailureEnding .pri)
  else emitLoop s.code (s.capOf .pri) 0 (s.content .src) (header s.width s.height)

/-- The body of `EMIT` (R100). -/
def emitBody (s : State) : State × Ending :=
  match emitArtifact s with
  | .error e => (s.setLen .pri 0#32, e)
  | .ok out => (s.commit .pri out, okEnding)

/-- `EMIT` (R100). -/
def execEmit (s : State) : Host.Outcome State Fault Refusal := finish (emitBody s)

/-! ### DEC -/

/-- Where decoding starts: after the first newline if the first byte is a digit, at the end if there is then no newline,
else at 0 (R109). -/
def decodeStart (artifact : List Byte) : Nat :=
  match artifact with
  | [] => 0
  | c :: cs =>
    if isDigit c then
      match (c :: cs).findIdx? (· == newlineByte) with
      | some j => j + 1
      | none => (c :: cs).length
    else 0

/-- `match(cand)`: the lookup of the candidate's bits if all its bytes are tokens, else nothing (R113). -/
def matchCand (t : Table Code) (cand : List Byte) : Option Byte :=
  if cand.all isTok then lookup t (cand.map tokBit) else none

/-- The decoder between two payload bytes: decoded bytes, candidate, and count of discarded bytes. -/
structure DecAcc where
  out : List Byte
  cand : List Byte
  dropped : Nat
deriving DecidableEq, Repr

/-- One payload byte: match first, then the over-length discard, strictly longer than the longest code (R110, R111). -/
def decStep (t : Table Code) (longest : Nat) (acc : DecAcc) (b : Byte) : DecAcc :=
  match matchCand t (acc.cand ++ [b]) with
  | some x => ⟨acc.out ++ [x], [], acc.dropped⟩
  | none =>
    if longest < (acc.cand ++ [b]).length then ⟨acc.out, [], acc.dropped + (acc.cand ++ [b]).length⟩
    else ⟨acc.out, acc.cand ++ [b], acc.dropped⟩

/-- Decode a payload to its end; the leftover candidate is dropped (R112). -/
def decodePayload (t : Table Code) (payload : List Byte) : DecAcc :=
  let acc := payload.foldl (decStep t (maxLen t)) ⟨[], [], 0⟩
  ⟨acc.out, [], acc.dropped + acc.cand.length⟩

/-- Header skip, then the payload (R108). -/
def decodeArtifact (t : Table Code) (artifact : List Byte) : DecAcc :=
  decodePayload t (artifact.drop (decodeStart artifact))

/-- `DST_LEN`, `DEC_COUNT` and `DEC_DROPPED` are zeroed first (R108). -/
def decClear (s : State) : State := { s with dstLen := 0#32, decCount := 0#32, decDropped := 0#32 }

/-- The counters after the payload has been decoded (R116). -/
def decCounters (s : State) (acc : DecAcc) : State :=
  { s with decCount := BitVec.ofNat 32 acc.out.length, decDropped := BitVec.ofNat 32 acc.dropped }

/-- The end of `DEC`, once the counters are written: capacity first, then the size contract (R108, R114, R115, R168). -/
def decDeliver (s : State) (out : List Byte) : State × Ending :=
  if s.capOf .dst < out.length then (s, ioFailureEnding .dst)
  else if out.length < s.expected then (s, truncatedEnding out.length)
  else (s.commit .dst out, okEnding)

/-- The body of `DEC` (R108). -/
def decBody (s : State) : State × Ending :=
  if s.capOf .pri < s.lenOf .pri then (decClear s, ioFailureEnding .pri)
  else
    decDeliver (decCounters (decClear s) (decodeArtifact s.code (s.content .pri)))
      (decodeArtifact s.code (s.content .pri)).out

/-- `DEC` (R108). -/
def execDec (s : State) : Host.Outcome State Fault Refusal := finish (decBody s)

end Sys2Proof.Machine
end

