-- ==== Sys2Proof/Machine/Gen.lean ====
section
/-! DEFINITION. `GEN`, the prefix-code ROM generator (43_gen.md). -/

namespace Sys2Proof.Machine

/-- `walk(i, path)`: depth first, left before right, token 0 on the left edge and 1 on the right (R85, R86). Children have
lower indices than their parent (42_build.md R77), so the arena's length bounds the depth; an index that names no record,
which no arena of `BUILD` holds, records nothing (log 15). -/
def walk (nodes : List Node) : Nat → NodeIdx → Code → Table Code → Table Code
  | 0, _, _, t => t
  | fuel + 1, i, path, t =>
    match nodes[i.toNat]? with
    | none => t
    | some (.leaf x _) => t.put x path
    | some (.internal _ l r) =>
      walk nodes fuel r (path ++ [true]) (walk nodes fuel l (path ++ [false]) t)

/-- The ROM of an arena: empty without a root (R88), the one-token code `0` for a single leaf (R87), else the paths. -/
def romOf (nodes : List Node) (root : Option NodeIdx) : Table Code :=
  match root with
  | none => emptyCode
  | some r =>
    match nodes[r.toNat]? with
    | some (.leaf x _) => emptyCode.put x [false]
    | _ => walk nodes nodes.length r [] emptyCode

/-- The body of `GEN` (R85). -/
def genBody (s : State) : State × Ending := ({ s with code := romOf s.nodes s.root }, okEnding)

/-- `GEN` (R85). -/
def execGen (s : State) : Host.Outcome State Fault Refusal := finish (genBody s)

end Sys2Proof.Machine
end

