-- ==== Sys2Proof/Machine/Housekeeping.lean ====
section
/-! DEFINITION. `NOP` and `CLR` (47_housekeeping.md). -/

namespace Sys2Proof.Machine

/-- `NOP` (R152). -/
def execNop (s : State) : Host.Outcome State Fault Refusal := finish (s, okEnding)

/-- `CLR` (R153). -/
def execClr (s : State) : Host.Outcome State Fault Refusal := finish (s.clearAll, okEnding)

end Sys2Proof.Machine
end

