-- ==== Sys2Proof/Machine/Sample.lean ====
section
/-! DEFINITION. `SAMPLE` (41_sample.md). -/

namespace Sys2Proof.Machine

/-- `FREQ[b] <- FREQ[b] + 1`. -/
def countByte (t : Table Word) (b : Byte) : Table Word := t.put b (t.entry b + 1#32)

/-- One pass over the buffer, from the all-zero table (R65). -/
def countBytes (buffer : List Byte) : Table Word := buffer.foldl countByte emptyFreq

/-- The body of `SAMPLE` (R65). -/
def sampleBody (s : State) : State × Ending :=
  if s.capOf .src < s.lenOf .src then (s, ioFailureEnding .src)
  else ({ s with freq := countBytes (s.content .src) }, okEnding)

/-- `SAMPLE` (R65). -/
def execSample (s : State) : Host.Outcome State Fault Refusal := finish (sampleBody s)

end Sys2Proof.Machine
end

