-- ==== Sys2Proof/Machine/TableIo.lean ====
section
/-! DEFINITION. `TSAVE` and `TLOAD` (45_table_io.md). -/

namespace Sys2Proof.Machine

/-! ### TSAVE -/

/-- The records of a list of symbols with their entries, the capacity checked after each; no record for a symbol without
an entry (R121, R123). -/
def tsaveLoop (cap : Nat) : List (Byte × Code) → List Byte → Except Ending (List Byte)
  | [], out => .ok out
  | (x, q) :: rest, out =>
    if q = [] then tsaveLoop cap rest out
    else if cap < (out ++ record x q).length then .error (ioFailureEnding .sdc)
    else tsaveLoop cap rest (out ++ record x q)

/-- The sidecar artifact, or how the command ends without one (R121). -/
def tsaveArtifact (s : State) : Except Ending (List Byte) := tsaveLoop (s.capOf .sdc) s.code.entries []

/-- The body of `TSAVE` (R121). -/
def tsaveBody (s : State) : State × Ending :=
  match tsaveArtifact s with
  | .error e => (s.setLen .sdc 0#32, e)
  | .ok out => (s.commit .sdc out, okEnding)

/-- `TSAVE` (R121). -/
def execTsave (s : State) : Host.Outcome State Fault Refusal := finish (tsaveBody s)

/-! ### TLOAD -/

/-- `lines(data)`, `cur` being the line read so far: cut at every newline; bytes after the last newline form a final line,
and there is none if there are no such bytes (R128). -/
def linesFrom (cur : List Byte) : List Byte → List (List Byte)
  | [] => if cur = [] then [] else [cur]
  | b :: bs => if b = newlineByte then cur :: linesFrom [] bs else linesFrom (cur ++ [b]) bs

/-- `lines(data)` (R128). -/
def linesOf (data : List Byte) : List (List Byte) := linesFrom [] data

/-- The value of a three-digit symbol field. -/
def symbolField (d0 d1 d2 : Byte) : Nat := 100 * digitVal d0 + 10 * digitVal d1 + digitVal d2

/-- A line's symbol and code if the line is well formed, by fixed positions (R129). -/
def parseLine : List Byte → Option (Byte × Code)
  | d0 :: d1 :: d2 :: sp :: toks =>
    if isDigit d0 && isDigit d1 && isDigit d2 && decide (symbolField d0 d1 d2 ≤ 255) && sp == spaceByte
        && decide (1 ≤ toks.length) && decide (toks.length ≤ 255) && toks.all isTok then
      some (BitVec.ofNat 8 (symbolField d0 d1 d2), toks.map tokBit)
    else none
  | _ => none

/-- The ROM being filled and the flag `TBL_MALFORMED`. -/
structure LoadAcc where
  code : Table Code
  malformed : Bool
deriving DecidableEq, Repr

/-- One line: its entry replaces an earlier one of the same symbol (R131), a malformed line is skipped and flagged (R130). -/
def loadLine (acc : LoadAcc) (line : List Byte) : LoadAcc :=
  match parseLine line with
  | some (x, q) => ⟨acc.code.put x q, acc.malformed⟩
  | none => ⟨acc.code, true⟩

/-- The parse of a whole sidecar, from the empty ROM (R127). -/
def loadLines (data : List Byte) : LoadAcc := (linesOf data).foldl loadLine ⟨emptyCode, false⟩

/-- The ROM and the flag are emptied first (R127). -/
def tloadClear (s : State) : State := { s with code := emptyCode, tblMalformed := false }

/-- The ROM and the flag after the parse (R127, R130). -/
def tloadFill (s : State) (acc : LoadAcc) : State := { s with code := acc.code, tblMalformed := acc.malformed }

/-- The body of `TLOAD` (R127, R132). -/
def tloadBody (s : State) : State × Ending :=
  if s.capOf .sdc < s.lenOf .sdc then (tloadClear s, ioFailureEnding .sdc)
  else if symCount (loadLines (s.content .sdc)).code = 0 then
    (tloadFill s (loadLines (s.content .sdc)), tableNotFoundEnding)
  else (tloadFill s (loadLines (s.content .sdc)), okEnding)

/-- `TLOAD` (R127). -/
def execTload (s : State) : Host.Outcome State Fault Refusal := finish (tloadBody s)

end Sys2Proof.Machine
end

