-- ==== Sys2Proof/Machine/Macro.lean ====
section
/-! DEFINITION. `ENCODE` and `DECODE`, the whole calls (46_macro.md). -/

namespace Sys2Proof.Machine

/-- The start of `ENCODE`: `clear_all()` and both output lengths 0 (R140). -/
def encodeStart (s : State) : State := (s.clearAll.setLen .pri 0#32).setLen .sdc 0#32

/-- Both artifacts are computed before either is committed (R140, R142); a primary overflow is found first (R168). -/
def encodeArtifacts (s : State) : State × Ending :=
  match emitArtifact s with
  | .error e => (s, e)
  | .ok pri =>
    match tsaveArtifact s with
    | .error e => (s, e)
    | .ok sdc => ((s.commit .pri pri).commit .sdc sdc, okEnding)

/-- The stages of `ENCODE` after its two checks (R140). -/
def encodeStages (s : State) : State × Ending :=
  andThen (andThen (andThen (sampleBody s) buildBody) genBody) encodeArtifacts

/-- `ENCODE` up to the end of the call (R140, R141). -/
def encodeCall (s : State) : State × Ending :=
  if s.capOf .src < s.lenOf .src then (s, ioFailureEnding .src)
  else if s.lenOf .src = 0 then (s, emptyInputEnding)
  else encodeStages s

/-- The body of `ENCODE`: whatever the outcome, it ends with `FREQ` and the arena empty (R142, R143; log 11). -/
def encodeBody (s : State) : State × Ending :=
  ((encodeCall (encodeStart s)).1.dropTree, (encodeCall (encodeStart s)).2)

/-- `ENCODE` (R140). -/
def execEncode (s : State) : Host.Outcome State Fault Refusal := finish (encodeBody s)

/-- The start of `DECODE`: `clear_all()` and `DST_LEN` 0 (R144). -/
def decodeStartState (s : State) : State := s.clearAll.setLen .dst 0#32

/-- The body of `DECODE`: an error of the `TLOAD` body ends the call before any payload is decoded (R144, R145). -/
def decodeBody (s : State) : State × Ending := andThen (tloadBody (decodeStartState s)) decBody

/-- `DECODE` (R144). -/
def execDecode (s : State) : Host.Outcome State Fault Refusal := finish (decodeBody s)

end Sys2Proof.Machine
end

