-- ==== Sys2Proof/Machine/Dispatch.lean ====
section
/-! DEFINITION. One arm per command (30_encoding.md R54). -/

namespace Sys2Proof.Machine

def exec (i : Instr) (s : State) : Host.Outcome State Fault Refusal :=
  match i with
  -- housekeeping
  | .nop => Sys2Proof.Machine.execNop s
  | .clr => Sys2Proof.Machine.execClr s
  -- encode-side stages
  | .sample => Sys2Proof.Machine.execSample s
  | .build => Sys2Proof.Machine.execBuild s
  | .gen => Sys2Proof.Machine.execGen s
  | .emit => Sys2Proof.Machine.execEmit s
  | .tsave => Sys2Proof.Machine.execTsave s
  -- decode-side stages
  | .tload => Sys2Proof.Machine.execTload s
  | .dec => Sys2Proof.Machine.execDec s
  -- whole calls
  | .encode => Sys2Proof.Machine.execEncode s
  | .decode => Sys2Proof.Machine.execDecode s

end Sys2Proof.Machine
end

