-- ==== Sys2Proof/Machine/Sequencer.lean ====
section
/-! DEFINITION. The sequencer's move: execute the word in `CMD_LATCH` to completion (10_state.md R21). -/

namespace Sys2Proof.Machine

/-- A latched word that spells no command completes with `ILLEGAL_COMMAND` and changes nothing else (30_encoding.md R55,
60_exceptions.md R167). -/
def completeIllegal (s : State) : Host.Outcome State Fault Refusal := finish (s, illegalEnding s.cmdLatch)

/-- Execute `CMD_LATCH` per 30_encoding.md R54 (R21, complete step). -/
def sequencerMove (s : State) : Host.Outcome State Fault Refusal :=
  match decodeWord s.cmdLatch with
  | .ok i => exec i s
  | .error _ => completeIllegal s

end Sys2Proof.Machine
end

