-- ==== Sys2Proof/Machine/Step.lean ====
section
/-! DEFINITION. One step: the sequencer's or the host's (00_scope.md R9; 10_state.md R21; 20_memory.md R47). -/

namespace Sys2Proof.Machine

/-- While `BUSY = 1` the accepted command completes, unless the host's input gives the host a move first (log 1, 2);
while `BUSY = 0` the host moves, and nothing happens if it has no move to make (log 16). -/
def step (s : State) : Host.Outcome State Fault Refusal :=
  if s.busy then
    if s.hostMovesFirst then hostMove s.spendSlot else sequencerMove s
  else hostMove s

/-- HTB fetches nothing: a command reaches it only by the host's write of `CMD` (20_memory.md R50). This is that write
as accepted, the command outlasting no host move, so that the very next step executes it (log 10). -/
def State.withFetchWord (s : State) (nbits w : Nat) : State :=
  { s.accept (BitVec.ofNat 32 (w % 2 ^ nbits)) with hostSlots := 0 }

end Sys2Proof.Machine
end

