-- ==== Sys2Proof/Safety.lean ====
section
/-! DEFINITION. The terms in which claims are stated: the invariants of HTB's state, the shape of the arena, what a
command reports, and what a command leaves alone. -/

namespace Sys2Proof.Machine

/-! ### Invariants -/

/-- The written bytes of a space lie below its capacity (20_memory.md R37, R39, R44). -/
def Memory.below (m : Memory) (cap : Nat) : Prop := ∀ c ∈ m, c.1 < cap

/-- Every byte space is in canonical form and inside its capacity. -/
def State.SpacesWf (s : State) : Prop := ∀ S, (s.space S).wf ∧ (s.space S).below (s.capOf S)

/-- Every entry of a ROM fits it: at most `CODE_MAX = 255` tokens (10_state.md R30). -/
def RomFits (t : Table Code) : Prop := ∀ x, (t.entry x).length ≤ 255

/-- The sum of the 256 counters of a frequency table, as an exact number. -/
def freqTotal (t : Table Word) : Nat := (allSymbols.map (fun x => (t.entry x).toNat)).sum

/-- The number of symbols a frequency table counts. -/
def presentCount (t : Table Word) : Nat := (allSymbols.filter (fun x => t.entry x ≠ 0#32)).length

/-- Record `p` is internal and `i` is one of its two children. -/
def IsChildOf (nodes : List Node) (i p : Nat) : Prop :=
  ∃ f l r, nodes[p]? = some (.internal f l r) ∧ (l.toNat = i ∨ r.toNat = i)

/-- The arena of a tree with `n` leaves (42_build.md R77). -/
structure ArenaTree (nodes : List Node) (n : Nat) : Prop where
  /-- there is a leaf, and no more leaves than symbols -/
  leafCount : 1 ≤ n ∧ n ≤ 256
  /-- `NODE_CNT = 2n − 1` -/
  size : nodes.length = 2 * n - 1
  /-- records `0 .. n − 1` are leaves -/
  leaves : ∀ i, i < n → ∃ x f, nodes[i]? = some (.leaf x f)
  /-- with strictly ascending symbols -/
  ascending : ∀ (i j : Nat) (x y : Byte) (f g : Word), i < j → nodes[i]? = some (.leaf x f) → nodes[j]? = some (.leaf y g) → x.toNat < y.toNat
  /-- records `n .. 2n − 2` are internal, with two distinct children at lower indices -/
  internals : ∀ i, n ≤ i → i < 2 * n - 1 →
    ∃ f l r, nodes[i]? = some (.internal f l r) ∧ l.toNat < i ∧ r.toNat < i ∧ l ≠ r
  /-- every record other than the root is the child of exactly one internal record -/
  owned : ∀ i, i < 2 * n - 2 → ∃ p, IsChildOf nodes i p ∧ ∀ p', IsChildOf nodes i p' → p' = p

/-- The arena is empty without a root, or a tree whose root is the last record (10_state.md R29, 42_build.md R77). -/
def ArenaOk (nodes : List Node) (root : Option NodeIdx) : Prop :=
  (nodes = [] ∧ root = none) ∨ ∃ n, ArenaTree nodes n ∧ root = some (BitVec.ofNat 9 (2 * n - 2))

/-- The tables are as the commands leave them: no counter can wrap (41_sample.md R67), the arena is a tree, the ROM's
entries fit. -/
def State.TablesWf (s : State) : Prop :=
  freqTotal s.freq < 2 ^ 32 ∧ ArenaOk s.nodes s.root ∧ RomFits s.code

/-- What `STATUS` and `ERR_INFO` show between steps (10_state.md R21, R33; 60_exceptions.md R160). -/
def State.ReportWf (s : State) : Prop :=
  (s.busy = true → s.done = false ∧ s.outcome = .ok ∧ s.errInfo = 0#32) ∧
  (s.outcome = .ok ∨ s.outcome = .emptyInput ∨ s.outcome = .tableNotFound → s.errInfo = 0#32) ∧
  (s.outcome = .truncatedOutput → s.errInfo = s.decCount) ∧
  (s.outcome = .ioFailure → s.errInfo.toNat ≤ 3) ∧
  (s.outcome = .illegalCommand → ∀ i, s.errInfo ≠ encode i)

/-! ### The arena as a tree -/

/-- The record reached from record `i` along a path: token 0 to the left child, token 1 to the right (43_gen.md R86). -/
def recordAlong (nodes : List Node) (i : NodeIdx) : Code → Option Node
  | [] => nodes[i.toNat]?
  | b :: bs =>
    match nodes[i.toNat]? with
    | some (.internal _ l r) => recordAlong nodes (if b then r else l) bs
    | _ => none

/-- The indices the priority structure holds when record `i` is created: the earlier records that are no earlier record's
child (42_build.md R70). -/
def AvailableAt (nodes : List Node) (i j : Nat) : Prop := j < i ∧ ∀ p, p < i → ¬ IsChildOf nodes j p

/-! ### The artifacts -/

/-- The primary artifact of a non-empty buffer (30_encoding.md R57, R58). -/
def primaryArtifact (w h : Dim) (buffer : List Byte) (rom : Table Code) : List Byte :=
  header w h ++ buffer.flatMap (fun b => tokens (rom.entry b))

/-- The sidecar artifact of a ROM (30_encoding.md R59). -/
def sidecarArtifact (rom : Table Code) : List Byte :=
  (codedSymbols rom).flatMap (fun x => record x (rom.entry x))

/-- The ROM that `SAMPLE`, `BUILD`, `GEN` make of a buffer (46_macro.md R140). -/
def romOfBuffer (buffer : List Byte) : Table Code :=
  romOf (buildTree (countBytes buffer)).1 (buildTree (countBytes buffer)).2.head?

/-! ### What a command reports -/

/-- The machine is idle and reports an ending (60_exceptions.md R169). -/
def State.Reports (t : State) (e : Ending) : Prop :=
  t.outcome = e.code ∧ t.errInfo = e.info ∧ t.done = true ∧ t.busy = false

/-! ### What a command leaves alone -/

/-- Every byte of a space reads as before. -/
def SameBytes (s t : State) (S : Space) : Prop := ∀ a, t.memRead S a = s.memRead S a

/-- Every byte of a space at or above an offset reads as before. -/
def SameBytesFrom (s t : State) (S : Space) (n : Nat) : Prop := ∀ a, n ≤ a → t.memRead S a = s.memRead S a

/-- A space holds the bytes of an artifact from offset 0 and otherwise reads as before. -/
def HoldsArtifact (s t : State) (S : Space) (out : List Byte) : Prop :=
  (∀ a b, out[a]? = some b → t.memRead S a = b) ∧ SameBytesFrom s t S out.length

/-- What no command writes: the capacities, `WIDTH`, `HEIGHT`, `SRC_LEN`, `CTRL.IE`, `CMD_LATCH`, the bytes of `SRC`, and
the host's side. -/
def KeepsInputs (s t : State) : Prop :=
  t.caps = s.caps ∧ t.width = s.width ∧ t.height = s.height ∧ t.srcLen = s.srcLen ∧ t.ie = s.ie ∧
  t.cmdLatch = s.cmdLatch ∧ SameBytes s t .src ∧ t.script = s.script ∧ t.responses = s.responses ∧
  t.durations = s.durations ∧ t.hostSlots = s.hostSlots ∧ t.draws = s.draws ∧ t.resets = s.resets

/-- `FREQ` and the arena are as before. -/
def KeepsTree (s t : State) : Prop := t.freq = s.freq ∧ t.nodes = s.nodes ∧ t.root = s.root

/-- `FREQ` and the arena are empty. -/
def EmptyTree (t : State) : Prop := t.freq = emptyFreq ∧ t.nodes = [] ∧ t.root = none

/-- `DEC_COUNT` and `DEC_DROPPED` are as before. -/
def KeepsCounters (s t : State) : Prop := t.decCount = s.decCount ∧ t.decDropped = s.decDropped

/-- The artifact lengths are as before, space by space. -/
def KeepsLen (s t : State) (S : Space) : Prop := t.lenOf S = s.lenOf S

/-! ### Host operations -/

/-- An operation that neither touches a byte space nor resets: what a host may do while a command runs
(70_reset_and_hazards.md R181). -/
def HostOp.quiet : HostOp → Bool
  | .regRead off n => regAccessWellFormed off n
  | .regWrite off n _ => regAccessWellFormed off n
  | .waitIdle => true
  | .memRead _ _ _ | .memWrite _ _ _ _ | .hardwareReset => false

/-- The state of 70_reset_and_hazards.md R180, `resets` being the number of resets so far. -/
def IsResetState (t : State) : Prop :=
  t.statusWord = 0#32 ∧ t.busy = false ∧ t.ctrlWord = 0#32 ∧ t.irqO = false ∧
  t.width = 0#16 ∧ t.height = 0#16 ∧ t.expected = 0 ∧
  (∀ S, t.lenOf S = 0) ∧ t.decCount = 0#32 ∧ t.decDropped = 0#32 ∧ t.errInfo = 0#32 ∧
  (∀ x, t.freq.entry x = 0#32) ∧ t.nodeCnt = 0 ∧ t.root = none ∧ t.rootWord = 0#32 ∧
  (∀ x, t.code.entry x = []) ∧ symCount t.code = 0 ∧ maxLen t.code = 0 ∧
  t.regValue .id = 0x48544231#32 ∧
  (∀ S a, t.memRead S a = Config.unwrittenByte t.resets S a)

/-! ### The end of a run -/

/-- A run has ended: the host has no more statements and `BUSY = 0` (70_reset_and_hazards.md R188). -/
def State.runEnded (s : State) : Bool := s.script.isEmpty && !s.busy

/-- The observable result of a run: the registers of the map and the contents of the four spaces (R188).
DESIGN CHOICE (log 27): where the host left a length register above the capacity, the content is listed up to that length,
with the free value of U1 at the offsets from the capacity on, where R188 and R26 do not say what it is. -/
def State.observable (s : State) : List Word × List (List Byte) :=
  (allRegs.map s.regValue, [Space.src, .pri, .sdc, .dst].map s.content)

end Sys2Proof.Machine
end

