-- ==== Sys2Proof/Certificates/Slice0/Obligations.lean ====
section
/-! DEFINITION. The statements about HTB, for the provers. OBLIGATIONS.json lists them with the rules they rest on. -/

open Sys2Proof Sys2Proof.Machine

/-! ### The command word -/

/-- 30_encoding.md R54: each of the eleven words of the opcode map spells its command. -/
def Obligations.OpcodeMapWordsDecode : Prop :=
  decodeWord 0x00000000#32 = .ok .nop ∧ decodeWord 0x00000001#32 = .ok .clr ∧
  decodeWord 0x00000010#32 = .ok .sample ∧ decodeWord 0x00000011#32 = .ok .build ∧
  decodeWord 0x00000012#32 = .ok .gen ∧ decodeWord 0x00000013#32 = .ok .emit ∧
  decodeWord 0x00000014#32 = .ok .tsave ∧ decodeWord 0x00000020#32 = .ok .tload ∧
  decodeWord 0x00000021#32 = .ok .dec ∧ decodeWord 0x00000040#32 = .ok .encode ∧
  decodeWord 0x00000041#32 = .ok .decode

/-- 30_encoding.md R53 to R55, R62; 20_memory.md R45: a word spells a command exactly if it is that command's word, also
as four bytes least significant first; a word with a reserved bit set is rejected as that. -/
def Obligations.DecodeEncodeAgree : Prop :=
  (∀ w i, decodeWord w = .ok i ↔ w = encode i) ∧
  (∀ i, decodeBytes (bytesOfWord (encode i)) = .ok i ∧ decodeTableWord 32 (encode i).toNat = some i) ∧
  (∀ w, rsvField w ≠ 0#24 → decodeWord w = .error (.reservedBitsSet w)) ∧
  (∀ w, rsvField w = 0#24 → (∀ i, opcode i ≠ opField w) → decodeWord w = .error (.unknownOpcode (opField w))) ∧
  (∀ bs, bs.length ≠ 4 → decodeBytes bs = .error (.notOneWord bs.length))

/-! ### Steps, the host port, reset -/

/-- 10_state.md R21: with a command accepted and no host move before its completion (which host moves come before it is the
model's choice, log 2), the step is the execution of the word in `CMD_LATCH`. The second clause is about the model's own
helper `withFetchWord` (log 10, log 2: it accepts the word on any state, the command outlasting no host move) and is the
model's choice, no rule of the spec. -/
def Obligations.StepExecutesAcceptedCommand : Prop :=
  (∀ s i, s.busy = true → s.hostMovesFirst = false → decodeWord s.cmdLatch = .ok i → step s = exec i s) ∧
  (∀ (s : State) i, step (s.withFetchWord 32 (encode i).toNat) = exec i { s.accept (encode i) with hostSlots := 0 })

/-- 60_exceptions.md R167: a word that is not one of the eleven completes with `ILLEGAL_COMMAND`, the word in `ERR_INFO`,
and no other state change. That R167's "at once" is the first step that is no host move is the model's choice (log 2). -/
def Obligations.IllegalWordOnlyReports : Prop :=
  ∀ s, s.busy = true → s.hostMovesFirst = false → (∀ i, s.cmdLatch ≠ encode i) →
    step s = .next { s with outcome := .illegalCommand, errInfo := s.cmdLatch, done := true, busy := false }

/-- 10_state.md R21, R23 and 70_reset_and_hazards.md R181: the host's write of any word to `CMD` is the accept step while
`BUSY = 0` and has no effect while `BUSY = 1`; `CMD` reads as 0. What `durations` and `hostSlots` do is the model's choice
(log 2). -/
def Obligations.CmdWriteAcceptsOnlyWhenIdle : Prop :=
  ∀ s w rest, s.script = .regWrite 0x04 4 w :: rest →
    (s.busy = false → step s = .next { s with
      cmdLatch := w, busy := true, done := false, outcome := .ok, errInfo := 0#32, script := rest,
      hostSlots := s.durations.headD 0, durations := s.durations.tail }) ∧
    (s.busy = true → s.hostMovesFirst = true →
      step s = .next { s with script := rest, hostSlots := s.hostSlots - 1 }) ∧
    s.wordAt 0x04 = 0#32

/-- 10_state.md R24: the fields of `STATUS`, and write-one-to-clear of `DONE` while idle, as the step that performs the
host's write; the whole write is ignored while `BUSY = 1`. When the host moves is the model's choice (log 2). -/
def Obligations.StatusFieldsAndDoneClear : Prop :=
  ∀ s : State,
    s.statusWord.getLsbD 0 = s.busy ∧ s.statusWord.getLsbD 1 = s.done ∧ s.statusWord.getLsbD 2 = s.tblMalformed ∧
    s.statusWord.extractLsb' 3 5 = 0#5 ∧ s.statusWord.extractLsb' 8 4 = outcomeBits s.outcome ∧
    s.statusWord.extractLsb' 12 20 = 0#20 ∧
    (∀ v, s.busy = false → s.regWrite 0x08 v = if v.getLsbD 1 then { s with done := false } else s) ∧
    (∀ v, s.busy = true → s.regWrite 0x08 v = s) ∧
    (∀ v rest, s.script = .regWrite 0x08 4 v :: rest →
      (s.busy = false → v.getLsbD 1 = true → step s = .next { s with script := rest, done := false }) ∧
      (s.busy = false → v.getLsbD 1 = false → step s = .next { s with script := rest }) ∧
      (s.busy = true → s.hostMovesFirst = true → step s = .next { s with script := rest, hostSlots := s.hostSlots - 1 }))

/-- 10_state.md R22, R25, R26, R29, R31, R33 to R35, 20_memory.md R40: what each register of the map reads as. -/
def Obligations.RegisterMapReads : Prop :=
  ∀ s : State,
    s.wordAt 0x00 = 0x48544231#32 ∧ s.wordAt 0x04 = 0#32 ∧ s.wordAt 0x08 = s.statusWord ∧
    (s.wordAt 0x0C).toNat = s.ie.toNat ∧
    (s.wordAt 0x10).toNat = s.width.toNat ∧ (s.wordAt 0x14).toNat = s.height.toNat ∧
    s.wordAt 0x18 = s.srcLen ∧ s.wordAt 0x1C = s.priLen ∧ s.wordAt 0x20 = s.sdcLen ∧ s.wordAt 0x24 = s.dstLen ∧
    (s.wordAt 0x28).toNat = s.width.toNat * s.height.toNat ∧
    (s.wordAt 0x2C).toNat = symCount s.code ∧
    (s.TablesWf → (s.wordAt 0x30).toNat = maxLen s.code ∧ (s.wordAt 0x34).toNat = s.nodeCnt ∧
      (s.wordAt 0x30).toNat ≤ 255 ∧ (s.wordAt 0x34).toNat ≤ 511) ∧
    (s.root = none → s.wordAt 0x38 = 0#32) ∧
    (∀ i, s.root = some i → (s.wordAt 0x38).toNat = 2 ^ 31 + i.toNat) ∧
    s.wordAt 0x3C = s.decCount ∧ s.wordAt 0x40 = s.decDropped ∧ s.wordAt 0x44 = s.errInfo ∧
    s.wordAt 0x48 = s.caps.src ∧ s.wordAt 0x4C = s.caps.pri ∧ s.wordAt 0x50 = s.caps.sdc ∧ s.wordAt 0x54 = s.caps.dst ∧
    (∀ off, 0x58 ≤ off → s.wordAt off = 0#32)

/-- 10_state.md R31, R32: `SYM_COUNT` counts the entries, `MAX_LEN` is the largest length, 0 for the empty table; the
inverse lookup is the smallest symbol with the code. -/
def Obligations.RomViewsAndLookup : Prop :=
  ∀ t : Table Code,
    symCount t = (allSymbols.filter (fun x => t.entry x ≠ [])).length ∧ symCount t ≤ 256 ∧
    (symCount t = 0 ↔ ∀ x, t.entry x = []) ∧
    (∀ x, (t.entry x).length ≤ maxLen t) ∧ (∃ x, (t.entry x).length = maxLen t) ∧
    ((∀ x, t.entry x = []) → maxLen t = 0) ∧
    ∀ q : Code, q ≠ [] →
      (∀ x, lookup t q = some x ↔ t.entry x = q ∧ ∀ y, t.entry y = q → x.toNat ≤ y.toNat) ∧
      (lookup t q = none ↔ ∀ y, t.entry y ≠ q)

/-- 20_memory.md R40, 70_reset_and_hazards.md R181: an admitted register read hands the host a value and changes nothing
of HTB; while `BUSY = 1` the value is that of the map for the stable registers and for the reserved offsets (0: 10_state.md
R35, 93_implementation_defined.md U2) and unspecified otherwise. When the host moves is the model's choice (log 2). -/
def Obligations.RegReadHasNoSideEffect : Prop :=
  ∀ s off rest, s.script = .regRead off 4 :: rest → off % 4 = 0 → off < 0x100 →
    (s.busy = false → step s = .next { s with script := rest, responses := .word (s.wordAt off) :: s.responses }) ∧
    (s.busy = true → s.hostMovesFirst = true →
      (off ∈ [0x00, 0x08, 0x0C, 0x10, 0x14, 0x28, 0x48, 0x4C, 0x50, 0x54] ∨ 0x58 ≤ off →
        step s = .next { s with
          script := rest, hostSlots := s.hostSlots - 1, responses := .word (s.wordAt off) :: s.responses }) ∧
      (∃ v n, step s = .next { s with
          script := rest, hostSlots := s.hostSlots - 1, responses := .word v :: s.responses, draws := n }))

/-- 10_state.md R20, R23 to R26, R34, R35, 20_memory.md R41: the write effect of every offset of the register block but
`CMD` and `STATUS`, while idle, and that no write has an effect while `BUSY = 1`; and that a step performs this effect for
the admitted register write at the head of the host's script. When the host moves is the model's choice (log 2). -/
def Obligations.RegWriteEffects : Prop :=
  ∀ (s : State) (v : Word),
    (s.busy = false →
      s.regWrite 0x0C v = { s with ie := v.getLsbD 0 } ∧
      s.regWrite 0x10 v = { s with width := v.extractLsb' 0 16 } ∧
      s.regWrite 0x14 v = { s with height := v.extractLsb' 0 16 } ∧
      s.regWrite 0x18 v = { s with srcLen := v } ∧ s.regWrite 0x1C v = { s with priLen := v } ∧
      s.regWrite 0x20 v = { s with sdcLen := v }) ∧
    (∀ off, off = 0 ∨ 0x24 ≤ off → s.regWrite off v = s) ∧
    (s.busy = true → ∀ off, s.regWrite off v = s) ∧
    (∀ off rest, s.script = .regWrite off 4 v :: rest → off % 4 = 0 → off < 0x100 →
      (s.busy = false → step s = .next ({ s with script := rest }.regWrite off v)) ∧
      (s.busy = true → s.hostMovesFirst = true → step s = .next { s with script := rest, hostSlots := s.hostSlots - 1 }))

/-- 20_memory.md R37, R42, R43: a space access by the host while idle and below the capacity: a write sets the one byte and
nothing else, a read returns the byte without side effect. -/
def Obligations.HostSpaceAccesses : Prop :=
  (∀ s S a v rest, s.script = .memWrite S a 1 v :: rest → s.busy = false → a < s.capOf S →
    ∃ t, step s = .next t ∧ t.memRead S a = v ∧
      (∀ S' b, ¬ (S' = S ∧ b = a) → t.memRead S' b = s.memRead S' b) ∧
      ∃ m, t = { s.setSpace S m with script := rest }) ∧
  (∀ s S a rest, s.script = .memRead S a 1 :: rest → s.busy = false → a < s.capOf S →
    step s = .next { s with script := rest, responses := .byte (s.memRead S a) :: s.responses })

/-- 20_memory.md R44: the accesses that are not admitted are refused: a space access while `BUSY = 1`, at or above the
capacity or wider than a byte, and a register access that is not an aligned 32-bit access inside the block. When the host
moves while a command runs is the model's choice (log 2). -/
def Obligations.NotAdmittedAccessesRefused : Prop :=
  ∀ s op rest, s.script = op :: rest → (s.busy = true → s.hostMovesFirst = true) →
    (∀ S a n v, (op = .memRead S a n ∨ op = .memWrite S a n v) →
      (n ≠ 1 → step s = .refused (.accessNotAdmitted op)) ∧
      (n = 1 → s.busy = true → step s = .refused (.spaceAccessWhileBusy op)) ∧
      (n = 1 → s.busy = false → s.capOf S ≤ a → step s = .refused (.accessNotAdmitted op))) ∧
    (∀ off n v, (op = .regRead off n ∨ op = .regWrite off n v) → (n ≠ 4 ∨ off % 4 ≠ 0 ∨ 0x100 ≤ off) →
      step s = .refused (.accessNotAdmitted op))

/-- 20_memory.md R47, R52: while a command runs, no host move other than a reset changes anything a command reads or
writes, so the command's effect is that of the state at acceptance. When the host moves is the model's choice (log 2). -/
def Obligations.HostMovesDoNotDisturbCommand : Prop :=
  ∀ s t, s.busy = true → s.hostMovesFirst = true → (∀ rest, s.script ≠ .hardwareReset :: rest) → step s = .next t →
    t = { s with script := t.script, responses := t.responses, hostSlots := s.hostSlots - 1, draws := t.draws } ∧
    (∀ i, (∃ u, exec i s = .next u ∧
      exec i t = .next { u with
        script := t.script, responses := t.responses, hostSlots := t.hostSlots, draws := t.draws }))

/-- 70_reset_and_hazards.md R186: every accepted command completes. Here within the host moves the model lets it outlast
(log 2), for a host that meanwhile neither touches a byte space nor resets (R181). -/
def Obligations.AcceptedCommandCompletes : Prop :=
  ∀ s : State, s.busy = true → (∀ op ∈ s.script, op.quiet = true) →
    ∃ (k : Nat) (t : State), k ≤ s.hostSlots + 1 ∧ Sys2Proof.core.run k s = .next t ∧ t.busy = false ∧ t.done = true

/-- 60_exceptions.md R171: `irq_o` is `DONE` and `IE`; it is raised by the completion of any command, an illegal word
included, if `IE` is set, and lowered by the next acceptance and by writing 1 to `STATUS[1]` while idle. -/
def Obligations.IrqIsDoneAndEnabled : Prop :=
  (∀ s : State, s.irqO = (s.done && s.ie)) ∧ (∀ s : State, s.ie = false → s.irqO = false) ∧
  (∀ i s t, exec i s = .next t → t.irqO = s.ie) ∧
  (∀ s : State, s.busy = true → s.hostMovesFirst = false → ∃ t, step s = .next t ∧ t.irqO = s.ie) ∧
  (∀ (s : State) w rest, s.busy = false → s.script = .regWrite 0x04 4 w :: rest →
    ∃ t, step s = .next t ∧ t.irqO = false) ∧
  (∀ (s : State) (v : Word) rest, s.busy = false → s.script = .regWrite 0x08 4 v :: rest → v.getLsbD 1 = true →
    ∃ t, step s = .next t ∧ t.irqO = false)

/-- 70_reset_and_hazards.md R180: the state after reset, for `State.reset` and for a reset at any moment, also while a
command executes; every byte of every space is then unspecified anew. That what belongs to the host (its script, the
values it has read, its input of durations) goes on is the model's choice (log 18). -/
def Obligations.HardwareResetState : Prop :=
  IsResetState State.reset ∧
  ∀ s rest, s.script = .hardwareReset :: rest → (s.busy = true → s.hostMovesFirst = true) →
    ∃ t, step s = .next t ∧ IsResetState t ∧ t.resets = s.resets + 1 ∧ t.caps = s.caps ∧ t.script = rest

/-! ### NOP, CLR -/

/-- 47_housekeeping.md R152, R153: `NOP` reports `OK` and changes nothing else. `CLR` reports `OK`, empties the tables, the
decode counters and `TBL_MALFORMED`, and touches no length, no byte of a space and no other register. -/
def Obligations.NopAndClr : Prop :=
  (decodeWord 0x00000000#32 = .ok .nop ∧
    ∀ s, exec .nop s = .next { s with outcome := .ok, errInfo := 0#32, done := true, busy := false }) ∧
  (decodeWord 0x00000001#32 = .ok .clr ∧
    ∀ s, ∃ t, exec .clr s = .next t ∧ t.Reports okEnding ∧
      (∀ x, t.freq.entry x = 0#32) ∧ t.nodes = [] ∧ t.root = none ∧ (∀ x, t.code.entry x = []) ∧
      t.decCount = 0#32 ∧ t.decDropped = 0#32 ∧ t.tblMalformed = false ∧
      symCount t.code = 0 ∧ maxLen t.code = 0 ∧ t.nodeCnt = 0 ∧ t.rootWord = 0#32 ∧
      KeepsInputs s t ∧ (∀ S, KeepsLen s t S) ∧ (∀ S, SameBytes s t S))

/-! ### SAMPLE -/

/-- 41_sample.md R65, R66: `SAMPLE` counts the buffer: `FREQ[x]` is the number of offsets holding `x`, the sum of the
entries is `SRC_LEN`, the non-zero entries are the distinct byte values; with `SRC_LEN` above the capacity it ends with
`IO_FAILURE(0)` and leaves `FREQ` as it was. -/
def Obligations.SampleCountsBuffer : Prop :=
  ∀ s, (s.lenOf .src ≤ s.capOf .src →
      ∃ t, exec .sample s = .next t ∧ t.Reports okEnding ∧
        (∀ x, (t.freq.entry x).toNat = (s.content .src).count x) ∧
        freqTotal t.freq = s.lenOf .src ∧ presentCount t.freq = (s.content .src).dedup.length) ∧
    (s.capOf .src < s.lenOf .src →
      ∃ t, exec .sample s = .next t ∧ t.Reports (ioFailureEnding .src) ∧ t.freq = s.freq)

/-! ### BUILD -/

/-- 42_build.md R74: ≺ compares the frequency, then the arena index; it is a strict total order on indices; and
`extract_min` removes the ≺-least index. -/
def Obligations.ExtractMinTakesLeast : Prop :=
  ∀ nodes : List Node,
    (∀ i j, precedes nodes i j = true ↔
      (freqOfIdx nodes i).toNat < (freqOfIdx nodes j).toNat ∨
      (freqOfIdx nodes i = freqOfIdx nodes j ∧ i.toNat < j.toNat)) ∧
    (∀ i, precedes nodes i i = false) ∧
    (∀ i j k, precedes nodes i j = true → precedes nodes j k = true → precedes nodes i k = true) ∧
    (∀ i j, i ≠ j → precedes nodes i j = true ∨ precedes nodes j i = true) ∧
    extractMin nodes [] = none ∧
    (∀ q, q ≠ [] → ∃ a, extractMin nodes q = some (a, q.erase a) ∧ a ∈ q ∧
      ∀ j ∈ q, j ≠ a → precedes nodes a j = true)

/-- 42_build.md R75: the sequence of extractions, hence the arena, does not depend on how the priority structure is laid
out. -/
def Obligations.MergeIndependentOfQueueLayout : Prop :=
  ∀ fuel nodes q1 q2, q1.Perm q2 →
    (mergeLoop fuel nodes q1).1 = (mergeLoop fuel nodes q2).1 ∧
    ((mergeLoop fuel nodes q1).2).Perm (mergeLoop fuel nodes q2).2

/-- 42_build.md R70, R71, R76, R77: on the empty table `BUILD` leaves the empty arena with `EMPTY_INPUT`; with `n ≥ 1`
present symbols it leaves the tree of `2n − 1` records, leaves first in ascending symbol order with their counts, the
root last, with `OK`. -/
def Obligations.BuildMakesTree : Prop :=
  ∀ s, ∃ t, exec .build s = .next t ∧
    (presentCount s.freq = 0 → t.Reports emptyInputEnding ∧ t.nodes = [] ∧ t.root = none) ∧
    (1 ≤ presentCount s.freq →
      t.Reports okEnding ∧ ArenaTree t.nodes (presentCount s.freq) ∧
      t.root = some (BitVec.ofNat 9 (2 * presentCount s.freq - 2)) ∧
      ∀ (x : Byte) (f : Word), (∃ i : Nat, t.nodes[i]? = some (.leaf x f)) ↔ (f = s.freq.entry x ∧ f ≠ 0#32))

/-- 42_build.md R70, R72 to R74: every merge takes the two ≺-least of the nodes then available, the least on the left. -/
def Obligations.BuildMergesTwoLeast : Prop :=
  ∀ s t, exec .build s = .next t → ∀ (i : Nat) (f : Word) (l r : NodeIdx), t.nodes[i]? = some (.internal f l r) →
    AvailableAt t.nodes i l.toNat ∧ AvailableAt t.nodes i r.toNat ∧ precedes t.nodes l r = true ∧
    (∀ j : NodeIdx, AvailableAt t.nodes i j.toNat → j ≠ l → j ≠ r → precedes t.nodes r j = true)

/-- 42_build.md R78: no addition of `BUILD` wraps; an internal record's frequency is the exact sum of its children's and
the root's is the sum of the table. (For tables whose sum is below 2^32, which every step keeps: `TablesWf`.) -/
def Obligations.BuildFrequenciesAreSums : Prop :=
  ∀ s t, freqTotal s.freq < 2 ^ 32 → exec .build s = .next t →
    (∀ (i : Nat) (f : Word) (l r : NodeIdx), t.nodes[i]? = some (.internal f l r) →
      f.toNat = (freqOfIdx t.nodes l).toNat + (freqOfIdx t.nodes r).toNat) ∧
    (∀ r, t.root = some r → (freqOfIdx t.nodes r).toNat = freqTotal s.freq)

/-! ### GEN -/

/-- 43_gen.md R85, R87, R88: `GEN` always ends `OK`; the empty tree gives the empty ROM; a single leaf gets the one-token
code `0` and is the only entry. -/
def Obligations.GenEdgeCases : Prop :=
  ∀ s, ∃ t, exec .gen s = .next t ∧ t.Reports okEnding ∧
    (s.root = none → (∀ x, t.code.entry x = []) ∧ symCount t.code = 0 ∧ maxLen t.code = 0) ∧
    (∀ (r : NodeIdx) (x : Byte) (f : Word), s.root = some r → s.nodes[r.toNat]? = some (.leaf x f) →
      t.code.entry x = [false] ∧ ∀ y, y ≠ x → t.code.entry y = [])

/-- 43_gen.md R85, R86, R90: for a tree of at least two leaves, the ROM entry of a symbol is exactly the path from the
root to its leaf, so its length is the leaf's depth. -/
def Obligations.GenCodesArePaths : Prop :=
  ∀ s n, ArenaTree s.nodes n → 2 ≤ n → s.root = some (BitVec.ofNat 9 (2 * n - 2)) →
    ∃ t, exec .gen s = .next t ∧
      ∀ x q, (t.code.entry x = q ∧ q ≠ []) ↔
        ∃ f, recordAlong s.nodes (BitVec.ofNat 9 (2 * n - 2)) q = some (.leaf x f)

/-- 43_gen.md R89: after `BUILD` then `GEN`, no code is a prefix of another symbol's. -/
def Obligations.BuildGenPrefixFree : Prop :=
  ∀ s t u, exec .build s = .next t → exec .gen t = .next u →
    ∀ x y, x ≠ y → u.code.entry x ≠ [] → u.code.entry y ≠ [] → ¬ (u.code.entry x <+: u.code.entry y)

/-- 43_gen.md R92: after `BUILD` then `GEN` the lookup is the exact inverse of the ROM. -/
def Obligations.BuildGenBijection : Prop :=
  ∀ s t u, exec .build s = .next t → exec .gen t = .next u →
    (∀ x, u.code.entry x ≠ [] → lookup u.code (u.code.entry x) = some x) ∧
    (∀ q, (∀ x, u.code.entry x ≠ q) → lookup u.code q = none)

/-- 43_gen.md R91: after `BUILD` then `GEN` on `n ≥ 2` present symbols, exactly these have an entry, `SYM_COUNT = n`, and
every code has between 1 and `n − 1 ≤ 255` tokens. -/
def Obligations.BuildGenCodeBounds : Prop :=
  ∀ s t u, exec .build s = .next t → exec .gen t = .next u →
    (∀ x, u.code.entry x ≠ [] ↔ s.freq.entry x ≠ 0#32) ∧ symCount u.code = presentCount s.freq ∧
    (2 ≤ presentCount s.freq → ∀ x, (u.code.entry x).length ≤ presentCount s.freq - 1) ∧ RomFits u.code

/-! ### EMIT -/

/-- 30_encoding.md R57, 44_codec.md R101: the decimal spelling is 1 to 5 digits with the value and no leading zero but for
the single digit `0`; the header is the width, one space, the height, one newline, 4 to 12 bytes, begins with a digit and
has its only newline at its end. -/
def Obligations.HeaderSpelling : Prop :=
  (∀ v : Dim, (dec v).all isDigit = true ∧ 1 ≤ (dec v).length ∧ (dec v).length ≤ 5 ∧
    (dec v).foldl (fun n c => 10 * n + digitVal c) 0 = v.toNat ∧
    ((dec v).head? = some 0x30#8 → dec v = [0x30#8])) ∧
  (∀ w h : Dim, header w h = dec w ++ [0x20#8] ++ dec h ++ [0x0A#8] ∧ 4 ≤ (header w h).length ∧ (header w h).length ≤ 12 ∧
    (∃ c, (header w h).head? = some c ∧ isDigit c = true) ∧
    ∃ pre, header w h = pre ++ [0x0A#8] ∧ 0x0A#8 ∉ pre)

/-- 44_codec.md R100, R102, R103, 30_encoding.md R57, R58: when the buffer is not empty, every byte of it has an entry
and the artifact fits, `EMIT` ends `OK` with `PRI` = header and one token byte per code bit; `PRI_LEN` is its size. -/
def Obligations.EmitWritesArtifact : Prop :=
  ∀ s, 1 ≤ s.lenOf .src → s.lenOf .src ≤ s.capOf .src →
    (∀ b ∈ s.content .src, s.code.entry b ≠ []) →
    (primaryArtifact s.width s.height (s.content .src) s.code).length ≤ s.capOf .pri →
    ∃ t, exec .emit s = .next t ∧ t.Reports okEnding ∧
      HoldsArtifact s t .pri (primaryArtifact s.width s.height (s.content .src) s.code) ∧
      t.lenOf .pri = (primaryArtifact s.width s.height (s.content .src) s.code).length

/-- 44_codec.md R100, R104, R106, 60_exceptions.md R168: how `EMIT` ends otherwise, in the order of its checks: a length
above the capacity; the empty buffer (benign); a header that does not fit; then, at the first offset where either holds,
a byte without an entry or an overflow, the former first. -/
def Obligations.EmitFirstErrorWins : Prop :=
  ∀ s, ∃ t, exec .emit s = .next t ∧
    (s.capOf .src < s.lenOf .src → t.Reports (ioFailureEnding .src)) ∧
    (s.lenOf .src ≤ s.capOf .src → s.lenOf .src = 0 → t.Reports emptyInputEnding ∧ t.lenOf .pri = 0) ∧
    (1 ≤ s.lenOf .src → s.lenOf .src ≤ s.capOf .src →
      (s.capOf .pri < (header s.width s.height).length → t.Reports (ioFailureEnding .pri)) ∧
      (∀ k b, (s.content .src)[k]? = some b →
        (∀ c ∈ (s.content .src).take k, s.code.entry c ≠ []) →
        (primaryArtifact s.width s.height ((s.content .src).take k) s.code).length ≤ s.capOf .pri →
        (s.code.entry b = [] → t.Reports (unknownSymbolEnding k)) ∧
        (s.code.entry b ≠ [] →
          s.capOf .pri < (primaryArtifact s.width s.height ((s.content .src).take (k + 1)) s.code).length →
          t.Reports (ioFailureEnding .pri)))) ∧
    (t.outcome ≠ .ok → t.lenOf .pri = 0 ∧ ∀ S, SameBytes s t S)

/-- 44_codec.md R107: the size of the artifact; with a ROM made from the same buffer the payload is the frequency-weighted
sum of the code lengths and at least `SRC_LEN`. -/
def Obligations.EmitArtifactSize : Prop :=
  (∀ s t, exec .emit s = .next t → t.outcome = .ok →
    t.lenOf .pri = (dec s.width).length + 1 + (dec s.height).length + 1 +
      ((s.content .src).map (fun b => (s.code.entry b).length)).sum) ∧
  (∀ s s1 s2 s3 t, exec .sample s = .next s1 → exec .build s1 = .next s2 → exec .gen s2 = .next s3 →
    exec .emit s3 = .next t → t.outcome = .ok →
    ((s3.content .src).map (fun b => (s3.code.entry b).length)).sum =
      (allSymbols.map (fun x => (s1.freq.entry x).toNat * (s3.code.entry x).length)).sum ∧
    s.lenOf .src ≤ ((s3.content .src).map (fun b => (s3.code.entry b).length)).sum)

/-! ### DEC -/

/-- 44_codec.md R109, R118: where decoding starts. -/
def Obligations.DecodeStartsAfterHeader : Prop :=
  (∀ w h payload, decodeStart (header w h ++ payload) = (header w h).length) ∧
  decodeStart [] = 0 ∧
  (∀ c cs, isDigit c = false → decodeStart (c :: cs) = 0) ∧
  (∀ c cs, isDigit c = true → 0x0A#8 ∉ cs → decodeStart (c :: cs) = (c :: cs).length) ∧
  (∀ c pre post, isDigit c = true → 0x0A#8 ∉ pre →
    decodeStart (c :: pre ++ [0x0A#8] ++ post) = (c :: pre).length + 1)

/-- 44_codec.md R110 to R113: the greedy decoder, segment by segment. After a payload prefix that is a ROM code none of
whose shorter prefixes is one, the looked-up symbol is emitted and decoding continues from an empty candidate; if no prefix
of the next `MAX_LEN + 1` bytes matches, exactly these are discarded; a shorter leftover is dropped at the end; a candidate
with a byte that is no token never matches. -/
def Obligations.DecoderSegments : Prop :=
  ∀ t : Table Code,
    (∀ q x rest, lookup t q = some x → (∀ k, k < q.length → lookup t (q.take k) = none) →
      decodePayload t (tokens q ++ rest) =
        ⟨x :: (decodePayload t rest).out, [], (decodePayload t rest).dropped⟩) ∧
    (∀ span rest, span.length = maxLen t + 1 → (∀ k, k ≤ span.length → matchCand t (span.take k) = none) →
      decodePayload t (span ++ rest) =
        ⟨(decodePayload t rest).out, [], (decodePayload t rest).dropped + (maxLen t + 1)⟩) ∧
    (∀ span, span.length ≤ maxLen t → (∀ k, k ≤ span.length → matchCand t (span.take k) = none) →
      decodePayload t span = ⟨[], [], span.length⟩) ∧
    (∀ cand c, c ∈ cand → c ≠ 0x30#8 → c ≠ 0x31#8 → matchCand t cand = none)

/-- 44_codec.md R116: every payload byte belongs to an emitted symbol's code or is counted as dropped; none is dropped
exactly if the payload is the concatenation of the codes of the decoded symbols. -/
def Obligations.DecoderAccountsForEveryByte : Prop :=
  ∀ (t : Table Code) (payload : List Byte),
    ((decodePayload t payload).out.map (fun x => (t.entry x).length)).sum + (decodePayload t payload).dropped =
      payload.length ∧
    ((decodePayload t payload).dropped = 0 ↔
      payload = (decodePayload t payload).out.flatMap (fun x => tokens (t.entry x)))

/-- 44_codec.md R108, R112, R114, R115, 60_exceptions.md R168: how `DEC` ends, its counters, and what it writes. -/
def Obligations.DecEndings : Prop :=
  ∀ s, ∃ t, exec .dec s = .next t ∧
    (s.capOf .pri < s.lenOf .pri → t.Reports (ioFailureEnding .pri) ∧ t.decCount = 0#32 ∧ t.decDropped = 0#32) ∧
    (s.lenOf .pri ≤ s.capOf .pri →
      ∃ acc, acc = decodePayload s.code ((s.content .pri).drop (decodeStart (s.content .pri))) ∧
      t.decCount.toNat = acc.out.length ∧ t.decDropped.toNat = acc.dropped ∧
      (s.capOf .dst < acc.out.length → t.Reports (ioFailureEnding .dst)) ∧
      (acc.out.length ≤ s.capOf .dst → acc.out.length < s.width.toNat * s.height.toNat →
        t.Reports (truncatedEnding acc.out.length) ∧ t.errInfo = t.decCount) ∧
      (acc.out.length ≤ s.capOf .dst → s.width.toNat * s.height.toNat ≤ acc.out.length →
        t.Reports okEnding ∧ HoldsArtifact s t .dst acc.out ∧ t.lenOf .dst = acc.out.length)) ∧
    (t.outcome ≠ .ok → t.lenOf .dst = 0 ∧ SameBytes s t .dst)

/-- 44_codec.md R117: the round trip. After `SAMPLE`, `BUILD`, `GEN`, `EMIT` on a non-empty buffer with outcome `OK`, a
`DEC` with the same ROM and the same primary artifact decodes exactly the buffer with nothing dropped: `OK` with the buffer
in `DST` if `EXPECTED` is at most its length, `TRUNCATED_OUTPUT` otherwise. -/
def Obligations.EmitThenDecRoundTrip : Prop :=
  ∀ s s1 s2 s3 s4 u t, exec .sample s = .next s1 → exec .build s1 = .next s2 → exec .gen s2 = .next s3 →
    exec .emit s3 = .next s4 → s4.outcome = .ok →
    u.code = s4.code → u.content .pri = s4.content .pri → u.capOf .pri = s4.capOf .pri →
    s.lenOf .src ≤ u.capOf .dst → exec .dec u = .next t →
    t.decCount.toNat = s.lenOf .src ∧ t.decDropped = 0#32 ∧
    decodeStart (u.content .pri) = (header s.width s.height).length ∧
    (u.expected ≤ s.lenOf .src → t.Reports okEnding ∧ t.content .dst = s.content .src) ∧
    (s.lenOf .src < u.expected → t.outcome = .truncatedOutput ∧ t.lenOf .dst = 0)

/-! ### TSAVE, TLOAD -/

/-- 45_table_io.md R121 to R126, 30_encoding.md R59: `TSAVE` writes one record per entry in ascending symbol order if they
fit, else ends with `IO_FAILURE(2)`; the size is the sum of `5 + len` over the entries, at most 66560 for a ROM whose
entries fit (which every step keeps: `TablesWf`), so with that capacity it never fails. -/
def Obligations.TsaveWritesRecords : Prop :=
  ∀ s, ∃ t, exec .tsave s = .next t ∧
    ((sidecarArtifact s.code).length ≤ s.capOf .sdc →
      t.Reports okEnding ∧
      HoldsArtifact s t .sdc (sidecarArtifact s.code) ∧
      t.lenOf .sdc = ((codedSymbols s.code).map (fun x => 5 + (s.code.entry x).length)).sum) ∧
    (s.capOf .sdc < (sidecarArtifact s.code).length →
      t.Reports (ioFailureEnding .sdc) ∧ t.lenOf .sdc = 0 ∧ SameBytes s t .sdc) ∧
    (symCount s.code = 0 → t.Reports okEnding ∧ t.lenOf .sdc = 0) ∧
    (RomFits s.code → 66560 ≤ s.capOf .sdc → t.Reports okEnding ∧ t.lenOf .sdc ≤ 66560)

/-- 45_table_io.md R128: the lines of a sidecar: no line holds a newline, and the lines with their newlines put back are
the data, the last newline missing if and only if the data does not end with one. -/
def Obligations.LinesSplitAtNewlines : Prop :=
  ∀ data : List Byte,
    (∀ line ∈ linesOf data, 0x0A#8 ∉ line) ∧
    ((data = [] ∨ data.getLast? = some 0x0A#8) → (linesOf data).flatMap (fun l => l ++ [0x0A#8]) = data) ∧
    (data ≠ [] → data.getLast? ≠ some 0x0A#8 →
      (linesOf data).flatMap (fun l => l ++ [0x0A#8]) = data ++ [0x0A#8] ∧
      ∃ last, (linesOf data).getLast? = some last ∧ last ≠ [])

/-- 45_table_io.md R129: when a line is well formed, and the symbol and code it then gives. -/
def Obligations.WellFormedLines : Prop :=
  ∀ (line : List Byte) (x : Byte) (q : Code), parseLine line = some (x, q) ↔
    ∃ d0 d1 d2 toks, line = d0 :: d1 :: d2 :: 0x20#8 :: toks ∧
      5 ≤ line.length ∧ line.length ≤ 259 ∧
      (0x30 ≤ d0.toNat ∧ d0.toNat ≤ 0x39) ∧ (0x30 ≤ d1.toNat ∧ d1.toNat ≤ 0x39) ∧
      (0x30 ≤ d2.toNat ∧ d2.toNat ≤ 0x39) ∧
      x.toNat = 100 * (d0.toNat - 0x30) + 10 * (d1.toNat - 0x30) + (d2.toNat - 0x30) ∧
      toks = tokens q

/-- 45_table_io.md R127, R130 to R132: after `TLOAD` each symbol's entry is the code of its last well-formed line and
there is none without one; `TBL_MALFORMED` says whether some line is malformed; no entry at all is `TABLE_NOT_FOUND`; a
length above the capacity is `IO_FAILURE(2)` with an empty ROM. -/
def Obligations.TloadRecoversLines : Prop :=
  ∀ s, ∃ t, exec .tload s = .next t ∧
    (s.capOf .sdc < s.lenOf .sdc →
      t.Reports (ioFailureEnding .sdc) ∧ (∀ x, t.code.entry x = []) ∧ t.tblMalformed = false) ∧
    (s.lenOf .sdc ≤ s.capOf .sdc →
      (∀ x, t.code.entry x = ((((linesOf (s.content .sdc)).filterMap parseLine).filter
        (fun p => p.1 == x)).getLast?.elim [] Prod.snd)) ∧
      (t.tblMalformed = true ↔ ∃ line ∈ linesOf (s.content .sdc), parseLine line = none) ∧
      (symCount t.code = 0 → t.Reports tableNotFoundEnding) ∧
      (symCount t.code ≠ 0 → t.Reports okEnding))

/-- 45_table_io.md R133: the persistence round trip: `TSAVE` then `TLOAD` restores the ROM exactly, for every byte value
used as a symbol; the empty ROM comes back empty with `TABLE_NOT_FOUND`. -/
def Obligations.SaveThenLoadRestoresRom : Prop :=
  ∀ s t u, RomFits s.code → exec .tsave s = .next t → t.outcome = .ok →
    u.content .sdc = t.content .sdc → u.capOf .sdc = t.capOf .sdc →
    ∃ v, exec .tload u = .next v ∧ v.code = s.code ∧ v.tblMalformed = false ∧
      (symCount s.code ≠ 0 → v.Reports okEnding) ∧ (symCount s.code = 0 → v.Reports tableNotFoundEnding)

/-! ### ENCODE, DECODE -/

/-- 46_macro.md R140 to R143: how `ENCODE` ends. `UNKNOWN_SYMBOL` cannot occur; every ending leaves `FREQ` and the arena
empty and the counters 0; an ending other than `OK` leaves both lengths 0; the ROM is empty after the two early
endings. That `FREQ` and the arena are emptied after an error too is R142, R143 and R166 against R140's pseudocode
(log 11). -/
def Obligations.EncodeEndings : Prop :=
  ∀ s, ∃ t, exec .encode s = .next t ∧ EmptyTree t ∧
    t.decCount = 0#32 ∧ t.decDropped = 0#32 ∧ t.tblMalformed = false ∧
    (t.Reports okEnding ∨ t.Reports emptyInputEnding ∨ t.Reports (ioFailureEnding .src) ∨
      t.Reports (ioFailureEnding .pri) ∨ t.Reports (ioFailureEnding .sdc)) ∧
    (t.outcome ≠ .ok → t.lenOf .pri = 0 ∧ t.lenOf .sdc = 0 ∧ ∀ S, SameBytes s t S) ∧
    (t.Reports (ioFailureEnding .src) ↔ s.capOf .src < s.lenOf .src) ∧
    (t.Reports emptyInputEnding ↔ s.lenOf .src = 0) ∧
    (s.capOf .src < s.lenOf .src ∨ s.lenOf .src = 0 → symCount t.code = 0)

/-- 46_macro.md R140, R142: the artifacts of `ENCODE`: with the tables that `SAMPLE`, `BUILD`, `GEN` make of the buffer, if
both artifacts fit, `ENCODE` ends `OK` and both spaces hold them; if one does not, it ends with `IO_FAILURE`, writes no
byte of any space and leaves both lengths 0. -/
def Obligations.EncodeWritesBothArtifacts : Prop :=
  ∀ s, 1 ≤ s.lenOf .src → s.lenOf .src ≤ s.capOf .src →
    ∃ t, exec .encode s = .next t ∧ t.code = romOfBuffer (s.content .src) ∧
      ((primaryArtifact s.width s.height (s.content .src) t.code).length ≤ s.capOf .pri →
        (sidecarArtifact t.code).length ≤ s.capOf .sdc →
        t.Reports okEnding ∧
        HoldsArtifact s t .pri (primaryArtifact s.width s.height (s.content .src) t.code) ∧
        t.lenOf .pri = (primaryArtifact s.width s.height (s.content .src) t.code).length ∧
        HoldsArtifact s t .sdc (sidecarArtifact t.code) ∧ t.lenOf .sdc = (sidecarArtifact t.code).length) ∧
      (s.capOf .pri < (primaryArtifact s.width s.height (s.content .src) t.code).length →
        t.Reports (ioFailureEnding .pri) ∧ t.lenOf .pri = 0 ∧ t.lenOf .sdc = 0 ∧ ∀ S, SameBytes s t S) ∧
      ((primaryArtifact s.width s.height (s.content .src) t.code).length ≤ s.capOf .pri →
        s.capOf .sdc < (sidecarArtifact t.code).length →
        t.Reports (ioFailureEnding .sdc) ∧ t.lenOf .pri = 0 ∧ t.lenOf .sdc = 0 ∧ ∀ S, SameBytes s t S)

/-- 46_macro.md R144 to R146, 44_codec.md R108, R114, R115: how `DECODE` ends, on the state alone. An error of the `TLOAD`
body ends the call with nothing decoded and the ROM empty; otherwise the loaded ROM decodes the primary artifact, and the
call ends as `DEC` does with that ROM, its counters with it; `DST` is written only with `OK`, and then holds the decoded
bytes; the tree tables are empty and the artifacts untouched whatever the ending. -/
def Obligations.DecodeEndings : Prop :=
  ∀ s, ∃ t, exec .decode s = .next t ∧ EmptyTree t ∧
    t.priLen = s.priLen ∧ t.sdcLen = s.sdcLen ∧ t.width = s.width ∧ t.height = s.height ∧
    SameBytes s t .pri ∧ SameBytes s t .sdc ∧
    (t.outcome ≠ .ok → t.lenOf .dst = 0 ∧ SameBytes s t .dst) ∧
    (s.capOf .sdc < s.lenOf .sdc → t.Reports (ioFailureEnding .sdc) ∧ t.tblMalformed = false) ∧
    (s.lenOf .sdc ≤ s.capOf .sdc →
      (t.tblMalformed = true ↔ ∃ line ∈ linesOf (s.content .sdc), parseLine line = none)) ∧
    (s.lenOf .sdc ≤ s.capOf .sdc → symCount (loadLines (s.content .sdc)).code = 0 → t.Reports tableNotFoundEnding) ∧
    (s.capOf .sdc < s.lenOf .sdc ∨ symCount (loadLines (s.content .sdc)).code = 0 →
      symCount t.code = 0 ∧ t.decCount = 0#32 ∧ t.decDropped = 0#32) ∧
    (s.lenOf .sdc ≤ s.capOf .sdc → symCount (loadLines (s.content .sdc)).code ≠ 0 →
      t.code = (loadLines (s.content .sdc)).code ∧
      (s.capOf .pri < s.lenOf .pri → t.Reports (ioFailureEnding .pri) ∧ t.decCount = 0#32 ∧ t.decDropped = 0#32) ∧
      (s.lenOf .pri ≤ s.capOf .pri →
        ∃ acc, acc = decodePayload (loadLines (s.content .sdc)).code
            ((s.content .pri).drop (decodeStart (s.content .pri))) ∧
        t.decCount.toNat = acc.out.length ∧ t.decDropped.toNat = acc.dropped ∧
        (s.capOf .dst < acc.out.length → t.Reports (ioFailureEnding .dst)) ∧
        (acc.out.length ≤ s.capOf .dst → acc.out.length < s.width.toNat * s.height.toNat →
          t.Reports (truncatedEnding acc.out.length) ∧ t.errInfo = t.decCount) ∧
        (acc.out.length ≤ s.capOf .dst → s.width.toNat * s.height.toNat ≤ acc.out.length →
          t.Reports okEnding ∧ HoldsArtifact s t .dst acc.out ∧ t.lenOf .dst = acc.out.length)))

/-- 46_macro.md R147: isolation. The result of a macro is a function of the input contents, `WIDTH`, `HEIGHT` and the
capacities, and of nothing else in the state. -/
def Obligations.MacroIsolation : Prop :=
  (∀ s1 s2 t1 t2, s1.caps = s2.caps → s1.width = s2.width → s1.height = s2.height →
    s1.content .src = s2.content .src → exec .encode s1 = .next t1 → exec .encode s2 = .next t2 →
    t1.outcome = t2.outcome ∧ t1.errInfo = t2.errInfo ∧ t1.code = t2.code ∧ t1.freq = t2.freq ∧ t1.nodes = t2.nodes ∧
    t1.root = t2.root ∧ t1.priLen = t2.priLen ∧ t1.sdcLen = t2.sdcLen ∧
    t1.content .pri = t2.content .pri ∧ t1.content .sdc = t2.content .sdc ∧
    t1.decCount = t2.decCount ∧ t1.decDropped = t2.decDropped ∧ t1.statusWord = t2.statusWord) ∧
  (∀ s1 s2 t1 t2, s1.caps = s2.caps → s1.width = s2.width → s1.height = s2.height →
    s1.content .pri = s2.content .pri → s1.content .sdc = s2.content .sdc →
    exec .decode s1 = .next t1 → exec .decode s2 = .next t2 →
    t1.outcome = t2.outcome ∧ t1.errInfo = t2.errInfo ∧ t1.code = t2.code ∧ t1.freq = t2.freq ∧ t1.nodes = t2.nodes ∧
    t1.root = t2.root ∧ t1.dstLen = t2.dstLen ∧ t1.content .dst = t2.content .dst ∧
    t1.decCount = t2.decCount ∧ t1.decDropped = t2.decDropped ∧ t1.statusWord = t2.statusWord)

/-- 46_macro.md R148: with outcome `OK`, `ENCODE` leaves exactly the state that `CLR`, `SAMPLE`, `BUILD`, `GEN`, `EMIT`,
`TSAVE` leave, but for the emptied `FREQ` and arena; with outcome `OK`, `TRUNCATED_OUTPUT` or `IO_FAILURE` 1 or 3, `DECODE`
leaves exactly the state that `CLR`, `TLOAD`, `DEC` leave. -/
def Obligations.MacrosMatchStageCommands : Prop :=
  (∀ s t, exec .encode s = .next t → t.outcome = .ok →
    ∃ s1 s2 s3 s4 s5 s6, exec .clr s = .next s1 ∧ exec .sample s1 = .next s2 ∧ exec .build s2 = .next s3 ∧
      exec .gen s3 = .next s4 ∧ exec .emit s4 = .next s5 ∧ exec .tsave s5 = .next s6 ∧ t = s6.dropTree) ∧
  (∀ s t, exec .decode s = .next t →
    (t.outcome = .ok ∨ t.outcome = .truncatedOutput ∨ t.Reports (ioFailureEnding .pri) ∨
      t.Reports (ioFailureEnding .dst)) →
    ∃ s1 s2 s3, exec .clr s = .next s1 ∧ exec .tload s1 = .next s2 ∧ exec .dec s2 = .next s3 ∧ t = s3)

/-- 46_macro.md R149: the whole round trip: `ENCODE` of a non-empty buffer with outcome `OK`, then `DECODE` with the
artifacts, lengths and dimensions untouched. -/
def Obligations.EncodeThenDecodeRoundTrip : Prop :=
  ∀ s t u, 1 ≤ s.lenOf .src → s.lenOf .src ≤ s.capOf .dst → exec .encode s = .next t → t.outcome = .ok →
    exec .decode t = .next u →
    u.decCount.toNat = s.lenOf .src ∧ u.decDropped = 0#32 ∧ u.tblMalformed = false ∧
    (s.expected ≤ s.lenOf .src → u.Reports okEnding ∧ u.content .dst = s.content .src) ∧
    (s.lenOf .src < s.expected → u.outcome = .truncatedOutput)

/-! ### Rules over all commands -/

/-- 60_exceptions.md R160: which command can end with which outcome, and its `ERR_INFO`. -/
def Obligations.OutcomesPerCommand : Prop :=
  ∀ i s, ∃ t, exec i s = .next t ∧ t.done = true ∧ t.busy = false ∧
    ((t.outcome = .ok ∧ t.errInfo = 0#32) ∨
     (t.outcome = .emptyInput ∧ t.errInfo = 0#32 ∧ i ∈ [.build, .emit, .encode]) ∨
     (t.outcome = .tableNotFound ∧ t.errInfo = 0#32 ∧ i ∈ [.tload, .decode]) ∨
     (t.outcome = .truncatedOutput ∧ t.errInfo = t.decCount ∧ i ∈ [.dec, .decode]) ∨
     (t.outcome = .unknownSymbol ∧ i = .emit ∧ t.errInfo.toNat < s.lenOf .src) ∨
     (t.outcome = .ioFailure ∧ t.errInfo.toNat ≤ 3 ∧ i ∈ [.sample, .emit, .tsave, .tload, .dec, .encode, .decode]))

/-- 60_exceptions.md R166, 20_memory.md R38: a command that does not end with `OK` writes no byte of any space. -/
def Obligations.NoByteWrittenUnlessOk : Prop :=
  ∀ i s t, exec i s = .next t → t.outcome ≠ .ok → ∀ S, SameBytes s t S

/-- 10_state.md R25, R26, R35, 20_memory.md R37: no command writes `WIDTH`, `HEIGHT`, `SRC_LEN`, `CTRL`, a capacity or a
byte of `SRC`. -/
def Obligations.CommandsKeepInputs : Prop := ∀ i s t, exec i s = .next t → KeepsInputs s t

/-- Frame of the table commands `SAMPLE`, `BUILD`, `GEN` (30_encoding.md R56; 41_sample.md R65, 42_build.md R70, R80,
43_gen.md R85): no byte of any space, no length, no counter, not `TBL_MALFORMED`, and of the tables only the one each
writes. -/
def Obligations.TableCommandsFrame : Prop :=
  ∀ i s t, i ∈ [Instr.sample, .build, .gen] → exec i s = .next t →
    (∀ S, SameBytes s t S) ∧ (∀ S, KeepsLen s t S) ∧ KeepsCounters s t ∧ t.tblMalformed = s.tblMalformed ∧
    (i ≠ .sample → t.freq = s.freq) ∧ (i ≠ .build → t.nodes = s.nodes ∧ t.root = s.root) ∧
    (i ≠ .gen → t.code = s.code)

/-- Frame of `EMIT` and `TSAVE` (44_codec.md R100, 45_table_io.md R121, 30_encoding.md R56): tables, counters,
`TBL_MALFORMED`, the other lengths and the bytes of the other spaces are as before; in the target space only the bytes of
the artifact the command computed are written, from offset 0. -/
def Obligations.ArtifactCommandsFrame : Prop :=
  (∀ s t, exec .emit s = .next t →
    KeepsTree s t ∧ t.code = s.code ∧ KeepsCounters s t ∧ t.tblMalformed = s.tblMalformed ∧
    (∀ S, S ≠ .pri → KeepsLen s t S ∧ SameBytes s t S) ∧
    (∀ out, emitArtifact s = .ok out → HoldsArtifact s t .pri out) ∧
    (∀ e, emitArtifact s = .error e → SameBytes s t .pri)) ∧
  (∀ s t, exec .tsave s = .next t →
    KeepsTree s t ∧ t.code = s.code ∧ KeepsCounters s t ∧ t.tblMalformed = s.tblMalformed ∧
    (∀ S, S ≠ .sdc → KeepsLen s t S ∧ SameBytes s t S) ∧
    (∀ out, tsaveArtifact s = .ok out → HoldsArtifact s t .sdc out) ∧
    (∀ e, tsaveArtifact s = .error e → SameBytes s t .sdc))

/-- Frame of `TLOAD` and `DEC` (45_table_io.md R127, 44_codec.md R108, 30_encoding.md R56): `TLOAD` writes no byte, length or
counter and no other table; `DEC` writes no table and not `TBL_MALFORMED`, and of the spaces only the decoded bytes of
`DST`, from offset 0. -/
def Obligations.TloadDecFrame : Prop :=
  (∀ s t, exec .tload s = .next t →
    KeepsTree s t ∧ KeepsCounters s t ∧ (∀ S, KeepsLen s t S) ∧ (∀ S, SameBytes s t S)) ∧
  (∀ s t, exec .dec s = .next t →
    KeepsTree s t ∧ t.code = s.code ∧ t.tblMalformed = s.tblMalformed ∧
    (∀ S, S ≠ .dst → KeepsLen s t S ∧ SameBytes s t S) ∧
    SameBytesFrom s t .dst (decodeArtifact s.code (s.content .pri)).out.length)

/-- Frame of `ENCODE` and `DECODE` (46_macro.md R140, R144, R146, 30_encoding.md R56): `ENCODE` writes no byte and no length
of `SRC` and `DST`, and of `PRI` and `SDC` only bytes below the new length; `DECODE` only bytes of `DST` below the new
`DST_LEN`. -/
def Obligations.MacroFrame : Prop :=
  (∀ s t, exec .encode s = .next t →
    (∀ S, S = .src ∨ S = .dst → KeepsLen s t S ∧ SameBytes s t S) ∧
    SameBytesFrom s t .pri (t.lenOf .pri) ∧ SameBytesFrom s t .sdc (t.lenOf .sdc)) ∧
  (∀ s t, exec .decode s = .next t →
    (∀ S, S ≠ .dst → KeepsLen s t S ∧ SameBytes s t S) ∧ SameBytesFrom s t .dst (t.lenOf .dst))

/-! ### Invariants of every step -/

/-- The byte spaces keep their canonical form and stay inside their capacities (20_memory.md R37, R39). -/
def Obligations.StepKeepsSpacesWf : Prop := ∀ s t, s.SpacesWf → step s = .next t → t.SpacesWf

/-- The tables stay as the commands make them: no counter wraps, the arena is a tree or empty, the ROM's entries fit
(41_sample.md R67, 42_build.md R77, 43_gen.md R91, 10_state.md R29, R30). -/
def Obligations.StepKeepsTablesWf : Prop := ∀ s t, s.TablesWf → step s = .next t → t.TablesWf

/-- What `STATUS` and `ERR_INFO` report stays consistent: nothing is reported while a command runs, and the information
word is that of the outcome (10_state.md R21, R33; 60_exceptions.md R160). -/
def Obligations.StepKeepsReportWf : Prop := ∀ s t, s.ReportWf → step s = .next t → t.ReportWf

/-- The invariants hold after reset. -/
def Obligations.ResetMeetsInvariants : Prop :=
  State.reset.SpacesWf ∧ State.reset.TablesWf ∧ State.reset.ReportWf
end

