-- ==== Sys2Proof/Laws/State.lean ====
section
/-! SUPPORT. One lemma per field per update of State, true by rfl, so that no proof unfolds a record update; and the
same for the views over spaces and lengths. -/

namespace Sys2Proof.Machine

section
variable (s : State) (e : Ending)

@[simp] theorem State.caps_complete : (s.complete e).caps = s.caps := rfl
@[simp] theorem State.width_complete : (s.complete e).width = s.width := rfl
@[simp] theorem State.height_complete : (s.complete e).height = s.height := rfl
@[simp] theorem State.srcLen_complete : (s.complete e).srcLen = s.srcLen := rfl
@[simp] theorem State.priLen_complete : (s.complete e).priLen = s.priLen := rfl
@[simp] theorem State.sdcLen_complete : (s.complete e).sdcLen = s.sdcLen := rfl
@[simp] theorem State.dstLen_complete : (s.complete e).dstLen = s.dstLen := rfl
@[simp] theorem State.decCount_complete : (s.complete e).decCount = s.decCount := rfl
@[simp] theorem State.decDropped_complete : (s.complete e).decDropped = s.decDropped := rfl
@[simp] theorem State.errInfo_complete : (s.complete e).errInfo = e.info := rfl
@[simp] theorem State.ie_complete : (s.complete e).ie = s.ie := rfl
@[simp] theorem State.done_complete : (s.complete e).done = true := rfl
@[simp] theorem State.tblMalformed_complete : (s.complete e).tblMalformed = s.tblMalformed := rfl
@[simp] theorem State.outcome_complete : (s.complete e).outcome = e.code := rfl
@[simp] theorem State.busy_complete : (s.complete e).busy = false := rfl
@[simp] theorem State.cmdLatch_complete : (s.complete e).cmdLatch = s.cmdLatch := rfl
@[simp] theorem State.freq_complete : (s.complete e).freq = s.freq := rfl
@[simp] theorem State.nodes_complete : (s.complete e).nodes = s.nodes := rfl
@[simp] theorem State.root_complete : (s.complete e).root = s.root := rfl
@[simp] theorem State.code_complete : (s.complete e).code = s.code := rfl
@[simp] theorem State.srcMem_complete : (s.complete e).srcMem = s.srcMem := rfl
@[simp] theorem State.priMem_complete : (s.complete e).priMem = s.priMem := rfl
@[simp] theorem State.sdcMem_complete : (s.complete e).sdcMem = s.sdcMem := rfl
@[simp] theorem State.dstMem_complete : (s.complete e).dstMem = s.dstMem := rfl
@[simp] theorem State.script_complete : (s.complete e).script = s.script := rfl
@[simp] theorem State.responses_complete : (s.complete e).responses = s.responses := rfl
@[simp] theorem State.durations_complete : (s.complete e).durations = s.durations := rfl
@[simp] theorem State.hostSlots_complete : (s.complete e).hostSlots = s.hostSlots := rfl
@[simp] theorem State.draws_complete : (s.complete e).draws = s.draws := rfl
@[simp] theorem State.resets_complete : (s.complete e).resets = s.resets := rfl
@[simp] theorem State.space_complete (S : Space) : (s.complete e).space S = s.space S := rfl
@[simp] theorem State.capOf_complete (S : Space) : (s.complete e).capOf S = s.capOf S := rfl
@[simp] theorem State.lenOf_complete (S : Space) : (s.complete e).lenOf S = s.lenOf S := rfl
@[simp] theorem State.memRead_complete (S : Space) (k : Nat) : (s.complete e).memRead S k = s.memRead S k := rfl
@[simp] theorem State.content_complete (S : Space) : (s.complete e).content S = s.content S := rfl
@[simp] theorem State.expected_complete : (s.complete e).expected = s.expected := rfl

end

section
variable (s : State) (w : Word)

@[simp] theorem State.caps_accept : (s.accept w).caps = s.caps := rfl
@[simp] theorem State.width_accept : (s.accept w).width = s.width := rfl
@[simp] theorem State.height_accept : (s.accept w).height = s.height := rfl
@[simp] theorem State.srcLen_accept : (s.accept w).srcLen = s.srcLen := rfl
@[simp] theorem State.priLen_accept : (s.accept w).priLen = s.priLen := rfl
@[simp] theorem State.sdcLen_accept : (s.accept w).sdcLen = s.sdcLen := rfl
@[simp] theorem State.dstLen_accept : (s.accept w).dstLen = s.dstLen := rfl
@[simp] theorem State.decCount_accept : (s.accept w).decCount = s.decCount := rfl
@[simp] theorem State.decDropped_accept : (s.accept w).decDropped = s.decDropped := rfl
@[simp] theorem State.errInfo_accept : (s.accept w).errInfo = 0#32 := rfl
@[simp] theorem State.ie_accept : (s.accept w).ie = s.ie := rfl
@[simp] theorem State.done_accept : (s.accept w).done = false := rfl
@[simp] theorem State.tblMalformed_accept : (s.accept w).tblMalformed = s.tblMalformed := rfl
@[simp] theorem State.outcome_accept : (s.accept w).outcome = .ok := rfl
@[simp] theorem State.busy_accept : (s.accept w).busy = true := rfl
@[simp] theorem State.cmdLatch_accept : (s.accept w).cmdLatch = w := rfl
@[simp] theorem State.freq_accept : (s.accept w).freq = s.freq := rfl
@[simp] theorem State.nodes_accept : (s.accept w).nodes = s.nodes := rfl
@[simp] theorem State.root_accept : (s.accept w).root = s.root := rfl
@[simp] theorem State.code_accept : (s.accept w).code = s.code := rfl
@[simp] theorem State.srcMem_accept : (s.accept w).srcMem = s.srcMem := rfl
@[simp] theorem State.priMem_accept : (s.accept w).priMem = s.priMem := rfl
@[simp] theorem State.sdcMem_accept : (s.accept w).sdcMem = s.sdcMem := rfl
@[simp] theorem State.dstMem_accept : (s.accept w).dstMem = s.dstMem := rfl
@[simp] theorem State.script_accept : (s.accept w).script = s.script := rfl
@[simp] theorem State.responses_accept : (s.accept w).responses = s.responses := rfl
@[simp] theorem State.durations_accept : (s.accept w).durations = s.durations := rfl
@[simp] theorem State.hostSlots_accept : (s.accept w).hostSlots = s.hostSlots := rfl
@[simp] theorem State.draws_accept : (s.accept w).draws = s.draws := rfl
@[simp] theorem State.resets_accept : (s.accept w).resets = s.resets := rfl
@[simp] theorem State.space_accept (S : Space) : (s.accept w).space S = s.space S := rfl
@[simp] theorem State.capOf_accept (S : Space) : (s.accept w).capOf S = s.capOf S := rfl
@[simp] theorem State.lenOf_accept (S : Space) : (s.accept w).lenOf S = s.lenOf S := rfl
@[simp] theorem State.memRead_accept (S : Space) (k : Nat) : (s.accept w).memRead S k = s.memRead S k := rfl
@[simp] theorem State.content_accept (S : Space) : (s.accept w).content S = s.content S := rfl
@[simp] theorem State.expected_accept : (s.accept w).expected = s.expected := rfl

end

section
variable (s : State) 

@[simp] theorem State.caps_clearAll : s.clearAll.caps = s.caps := rfl
@[simp] theorem State.width_clearAll : s.clearAll.width = s.width := rfl
@[simp] theorem State.height_clearAll : s.clearAll.height = s.height := rfl
@[simp] theorem State.srcLen_clearAll : s.clearAll.srcLen = s.srcLen := rfl
@[simp] theorem State.priLen_clearAll : s.clearAll.priLen = s.priLen := rfl
@[simp] theorem State.sdcLen_clearAll : s.clearAll.sdcLen = s.sdcLen := rfl
@[simp] theorem State.dstLen_clearAll : s.clearAll.dstLen = s.dstLen := rfl
@[simp] theorem State.decCount_clearAll : s.clearAll.decCount = 0#32 := rfl
@[simp] theorem State.decDropped_clearAll : s.clearAll.decDropped = 0#32 := rfl
@[simp] theorem State.errInfo_clearAll : s.clearAll.errInfo = s.errInfo := rfl
@[simp] theorem State.ie_clearAll : s.clearAll.ie = s.ie := rfl
@[simp] theorem State.done_clearAll : s.clearAll.done = s.done := rfl
@[simp] theorem State.tblMalformed_clearAll : s.clearAll.tblMalformed = false := rfl
@[simp] theorem State.outcome_clearAll : s.clearAll.outcome = s.outcome := rfl
@[simp] theorem State.busy_clearAll : s.clearAll.busy = s.busy := rfl
@[simp] theorem State.cmdLatch_clearAll : s.clearAll.cmdLatch = s.cmdLatch := rfl
@[simp] theorem State.freq_clearAll : s.clearAll.freq = emptyFreq := rfl
@[simp] theorem State.nodes_clearAll : s.clearAll.nodes = [] := rfl
@[simp] theorem State.root_clearAll : s.clearAll.root = none := rfl
@[simp] theorem State.code_clearAll : s.clearAll.code = emptyCode := rfl
@[simp] theorem State.srcMem_clearAll : s.clearAll.srcMem = s.srcMem := rfl
@[simp] theorem State.priMem_clearAll : s.clearAll.priMem = s.priMem := rfl
@[simp] theorem State.sdcMem_clearAll : s.clearAll.sdcMem = s.sdcMem := rfl
@[simp] theorem State.dstMem_clearAll : s.clearAll.dstMem = s.dstMem := rfl
@[simp] theorem State.script_clearAll : s.clearAll.script = s.script := rfl
@[simp] theorem State.responses_clearAll : s.clearAll.responses = s.responses := rfl
@[simp] theorem State.durations_clearAll : s.clearAll.durations = s.durations := rfl
@[simp] theorem State.hostSlots_clearAll : s.clearAll.hostSlots = s.hostSlots := rfl
@[simp] theorem State.draws_clearAll : s.clearAll.draws = s.draws := rfl
@[simp] theorem State.resets_clearAll : s.clearAll.resets = s.resets := rfl
@[simp] theorem State.space_clearAll (S : Space) : (s.clearAll).space S = s.space S := rfl
@[simp] theorem State.capOf_clearAll (S : Space) : (s.clearAll).capOf S = s.capOf S := rfl
@[simp] theorem State.lenOf_clearAll (S : Space) : (s.clearAll).lenOf S = s.lenOf S := rfl
@[simp] theorem State.memRead_clearAll (S : Space) (k : Nat) : (s.clearAll).memRead S k = s.memRead S k := rfl
@[simp] theorem State.content_clearAll (S : Space) : (s.clearAll).content S = s.content S := rfl
@[simp] theorem State.expected_clearAll : (s.clearAll).expected = s.expected := rfl

end

section
variable (s : State) 

@[simp] theorem State.caps_dropTree : s.dropTree.caps = s.caps := rfl
@[simp] theorem State.width_dropTree : s.dropTree.width = s.width := rfl
@[simp] theorem State.height_dropTree : s.dropTree.height = s.height := rfl
@[simp] theorem State.srcLen_dropTree : s.dropTree.srcLen = s.srcLen := rfl
@[simp] theorem State.priLen_dropTree : s.dropTree.priLen = s.priLen := rfl
@[simp] theorem State.sdcLen_dropTree : s.dropTree.sdcLen = s.sdcLen := rfl
@[simp] theorem State.dstLen_dropTree : s.dropTree.dstLen = s.dstLen := rfl
@[simp] theorem State.decCount_dropTree : s.dropTree.decCount = s.decCount := rfl
@[simp] theorem State.decDropped_dropTree : s.dropTree.decDropped = s.decDropped := rfl
@[simp] theorem State.errInfo_dropTree : s.dropTree.errInfo = s.errInfo := rfl
@[simp] theorem State.ie_dropTree : s.dropTree.ie = s.ie := rfl
@[simp] theorem State.done_dropTree : s.dropTree.done = s.done := rfl
@[simp] theorem State.tblMalformed_dropTree : s.dropTree.tblMalformed = s.tblMalformed := rfl
@[simp] theorem State.outcome_dropTree : s.dropTree.outcome = s.outcome := rfl
@[simp] theorem State.busy_dropTree : s.dropTree.busy = s.busy := rfl
@[simp] theorem State.cmdLatch_dropTree : s.dropTree.cmdLatch = s.cmdLatch := rfl
@[simp] theorem State.freq_dropTree : s.dropTree.freq = emptyFreq := rfl
@[simp] theorem State.nodes_dropTree : s.dropTree.nodes = [] := rfl
@[simp] theorem State.root_dropTree : s.dropTree.root = none := rfl
@[simp] theorem State.code_dropTree : s.dropTree.code = s.code := rfl
@[simp] theorem State.srcMem_dropTree : s.dropTree.srcMem = s.srcMem := rfl
@[simp] theorem State.priMem_dropTree : s.dropTree.priMem = s.priMem := rfl
@[simp] theorem State.sdcMem_dropTree : s.dropTree.sdcMem = s.sdcMem := rfl
@[simp] theorem State.dstMem_dropTree : s.dropTree.dstMem = s.dstMem := rfl
@[simp] theorem State.script_dropTree : s.dropTree.script = s.script := rfl
@[simp] theorem State.responses_dropTree : s.dropTree.responses = s.responses := rfl
@[simp] theorem State.durations_dropTree : s.dropTree.durations = s.durations := rfl
@[simp] theorem State.hostSlots_dropTree : s.dropTree.hostSlots = s.hostSlots := rfl
@[simp] theorem State.draws_dropTree : s.dropTree.draws = s.draws := rfl
@[simp] theorem State.resets_dropTree : s.dropTree.resets = s.resets := rfl
@[simp] theorem State.space_dropTree (S : Space) : (s.dropTree).space S = s.space S := rfl
@[simp] theorem State.capOf_dropTree (S : Space) : (s.dropTree).capOf S = s.capOf S := rfl
@[simp] theorem State.lenOf_dropTree (S : Space) : (s.dropTree).lenOf S = s.lenOf S := rfl
@[simp] theorem State.memRead_dropTree (S : Space) (k : Nat) : (s.dropTree).memRead S k = s.memRead S k := rfl
@[simp] theorem State.content_dropTree (S : Space) : (s.dropTree).content S = s.content S := rfl
@[simp] theorem State.expected_dropTree : (s.dropTree).expected = s.expected := rfl

end

section
variable (s : State) (v : HostValue)

@[simp] theorem State.caps_respond : (s.respond v).caps = s.caps := rfl
@[simp] theorem State.width_respond : (s.respond v).width = s.width := rfl
@[simp] theorem State.height_respond : (s.respond v).height = s.height := rfl
@[simp] theorem State.srcLen_respond : (s.respond v).srcLen = s.srcLen := rfl
@[simp] theorem State.priLen_respond : (s.respond v).priLen = s.priLen := rfl
@[simp] theorem State.sdcLen_respond : (s.respond v).sdcLen = s.sdcLen := rfl
@[simp] theorem State.dstLen_respond : (s.respond v).dstLen = s.dstLen := rfl
@[simp] theorem State.decCount_respond : (s.respond v).decCount = s.decCount := rfl
@[simp] theorem State.decDropped_respond : (s.respond v).decDropped = s.decDropped := rfl
@[simp] theorem State.errInfo_respond : (s.respond v).errInfo = s.errInfo := rfl
@[simp] theorem State.ie_respond : (s.respond v).ie = s.ie := rfl
@[simp] theorem State.done_respond : (s.respond v).done = s.done := rfl
@[simp] theorem State.tblMalformed_respond : (s.respond v).tblMalformed = s.tblMalformed := rfl
@[simp] theorem State.outcome_respond : (s.respond v).outcome = s.outcome := rfl
@[simp] theorem State.busy_respond : (s.respond v).busy = s.busy := rfl
@[simp] theorem State.cmdLatch_respond : (s.respond v).cmdLatch = s.cmdLatch := rfl
@[simp] theorem State.freq_respond : (s.respond v).freq = s.freq := rfl
@[simp] theorem State.nodes_respond : (s.respond v).nodes = s.nodes := rfl
@[simp] theorem State.root_respond : (s.respond v).root = s.root := rfl
@[simp] theorem State.code_respond : (s.respond v).code = s.code := rfl
@[simp] theorem State.srcMem_respond : (s.respond v).srcMem = s.srcMem := rfl
@[simp] theorem State.priMem_respond : (s.respond v).priMem = s.priMem := rfl
@[simp] theorem State.sdcMem_respond : (s.respond v).sdcMem = s.sdcMem := rfl
@[simp] theorem State.dstMem_respond : (s.respond v).dstMem = s.dstMem := rfl
@[simp] theorem State.script_respond : (s.respond v).script = s.script := rfl
@[simp] theorem State.responses_respond : (s.respond v).responses = v :: s.responses := rfl
@[simp] theorem State.durations_respond : (s.respond v).durations = s.durations := rfl
@[simp] theorem State.hostSlots_respond : (s.respond v).hostSlots = s.hostSlots := rfl
@[simp] theorem State.draws_respond : (s.respond v).draws = s.draws := rfl
@[simp] theorem State.resets_respond : (s.respond v).resets = s.resets := rfl
@[simp] theorem State.space_respond (S : Space) : (s.respond v).space S = s.space S := rfl
@[simp] theorem State.capOf_respond (S : Space) : (s.respond v).capOf S = s.capOf S := rfl
@[simp] theorem State.lenOf_respond (S : Space) : (s.respond v).lenOf S = s.lenOf S := rfl
@[simp] theorem State.memRead_respond (S : Space) (k : Nat) : (s.respond v).memRead S k = s.memRead S k := rfl
@[simp] theorem State.content_respond (S : Space) : (s.respond v).content S = s.content S := rfl
@[simp] theorem State.expected_respond : (s.respond v).expected = s.expected := rfl

end

section
variable (s : State) 

@[simp] theorem State.caps_spendSlot : s.spendSlot.caps = s.caps := rfl
@[simp] theorem State.width_spendSlot : s.spendSlot.width = s.width := rfl
@[simp] theorem State.height_spendSlot : s.spendSlot.height = s.height := rfl
@[simp] theorem State.srcLen_spendSlot : s.spendSlot.srcLen = s.srcLen := rfl
@[simp] theorem State.priLen_spendSlot : s.spendSlot.priLen = s.priLen := rfl
@[simp] theorem State.sdcLen_spendSlot : s.spendSlot.sdcLen = s.sdcLen := rfl
@[simp] theorem State.dstLen_spendSlot : s.spendSlot.dstLen = s.dstLen := rfl
@[simp] theorem State.decCount_spendSlot : s.spendSlot.decCount = s.decCount := rfl
@[simp] theorem State.decDropped_spendSlot : s.spendSlot.decDropped = s.decDropped := rfl
@[simp] theorem State.errInfo_spendSlot : s.spendSlot.errInfo = s.errInfo := rfl
@[simp] theorem State.ie_spendSlot : s.spendSlot.ie = s.ie := rfl
@[simp] theorem State.done_spendSlot : s.spendSlot.done = s.done := rfl
@[simp] theorem State.tblMalformed_spendSlot : s.spendSlot.tblMalformed = s.tblMalformed := rfl
@[simp] theorem State.outcome_spendSlot : s.spendSlot.outcome = s.outcome := rfl
@[simp] theorem State.busy_spendSlot : s.spendSlot.busy = s.busy := rfl
@[simp] theorem State.cmdLatch_spendSlot : s.spendSlot.cmdLatch = s.cmdLatch := rfl
@[simp] theorem State.freq_spendSlot : s.spendSlot.freq = s.freq := rfl
@[simp] theorem State.nodes_spendSlot : s.spendSlot.nodes = s.nodes := rfl
@[simp] theorem State.root_spendSlot : s.spendSlot.root = s.root := rfl
@[simp] theorem State.code_spendSlot : s.spendSlot.code = s.code := rfl
@[simp] theorem State.srcMem_spendSlot : s.spendSlot.srcMem = s.srcMem := rfl
@[simp] theorem State.priMem_spendSlot : s.spendSlot.priMem = s.priMem := rfl
@[simp] theorem State.sdcMem_spendSlot : s.spendSlot.sdcMem = s.sdcMem := rfl
@[simp] theorem State.dstMem_spendSlot : s.spendSlot.dstMem = s.dstMem := rfl
@[simp] theorem State.script_spendSlot : s.spendSlot.script = s.script := rfl
@[simp] theorem State.responses_spendSlot : s.spendSlot.responses = s.responses := rfl
@[simp] theorem State.durations_spendSlot : s.spendSlot.durations = s.durations := rfl
@[simp] theorem State.hostSlots_spendSlot : s.spendSlot.hostSlots = s.hostSlots - 1 := rfl
@[simp] theorem State.draws_spendSlot : s.spendSlot.draws = s.draws := rfl
@[simp] theorem State.resets_spendSlot : s.spendSlot.resets = s.resets := rfl
@[simp] theorem State.space_spendSlot (S : Space) : (s.spendSlot).space S = s.space S := rfl
@[simp] theorem State.capOf_spendSlot (S : Space) : (s.spendSlot).capOf S = s.capOf S := rfl
@[simp] theorem State.lenOf_spendSlot (S : Space) : (s.spendSlot).lenOf S = s.lenOf S := rfl
@[simp] theorem State.memRead_spendSlot (S : Space) (k : Nat) : (s.spendSlot).memRead S k = s.memRead S k := rfl
@[simp] theorem State.content_spendSlot (S : Space) : (s.spendSlot).content S = s.content S := rfl
@[simp] theorem State.expected_spendSlot : (s.spendSlot).expected = s.expected := rfl

end

section
variable (s : State) (S : Space) (m : Memory)

@[simp] theorem State.caps_setSpace : (s.setSpace S m).caps = s.caps := by cases S <;> rfl
@[simp] theorem State.width_setSpace : (s.setSpace S m).width = s.width := by cases S <;> rfl
@[simp] theorem State.height_setSpace : (s.setSpace S m).height = s.height := by cases S <;> rfl
@[simp] theorem State.srcLen_setSpace : (s.setSpace S m).srcLen = s.srcLen := by cases S <;> rfl
@[simp] theorem State.priLen_setSpace : (s.setSpace S m).priLen = s.priLen := by cases S <;> rfl
@[simp] theorem State.sdcLen_setSpace : (s.setSpace S m).sdcLen = s.sdcLen := by cases S <;> rfl
@[simp] theorem State.dstLen_setSpace : (s.setSpace S m).dstLen = s.dstLen := by cases S <;> rfl
@[simp] theorem State.decCount_setSpace : (s.setSpace S m).decCount = s.decCount := by cases S <;> rfl
@[simp] theorem State.decDropped_setSpace : (s.setSpace S m).decDropped = s.decDropped := by cases S <;> rfl
@[simp] theorem State.errInfo_setSpace : (s.setSpace S m).errInfo = s.errInfo := by cases S <;> rfl
@[simp] theorem State.ie_setSpace : (s.setSpace S m).ie = s.ie := by cases S <;> rfl
@[simp] theorem State.done_setSpace : (s.setSpace S m).done = s.done := by cases S <;> rfl
@[simp] theorem State.tblMalformed_setSpace : (s.setSpace S m).tblMalformed = s.tblMalformed := by cases S <;> rfl
@[simp] theorem State.outcome_setSpace : (s.setSpace S m).outcome = s.outcome := by cases S <;> rfl
@[simp] theorem State.busy_setSpace : (s.setSpace S m).busy = s.busy := by cases S <;> rfl
@[simp] theorem State.cmdLatch_setSpace : (s.setSpace S m).cmdLatch = s.cmdLatch := by cases S <;> rfl
@[simp] theorem State.freq_setSpace : (s.setSpace S m).freq = s.freq := by cases S <;> rfl
@[simp] theorem State.nodes_setSpace : (s.setSpace S m).nodes = s.nodes := by cases S <;> rfl
@[simp] theorem State.root_setSpace : (s.setSpace S m).root = s.root := by cases S <;> rfl
@[simp] theorem State.code_setSpace : (s.setSpace S m).code = s.code := by cases S <;> rfl
@[simp] theorem State.script_setSpace : (s.setSpace S m).script = s.script := by cases S <;> rfl
@[simp] theorem State.responses_setSpace : (s.setSpace S m).responses = s.responses := by cases S <;> rfl
@[simp] theorem State.durations_setSpace : (s.setSpace S m).durations = s.durations := by cases S <;> rfl
@[simp] theorem State.hostSlots_setSpace : (s.setSpace S m).hostSlots = s.hostSlots := by cases S <;> rfl
@[simp] theorem State.draws_setSpace : (s.setSpace S m).draws = s.draws := by cases S <;> rfl
@[simp] theorem State.resets_setSpace : (s.setSpace S m).resets = s.resets := by cases S <;> rfl
@[simp] theorem State.capOf_setSpace (S' : Space) : (s.setSpace S m).capOf S' = s.capOf S' := by cases S <;> rfl
@[simp] theorem State.expected_setSpace : (s.setSpace S m).expected = s.expected := by cases S <;> rfl
@[simp] theorem State.lenOf_setSpace (S' : Space) : (s.setSpace S m).lenOf S' = s.lenOf S' := by cases S <;> rfl
theorem State.space_setSpace (S' : Space) : (s.setSpace S m).space S' = if S' = S then m else s.space S' := by
  cases S <;> cases S' <;> rfl

end

section
variable (s : State) (S : Space) (n : Word)

@[simp] theorem State.caps_setLen : (s.setLen S n).caps = s.caps := by cases S <;> rfl
@[simp] theorem State.width_setLen : (s.setLen S n).width = s.width := by cases S <;> rfl
@[simp] theorem State.height_setLen : (s.setLen S n).height = s.height := by cases S <;> rfl
@[simp] theorem State.decCount_setLen : (s.setLen S n).decCount = s.decCount := by cases S <;> rfl
@[simp] theorem State.decDropped_setLen : (s.setLen S n).decDropped = s.decDropped := by cases S <;> rfl
@[simp] theorem State.errInfo_setLen : (s.setLen S n).errInfo = s.errInfo := by cases S <;> rfl
@[simp] theorem State.ie_setLen : (s.setLen S n).ie = s.ie := by cases S <;> rfl
@[simp] theorem State.done_setLen : (s.setLen S n).done = s.done := by cases S <;> rfl
@[simp] theorem State.tblMalformed_setLen : (s.setLen S n).tblMalformed = s.tblMalformed := by cases S <;> rfl
@[simp] theorem State.outcome_setLen : (s.setLen S n).outcome = s.outcome := by cases S <;> rfl
@[simp] theorem State.busy_setLen : (s.setLen S n).busy = s.busy := by cases S <;> rfl
@[simp] theorem State.cmdLatch_setLen : (s.setLen S n).cmdLatch = s.cmdLatch := by cases S <;> rfl
@[simp] theorem State.freq_setLen : (s.setLen S n).freq = s.freq := by cases S <;> rfl
@[simp] theorem State.nodes_setLen : (s.setLen S n).nodes = s.nodes := by cases S <;> rfl
@[simp] theorem State.root_setLen : (s.setLen S n).root = s.root := by cases S <;> rfl
@[simp] theorem State.code_setLen : (s.setLen S n).code = s.code := by cases S <;> rfl
@[simp] theorem State.srcMem_setLen : (s.setLen S n).srcMem = s.srcMem := by cases S <;> rfl
@[simp] theorem State.priMem_setLen : (s.setLen S n).priMem = s.priMem := by cases S <;> rfl
@[simp] theorem State.sdcMem_setLen : (s.setLen S n).sdcMem = s.sdcMem := by cases S <;> rfl
@[simp] theorem State.dstMem_setLen : (s.setLen S n).dstMem = s.dstMem := by cases S <;> rfl
@[simp] theorem State.script_setLen : (s.setLen S n).script = s.script := by cases S <;> rfl
@[simp] theorem State.responses_setLen : (s.setLen S n).responses = s.responses := by cases S <;> rfl
@[simp] theorem State.durations_setLen : (s.setLen S n).durations = s.durations := by cases S <;> rfl
@[simp] theorem State.hostSlots_setLen : (s.setLen S n).hostSlots = s.hostSlots := by cases S <;> rfl
@[simp] theorem State.draws_setLen : (s.setLen S n).draws = s.draws := by cases S <;> rfl
@[simp] theorem State.resets_setLen : (s.setLen S n).resets = s.resets := by cases S <;> rfl
@[simp] theorem State.capOf_setLen (S' : Space) : (s.setLen S n).capOf S' = s.capOf S' := by cases S <;> rfl
@[simp] theorem State.expected_setLen : (s.setLen S n).expected = s.expected := by cases S <;> rfl
@[simp] theorem State.space_setLen (S' : Space) : (s.setLen S n).space S' = s.space S' := by cases S <;> rfl
@[simp] theorem State.memRead_setLen (S' : Space) (k : Nat) : (s.setLen S n).memRead S' k = s.memRead S' k := by
  simp [State.memRead]
theorem State.lenOf_setLen (S' : Space) : (s.setLen S n).lenOf S' = if S' = S then n.toNat else s.lenOf S' := by
  cases S <;> cases S' <;> rfl

end

section
variable (s : State) (S : Space) (out : List Byte)

@[simp] theorem State.caps_commit : (s.commit S out).caps = s.caps := by cases S <;> rfl
@[simp] theorem State.width_commit : (s.commit S out).width = s.width := by cases S <;> rfl
@[simp] theorem State.height_commit : (s.commit S out).height = s.height := by cases S <;> rfl
@[simp] theorem State.decCount_commit : (s.commit S out).decCount = s.decCount := by cases S <;> rfl
@[simp] theorem State.decDropped_commit : (s.commit S out).decDropped = s.decDropped := by cases S <;> rfl
@[simp] theorem State.errInfo_commit : (s.commit S out).errInfo = s.errInfo := by cases S <;> rfl
@[simp] theorem State.ie_commit : (s.commit S out).ie = s.ie := by cases S <;> rfl
@[simp] theorem State.done_commit : (s.commit S out).done = s.done := by cases S <;> rfl
@[simp] theorem State.tblMalformed_commit : (s.commit S out).tblMalformed = s.tblMalformed := by cases S <;> rfl
@[simp] theorem State.outcome_commit : (s.commit S out).outcome = s.outcome := by cases S <;> rfl
@[simp] theorem State.busy_commit : (s.commit S out).busy = s.busy := by cases S <;> rfl
@[simp] theorem State.cmdLatch_commit : (s.commit S out).cmdLatch = s.cmdLatch := by cases S <;> rfl
@[simp] theorem State.freq_commit : (s.commit S out).freq = s.freq := by cases S <;> rfl
@[simp] theorem State.nodes_commit : (s.commit S out).nodes = s.nodes := by cases S <;> rfl
@[simp] theorem State.root_commit : (s.commit S out).root = s.root := by cases S <;> rfl
@[simp] theorem State.code_commit : (s.commit S out).code = s.code := by cases S <;> rfl
@[simp] theorem State.script_commit : (s.commit S out).script = s.script := by cases S <;> rfl
@[simp] theorem State.responses_commit : (s.commit S out).responses = s.responses := by cases S <;> rfl
@[simp] theorem State.durations_commit : (s.commit S out).durations = s.durations := by cases S <;> rfl
@[simp] theorem State.hostSlots_commit : (s.commit S out).hostSlots = s.hostSlots := by cases S <;> rfl
@[simp] theorem State.draws_commit : (s.commit S out).draws = s.draws := by cases S <;> rfl
@[simp] theorem State.resets_commit : (s.commit S out).resets = s.resets := by cases S <;> rfl
@[simp] theorem State.capOf_commit (S' : Space) : (s.commit S out).capOf S' = s.capOf S' := by cases S <;> rfl
@[simp] theorem State.expected_commit : (s.commit S out).expected = s.expected := by cases S <;> rfl

end

section
variable (s : State) (S : Space) (k : Nat) (v : Byte)

@[simp] theorem State.caps_memWrite : (s.memWrite S k v).caps = s.caps := by cases S <;> rfl
@[simp] theorem State.width_memWrite : (s.memWrite S k v).width = s.width := by cases S <;> rfl
@[simp] theorem State.height_memWrite : (s.memWrite S k v).height = s.height := by cases S <;> rfl
@[simp] theorem State.srcLen_memWrite : (s.memWrite S k v).srcLen = s.srcLen := by cases S <;> rfl
@[simp] theorem State.priLen_memWrite : (s.memWrite S k v).priLen = s.priLen := by cases S <;> rfl
@[simp] theorem State.sdcLen_memWrite : (s.memWrite S k v).sdcLen = s.sdcLen := by cases S <;> rfl
@[simp] theorem State.dstLen_memWrite : (s.memWrite S k v).dstLen = s.dstLen := by cases S <;> rfl
@[simp] theorem State.decCount_memWrite : (s.memWrite S k v).decCount = s.decCount := by cases S <;> rfl
@[simp] theorem State.decDropped_memWrite : (s.memWrite S k v).decDropped = s.decDropped := by cases S <;> rfl
@[simp] theorem State.errInfo_memWrite : (s.memWrite S k v).errInfo = s.errInfo := by cases S <;> rfl
@[simp] theorem State.ie_memWrite : (s.memWrite S k v).ie = s.ie := by cases S <;> rfl
@[simp] theorem State.done_memWrite : (s.memWrite S k v).done = s.done := by cases S <;> rfl
@[simp] theorem State.tblMalformed_memWrite : (s.memWrite S k v).tblMalformed = s.tblMalformed := by cases S <;> rfl
@[simp] theorem State.outcome_memWrite : (s.memWrite S k v).outcome = s.outcome := by cases S <;> rfl
@[simp] theorem State.busy_memWrite : (s.memWrite S k v).busy = s.busy := by cases S <;> rfl
@[simp] theorem State.cmdLatch_memWrite : (s.memWrite S k v).cmdLatch = s.cmdLatch := by cases S <;> rfl
@[simp] theorem State.freq_memWrite : (s.memWrite S k v).freq = s.freq := by cases S <;> rfl
@[simp] theorem State.nodes_memWrite : (s.memWrite S k v).nodes = s.nodes := by cases S <;> rfl
@[simp] theorem State.root_memWrite : (s.memWrite S k v).root = s.root := by cases S <;> rfl
@[simp] theorem State.code_memWrite : (s.memWrite S k v).code = s.code := by cases S <;> rfl
@[simp] theorem State.script_memWrite : (s.memWrite S k v).script = s.script := by cases S <;> rfl
@[simp] theorem State.responses_memWrite : (s.memWrite S k v).responses = s.responses := by cases S <;> rfl
@[simp] theorem State.durations_memWrite : (s.memWrite S k v).durations = s.durations := by cases S <;> rfl
@[simp] theorem State.hostSlots_memWrite : (s.memWrite S k v).hostSlots = s.hostSlots := by cases S <;> rfl
@[simp] theorem State.draws_memWrite : (s.memWrite S k v).draws = s.draws := by cases S <;> rfl
@[simp] theorem State.resets_memWrite : (s.memWrite S k v).resets = s.resets := by cases S <;> rfl
@[simp] theorem State.capOf_memWrite (S' : Space) : (s.memWrite S k v).capOf S' = s.capOf S' := by cases S <;> rfl
@[simp] theorem State.expected_memWrite : (s.memWrite S k v).expected = s.expected := by cases S <;> rfl
@[simp] theorem State.lenOf_memWrite (S' : Space) : (s.memWrite S k v).lenOf S' = s.lenOf S' := by cases S <;> rfl

end

end Sys2Proof.Machine
end

