-- ==== Sys2Proof/Laws/Memory.lean ====
section
/-! SUPPORT. Tables and byte spaces: read after write, the canonical form, and what `commit` does. -/

namespace Sys2Proof.Machine

/-! ### Tables -/

@[simp] theorem Table.entry_fill {α : Type} (x : α) (b : Byte) : (Table.fill x).entry b = x := by
  simp [Table.entry, Table.fill]

@[simp] theorem Table.entry_put_same {α : Type} (t : Table α) (b : Byte) (x : α) : (t.put b x).entry b = x := by
  simp [Table.entry, Table.put]

theorem Table.entry_put {α : Type} (t : Table α) (b c : Byte) (x : α) :
    (t.put b x).entry c = if c = b then x else t.entry c := by
  by_cases h : c = b
  · subst h; simp
  · have : b.toNat ≠ c.toNat := fun e => h (BitVec.eq_of_toNat_eq e.symm)
    simp [Table.entry, Table.put, h, this]

theorem Table.ext_entry {α : Type} {t u : Table α} (h : ∀ b, t.entry b = u.entry b) : t = u := by
  apply Vector.ext
  intro i hi
  have := h (BitVec.ofNat 8 i)
  have e : (BitVec.ofNat 8 i).toNat = i := by simp; omega
  simpa [Table.entry, e] using this

@[simp] theorem emptyFreq_entry (b : Byte) : emptyFreq.entry b = 0#32 := Table.entry_fill _ _

@[simp] theorem emptyCode_entry (b : Byte) : emptyCode.entry b = [] := Table.entry_fill _ _

/-! ### Symbols -/

theorem mem_allSymbols (x : Byte) : x ∈ allSymbols := by
  refine List.mem_map.2 ⟨x.toNat, List.mem_range.2 x.isLt, ?_⟩
  simp

theorem allSymbols_ascending : allSymbols.Pairwise (fun x y => x.toNat < y.toNat) := by
  refine List.pairwise_map.2 ?_
  refine (List.pairwise_lt_range (n := 256)).imp_of_mem ?_
  intro a b ha hb hab
  simp only [List.mem_range] at ha hb
  simp only [BitVec.toNat_ofNat]
  omega

theorem allSymbols_nodup : allSymbols.Nodup :=
  allSymbols_ascending.imp (fun h e => by rw [e] at h; exact absurd h (Nat.lt_irrefl _))

theorem length_allSymbols : allSymbols.length = 256 := by simp [allSymbols]

/-- The entries are the symbols in ascending order, each with its entry. -/
theorem Table.entries_eq {α : Type} (t : Table α) : t.entries = allSymbols.map (fun x => (x, t.entry x)) := by
  unfold Table.entries
  apply List.ext_getElem
  · simp [length_allSymbols]
  · intro i h1 h2
    have hi : i < 256 := by simpa [length_allSymbols] using h2
    have hs : allSymbols[i]'(by rw [length_allSymbols]; exact hi) = BitVec.ofNat 8 i := by simp [allSymbols]
    have hn : (BitVec.ofNat 8 i).toNat = i := by simp only [BitVec.toNat_ofNat]; omega
    simp only [List.getElem_zip, List.getElem_map, hs, Table.entry, Prod.mk.injEq, true_and, hn]
    simp

theorem codedSymbols_eq (t : Table Code) : codedSymbols t = allSymbols.filter (fun x => t.entry x ≠ []) := by
  unfold codedSymbols
  rw [t.entries_eq, List.filter_map, List.map_map]
  exact List.map_id _

theorem mem_codedSymbols {t : Table Code} {x : Byte} : x ∈ codedSymbols t ↔ t.entry x ≠ [] := by
  rw [codedSymbols_eq, List.mem_filter]
  simp [mem_allSymbols]

theorem maxLen_eq (t : Table Code) : maxLen t = (allSymbols.map (fun x => (t.entry x).length)).foldl max 0 := by
  unfold maxLen
  rw [t.entries_eq, List.map_map]
  rfl

theorem lookup_eq (t : Table Code) (q : Code) :
    lookup t q = if q = [] then none else allSymbols.find? (fun x => t.entry x == q) := by
  unfold lookup
  rw [t.entries_eq, List.find?_map, Option.map_map]
  split
  · rfl
  · exact Option.map_id'

theorem leavesOf_eq (t : Table Word) :
    leavesOf t = (allSymbols.filter (fun x => t.entry x ≠ 0#32)).map (fun x => .leaf x (t.entry x)) := by
  unfold leavesOf
  rw [t.entries_eq, List.filter_map, List.map_map]
  rfl

/-! ### Byte spaces -/

theorem Memory.find_store (m : Memory) (a b : Nat) (v : Byte) :
    (m.store a v).find b = if b = a then some v else m.find b := by
  induction m with
  | nil =>
    by_cases h : b = a
    · simp [Memory.store, Memory.find, h]
    · simp [Memory.store, Memory.find, h, Ne.symm h]
  | cons c m ih =>
    obtain ⟨d, w⟩ := c
    unfold Memory.store
    split
    · rename_i h
      by_cases e : b = a
      · simp [Memory.find, e]
      · simp [Memory.find, e, Ne.symm e]
    · split
      · rename_i h; subst h
        by_cases e : b = a
        · simp [Memory.find, e]
        · simp [Memory.find, e, Ne.symm e]
      · rename_i h1 h2
        by_cases e : b = a
        · subst e; simp [Memory.find, ih, Ne.symm h2]
        · simp [Memory.find, ih, e]

theorem Memory.find_storeAll (vs : List Byte) : ∀ (m : Memory) (a b : Nat),
    (m.storeAll a vs).find b = if a ≤ b ∧ b < a + vs.length then vs[b - a]? else m.find b := by
  induction vs with
  | nil => intro m a b; simp [Memory.storeAll]
  | cons v vs ih =>
    intro m a b
    rw [Memory.storeAll, ih, Memory.find_store]
    by_cases h1 : b = a
    · subst h1; simp
    · by_cases h2 : a + 1 ≤ b ∧ b < a + 1 + vs.length
      · have h3 : a ≤ b ∧ b < a + (v :: vs).length := by simp only [List.length_cons]; omega
        rw [if_pos h2, if_pos h3]
        have : b - a = (b - (a + 1)) + 1 := by omega
        rw [this, List.getElem?_cons_succ]
      · have h3 : ¬ (a ≤ b ∧ b < a + (v :: vs).length) := by simp only [List.length_cons]; omega
        rw [if_neg h2, if_neg h3, if_neg h1]

theorem Memory.mem_store {m : Memory} {a : Nat} {v : Byte} {c : Host.Cell} (h : c ∈ m.store a v) :
    c = (a, v) ∨ c ∈ m := by
  induction m with
  | nil => simpa [Memory.store] using h
  | cons d m ih =>
    obtain ⟨e, w⟩ := d
    unfold Memory.store at h
    split at h
    · simpa using h
    · split at h
      · rcases List.mem_cons.1 h with h | h
        · exact .inl h
        · exact .inr (List.mem_cons_of_mem _ h)
      · rcases List.mem_cons.1 h with h | h
        · exact .inr (by simp [h])
        · rcases ih h with h | h
          · exact .inl h
          · exact .inr (List.mem_cons_of_mem _ h)

theorem Memory.store_wf {m : Memory} (h : m.wf) (a : Nat) (v : Byte) : (m.store a v).wf := by
  induction m with
  | nil => simp [Memory.store, Memory.wf]
  | cons d m ih =>
    obtain ⟨e, w⟩ := d
    obtain ⟨h1, h2⟩ := List.pairwise_cons.1 h
    unfold Memory.store
    split
    · rename_i hlt
      refine List.pairwise_cons.2 ⟨?_, h⟩
      intro c hc
      rcases List.mem_cons.1 hc with rfl | hc
      · exact hlt
      · exact Nat.lt_trans hlt (h1 c hc)
    · split
      · rename_i heq
        subst heq
        exact List.pairwise_cons.2 ⟨fun c hc => h1 c hc, h2⟩
      · rename_i hn1 hn2
        refine List.pairwise_cons.2 ⟨?_, ih h2⟩
        intro c hc
        rcases Memory.mem_store hc with rfl | hc
        · show e < a; omega
        · exact h1 c hc

theorem Memory.storeAll_wf (vs : List Byte) : ∀ {m : Memory} (_ : m.wf) (a : Nat), (m.storeAll a vs).wf := by
  induction vs with
  | nil => intro m h a; exact h
  | cons v vs ih => intro m h a; exact ih (Memory.store_wf h a v) _

theorem Memory.store_below {m : Memory} {cap a : Nat} (h : m.below cap) (ha : a < cap) (v : Byte) :
    (m.store a v).below cap := by
  intro c hc
  rcases Memory.mem_store hc with rfl | hc
  · exact ha
  · exact h c hc

theorem Memory.storeAll_below (vs : List Byte) : ∀ {m : Memory} {cap a : Nat} (_ : m.below cap)
    (_ : a + vs.length ≤ cap), (m.storeAll a vs).below cap := by
  induction vs with
  | nil => intro m cap a h _; exact h
  | cons v vs ih =>
    intro m cap a h ha
    simp only [List.length_cons] at ha
    exact ih (Memory.store_below h (by omega) v) (by omega)

/-- Two canonical spaces that hold the same bytes are the same list. -/
theorem Memory.eq_of_find {m n : Memory} (hm : m.wf) (hn : n.wf) (h : ∀ a, m.find a = n.find a) : m = n := by
  have none_below : ∀ {m : Memory} {a : Nat}, (∀ c ∈ m, a < c.1) → m.find a = none := by
    intro m a hlt
    induction m with
    | nil => rfl
    | cons c m ih =>
      have : a < c.1 := hlt c (by simp)
      simp only [Memory.find]
      rw [if_neg (by omega), ih (fun c hc => hlt c (List.mem_cons_of_mem _ hc))]
  induction m generalizing n with
  | nil =>
    cases n with
    | nil => rfl
    | cons d n => have := h d.1; simp [Memory.find] at this
  | cons c m ih =>
    cases n with
    | nil => have := h c.1; simp [Memory.find] at this
    | cons d n =>
      obtain ⟨a, v⟩ := c
      obtain ⟨b, w⟩ := d
      obtain ⟨hm1, hm2⟩ := List.pairwise_cons.1 hm
      obtain ⟨hn1, hn2⟩ := List.pairwise_cons.1 hn
      have hab : a = b := by
        rcases Nat.lt_trichotomy a b with hlt | heq | hgt
        · have := h a
          rw [none_below (m := (b, w) :: n) (a := a)] at this
          · simp [Memory.find] at this
          · intro c hc
            rcases List.mem_cons.1 hc with rfl | hc
            · exact hlt
            · exact Nat.lt_trans hlt (hn1 c hc)
        · exact heq
        · have := h b
          rw [none_below (m := (a, v) :: m) (a := b)] at this
          · simp [Memory.find] at this
          · intro c hc
            rcases List.mem_cons.1 hc with rfl | hc
            · exact hgt
            · exact Nat.lt_trans hgt (hm1 c hc)
      subst hab
      have hv : v = w := by have := h a; simpa [Memory.find] using this
      subst hv
      rw [ih hm2 hn2]
      intro k
      have hk := h k
      simp only [Memory.find] at hk
      by_cases e : a = k
      · subst e
        rw [none_below (fun c hc => hm1 c hc), none_below (fun c hc => hn1 c hc)]
      · simpa [e] using hk

/-! ### Reading after a write -/

theorem State.memRead_memWrite (s : State) (S S' : Space) (a b : Nat) (v : Byte) :
    (s.memWrite S a v).memRead S' b = if S' = S ∧ b = a then v else s.memRead S' b := by
  unfold State.memRead State.memWrite
  rw [State.space_setSpace]
  by_cases h : S' = S
  · subst h
    rw [if_pos rfl, Memory.find_store]
    by_cases h2 : b = a <;> simp [h2]
  · simp [h]

/-- Everything `commit` does to the bytes of the four spaces. -/
theorem State.memRead_commit (s : State) (S S' : Space) (out : List Byte) (a : Nat) :
    (s.commit S out).memRead S' a = if S' = S then (out[a]?).getD (s.memRead S a) else s.memRead S' a := by
  unfold State.commit
  rw [State.memRead_setLen]
  unfold State.memRead
  rw [State.space_setSpace]
  by_cases h : S' = S
  · subst h
    rw [if_pos rfl, if_pos rfl, Memory.find_storeAll]
    by_cases h2 : a < out.length
    · simp [h2]
    · simp [h2]
  · simp [h]

/-- Everything `commit` does to the length registers. -/
theorem State.lenOf_commit (s : State) (S S' : Space) (out : List Byte) :
    (s.commit S out).lenOf S' = if S' = S then (BitVec.ofNat 32 out.length).toNat else s.lenOf S' := by
  unfold State.commit
  rw [State.lenOf_setLen]
  simp

theorem State.space_commit (s : State) (S S' : Space) (out : List Byte) :
    (s.commit S out).space S' = if S' = S then (s.space S).storeAll 0 out else s.space S' := by
  unfold State.commit
  rw [State.space_setLen, State.space_setSpace]

/-- A committed artifact that fits is the content of its space. -/
theorem State.content_commit_same (s : State) (S : Space) (out : List Byte) (h : out.length < 2 ^ 32) :
    (s.commit S out).content S = out := by
  unfold State.content State.bytes
  rw [State.lenOf_commit, if_pos rfl, BitVec.toNat_ofNat, Nat.mod_eq_of_lt h]
  apply List.ext_getElem
  · simp
  · intro i h1 h2
    simp [State.memRead_commit, h2]

theorem State.content_commit_other (s : State) {S S' : Space} (out : List Byte) (h : S' ≠ S) :
    (s.commit S out).content S' = s.content S' := by
  unfold State.content State.bytes
  rw [State.lenOf_commit, if_neg h]
  exact List.map_congr_left (fun k _ => by simp [State.memRead_commit, h])

theorem State.length_content (s : State) (S : Space) : (s.content S).length = s.lenOf S := by
  simp [State.content, State.bytes]

theorem State.lenOf_lt (s : State) (S : Space) : s.lenOf S < 2 ^ 32 := by
  cases S <;> exact BitVec.isLt _

theorem State.capOf_lt (s : State) (S : Space) : s.capOf S < 2 ^ 32 := by
  cases S <;> exact BitVec.isLt _

theorem State.expected_lt (s : State) : s.expected < 2 ^ 32 := by
  have h1 := s.width.isLt
  have h2 := s.height.isLt
  unfold State.expected
  calc s.width.toNat * s.height.toNat ≤ 65535 * 65535 := Nat.mul_le_mul (by omega) (by omega)
    _ < 2 ^ 32 := by decide

end Sys2Proof.Machine
end

