-- ==== Sys2Proof/Laws/Stages.lean ====
section
/-! SUPPORT. One lemma per field for the states between the stages of `DEC`, `TLOAD`, `ENCODE` and `DECODE`. -/

namespace Sys2Proof.Machine

section
variable (s : State)

@[simp] theorem decClear_caps : (decClear s).caps = s.caps := rfl
@[simp] theorem decClear_width : (decClear s).width = s.width := rfl
@[simp] theorem decClear_height : (decClear s).height = s.height := rfl
@[simp] theorem decClear_srcLen : (decClear s).srcLen = s.srcLen := rfl
@[simp] theorem decClear_priLen : (decClear s).priLen = s.priLen := rfl
@[simp] theorem decClear_sdcLen : (decClear s).sdcLen = s.sdcLen := rfl
@[simp] theorem decClear_dstLen : (decClear s).dstLen = 0#32 := rfl
@[simp] theorem decClear_decCount : (decClear s).decCount = 0#32 := rfl
@[simp] theorem decClear_decDropped : (decClear s).decDropped = 0#32 := rfl
@[simp] theorem decClear_errInfo : (decClear s).errInfo = s.errInfo := rfl
@[simp] theorem decClear_ie : (decClear s).ie = s.ie := rfl
@[simp] theorem decClear_done : (decClear s).done = s.done := rfl
@[simp] theorem decClear_tblMalformed : (decClear s).tblMalformed = s.tblMalformed := rfl
@[simp] theorem decClear_outcome : (decClear s).outcome = s.outcome := rfl
@[simp] theorem decClear_busy : (decClear s).busy = s.busy := rfl
@[simp] theorem decClear_cmdLatch : (decClear s).cmdLatch = s.cmdLatch := rfl
@[simp] theorem decClear_freq : (decClear s).freq = s.freq := rfl
@[simp] theorem decClear_nodes : (decClear s).nodes = s.nodes := rfl
@[simp] theorem decClear_root : (decClear s).root = s.root := rfl
@[simp] theorem decClear_code : (decClear s).code = s.code := rfl
@[simp] theorem decClear_srcMem : (decClear s).srcMem = s.srcMem := rfl
@[simp] theorem decClear_priMem : (decClear s).priMem = s.priMem := rfl
@[simp] theorem decClear_sdcMem : (decClear s).sdcMem = s.sdcMem := rfl
@[simp] theorem decClear_dstMem : (decClear s).dstMem = s.dstMem := rfl
@[simp] theorem decClear_script : (decClear s).script = s.script := rfl
@[simp] theorem decClear_responses : (decClear s).responses = s.responses := rfl
@[simp] theorem decClear_durations : (decClear s).durations = s.durations := rfl
@[simp] theorem decClear_hostSlots : (decClear s).hostSlots = s.hostSlots := rfl
@[simp] theorem decClear_draws : (decClear s).draws = s.draws := rfl
@[simp] theorem decClear_resets : (decClear s).resets = s.resets := rfl
@[simp] theorem decClear_space (S : Space) : (decClear s).space S = s.space S := by cases S <;> rfl
@[simp] theorem decClear_capOf (S : Space) : (decClear s).capOf S = s.capOf S := by cases S <;> rfl
@[simp] theorem decClear_memRead (S : Space) (k : Nat) : (decClear s).memRead S k = s.memRead S k := by cases S <;> rfl
@[simp] theorem decClear_expected : (decClear s).expected = s.expected := rfl
theorem decClear_lenOf (S : Space) : (decClear s).lenOf S = if S = .dst then 0 else s.lenOf S := by cases S <;> rfl
theorem decClear_content {S : Space} (h : ¬ (S = .dst)) : (decClear s).content S = s.content S := by
  cases S <;> first | rfl | exact absurd (by simp) h

end

section
variable (s : State) (acc : DecAcc)

@[simp] theorem decCounters_caps : (decCounters s acc).caps = s.caps := rfl
@[simp] theorem decCounters_width : (decCounters s acc).width = s.width := rfl
@[simp] theorem decCounters_height : (decCounters s acc).height = s.height := rfl
@[simp] theorem decCounters_srcLen : (decCounters s acc).srcLen = s.srcLen := rfl
@[simp] theorem decCounters_priLen : (decCounters s acc).priLen = s.priLen := rfl
@[simp] theorem decCounters_sdcLen : (decCounters s acc).sdcLen = s.sdcLen := rfl
@[simp] theorem decCounters_dstLen : (decCounters s acc).dstLen = s.dstLen := rfl
@[simp] theorem decCounters_decCount : (decCounters s acc).decCount = BitVec.ofNat 32 acc.out.length := rfl
@[simp] theorem decCounters_decDropped : (decCounters s acc).decDropped = BitVec.ofNat 32 acc.dropped := rfl
@[simp] theorem decCounters_errInfo : (decCounters s acc).errInfo = s.errInfo := rfl
@[simp] theorem decCounters_ie : (decCounters s acc).ie = s.ie := rfl
@[simp] theorem decCounters_done : (decCounters s acc).done = s.done := rfl
@[simp] theorem decCounters_tblMalformed : (decCounters s acc).tblMalformed = s.tblMalformed := rfl
@[simp] theorem decCounters_outcome : (decCounters s acc).outcome = s.outcome := rfl
@[simp] theorem decCounters_busy : (decCounters s acc).busy = s.busy := rfl
@[simp] theorem decCounters_cmdLatch : (decCounters s acc).cmdLatch = s.cmdLatch := rfl
@[simp] theorem decCounters_freq : (decCounters s acc).freq = s.freq := rfl
@[simp] theorem decCounters_nodes : (decCounters s acc).nodes = s.nodes := rfl
@[simp] theorem decCounters_root : (decCounters s acc).root = s.root := rfl
@[simp] theorem decCounters_code : (decCounters s acc).code = s.code := rfl
@[simp] theorem decCounters_srcMem : (decCounters s acc).srcMem = s.srcMem := rfl
@[simp] theorem decCounters_priMem : (decCounters s acc).priMem = s.priMem := rfl
@[simp] theorem decCounters_sdcMem : (decCounters s acc).sdcMem = s.sdcMem := rfl
@[simp] theorem decCounters_dstMem : (decCounters s acc).dstMem = s.dstMem := rfl
@[simp] theorem decCounters_script : (decCounters s acc).script = s.script := rfl
@[simp] theorem decCounters_responses : (decCounters s acc).responses = s.responses := rfl
@[simp] theorem decCounters_durations : (decCounters s acc).durations = s.durations := rfl
@[simp] theorem decCounters_hostSlots : (decCounters s acc).hostSlots = s.hostSlots := rfl
@[simp] theorem decCounters_draws : (decCounters s acc).draws = s.draws := rfl
@[simp] theorem decCounters_resets : (decCounters s acc).resets = s.resets := rfl
@[simp] theorem decCounters_space (S : Space) : (decCounters s acc).space S = s.space S := by cases S <;> rfl
@[simp] theorem decCounters_capOf (S : Space) : (decCounters s acc).capOf S = s.capOf S := by cases S <;> rfl
@[simp] theorem decCounters_memRead (S : Space) (k : Nat) : (decCounters s acc).memRead S k = s.memRead S k := by cases S <;> rfl
@[simp] theorem decCounters_expected : (decCounters s acc).expected = s.expected := rfl
@[simp] theorem decCounters_lenOf (S : Space) : (decCounters s acc).lenOf S = s.lenOf S := by cases S <;> rfl
@[simp] theorem decCounters_content (S : Space) : (decCounters s acc).content S = s.content S := by cases S <;> rfl

end

section
variable (s : State)

@[simp] theorem tloadClear_caps : (tloadClear s).caps = s.caps := rfl
@[simp] theorem tloadClear_width : (tloadClear s).width = s.width := rfl
@[simp] theorem tloadClear_height : (tloadClear s).height = s.height := rfl
@[simp] theorem tloadClear_srcLen : (tloadClear s).srcLen = s.srcLen := rfl
@[simp] theorem tloadClear_priLen : (tloadClear s).priLen = s.priLen := rfl
@[simp] theorem tloadClear_sdcLen : (tloadClear s).sdcLen = s.sdcLen := rfl
@[simp] theorem tloadClear_dstLen : (tloadClear s).dstLen = s.dstLen := rfl
@[simp] theorem tloadClear_decCount : (tloadClear s).decCount = s.decCount := rfl
@[simp] theorem tloadClear_decDropped : (tloadClear s).decDropped = s.decDropped := rfl
@[simp] theorem tloadClear_errInfo : (tloadClear s).errInfo = s.errInfo := rfl
@[simp] theorem tloadClear_ie : (tloadClear s).ie = s.ie := rfl
@[simp] theorem tloadClear_done : (tloadClear s).done = s.done := rfl
@[simp] theorem tloadClear_tblMalformed : (tloadClear s).tblMalformed = false := rfl
@[simp] theorem tloadClear_outcome : (tloadClear s).outcome = s.outcome := rfl
@[simp] theorem tloadClear_busy : (tloadClear s).busy = s.busy := rfl
@[simp] theorem tloadClear_cmdLatch : (tloadClear s).cmdLatch = s.cmdLatch := rfl
@[simp] theorem tloadClear_freq : (tloadClear s).freq = s.freq := rfl
@[simp] theorem tloadClear_nodes : (tloadClear s).nodes = s.nodes := rfl
@[simp] theorem tloadClear_root : (tloadClear s).root = s.root := rfl
@[simp] theorem tloadClear_code : (tloadClear s).code = emptyCode := rfl
@[simp] theorem tloadClear_srcMem : (tloadClear s).srcMem = s.srcMem := rfl
@[simp] theorem tloadClear_priMem : (tloadClear s).priMem = s.priMem := rfl
@[simp] theorem tloadClear_sdcMem : (tloadClear s).sdcMem = s.sdcMem := rfl
@[simp] theorem tloadClear_dstMem : (tloadClear s).dstMem = s.dstMem := rfl
@[simp] theorem tloadClear_script : (tloadClear s).script = s.script := rfl
@[simp] theorem tloadClear_responses : (tloadClear s).responses = s.responses := rfl
@[simp] theorem tloadClear_durations : (tloadClear s).durations = s.durations := rfl
@[simp] theorem tloadClear_hostSlots : (tloadClear s).hostSlots = s.hostSlots := rfl
@[simp] theorem tloadClear_draws : (tloadClear s).draws = s.draws := rfl
@[simp] theorem tloadClear_resets : (tloadClear s).resets = s.resets := rfl
@[simp] theorem tloadClear_space (S : Space) : (tloadClear s).space S = s.space S := by cases S <;> rfl
@[simp] theorem tloadClear_capOf (S : Space) : (tloadClear s).capOf S = s.capOf S := by cases S <;> rfl
@[simp] theorem tloadClear_memRead (S : Space) (k : Nat) : (tloadClear s).memRead S k = s.memRead S k := by cases S <;> rfl
@[simp] theorem tloadClear_expected : (tloadClear s).expected = s.expected := rfl
@[simp] theorem tloadClear_lenOf (S : Space) : (tloadClear s).lenOf S = s.lenOf S := by cases S <;> rfl
@[simp] theorem tloadClear_content (S : Space) : (tloadClear s).content S = s.content S := by cases S <;> rfl

end

section
variable (s : State) (acc : LoadAcc)

@[simp] theorem tloadFill_caps : (tloadFill s acc).caps = s.caps := rfl
@[simp] theorem tloadFill_width : (tloadFill s acc).width = s.width := rfl
@[simp] theorem tloadFill_height : (tloadFill s acc).height = s.height := rfl
@[simp] theorem tloadFill_srcLen : (tloadFill s acc).srcLen = s.srcLen := rfl
@[simp] theorem tloadFill_priLen : (tloadFill s acc).priLen = s.priLen := rfl
@[simp] theorem tloadFill_sdcLen : (tloadFill s acc).sdcLen = s.sdcLen := rfl
@[simp] theorem tloadFill_dstLen : (tloadFill s acc).dstLen = s.dstLen := rfl
@[simp] theorem tloadFill_decCount : (tloadFill s acc).decCount = s.decCount := rfl
@[simp] theorem tloadFill_decDropped : (tloadFill s acc).decDropped = s.decDropped := rfl
@[simp] theorem tloadFill_errInfo : (tloadFill s acc).errInfo = s.errInfo := rfl
@[simp] theorem tloadFill_ie : (tloadFill s acc).ie = s.ie := rfl
@[simp] theorem tloadFill_done : (tloadFill s acc).done = s.done := rfl
@[simp] theorem tloadFill_tblMalformed : (tloadFill s acc).tblMalformed = acc.malformed := rfl
@[simp] theorem tloadFill_outcome : (tloadFill s acc).outcome = s.outcome := rfl
@[simp] theorem tloadFill_busy : (tloadFill s acc).busy = s.busy := rfl
@[simp] theorem tloadFill_cmdLatch : (tloadFill s acc).cmdLatch = s.cmdLatch := rfl
@[simp] theorem tloadFill_freq : (tloadFill s acc).freq = s.freq := rfl
@[simp] theorem tloadFill_nodes : (tloadFill s acc).nodes = s.nodes := rfl
@[simp] theorem tloadFill_root : (tloadFill s acc).root = s.root := rfl
@[simp] theorem tloadFill_code : (tloadFill s acc).code = acc.code := rfl
@[simp] theorem tloadFill_srcMem : (tloadFill s acc).srcMem = s.srcMem := rfl
@[simp] theorem tloadFill_priMem : (tloadFill s acc).priMem = s.priMem := rfl
@[simp] theorem tloadFill_sdcMem : (tloadFill s acc).sdcMem = s.sdcMem := rfl
@[simp] theorem tloadFill_dstMem : (tloadFill s acc).dstMem = s.dstMem := rfl
@[simp] theorem tloadFill_script : (tloadFill s acc).script = s.script := rfl
@[simp] theorem tloadFill_responses : (tloadFill s acc).responses = s.responses := rfl
@[simp] theorem tloadFill_durations : (tloadFill s acc).durations = s.durations := rfl
@[simp] theorem tloadFill_hostSlots : (tloadFill s acc).hostSlots = s.hostSlots := rfl
@[simp] theorem tloadFill_draws : (tloadFill s acc).draws = s.draws := rfl
@[simp] theorem tloadFill_resets : (tloadFill s acc).resets = s.resets := rfl
@[simp] theorem tloadFill_space (S : Space) : (tloadFill s acc).space S = s.space S := by cases S <;> rfl
@[simp] theorem tloadFill_capOf (S : Space) : (tloadFill s acc).capOf S = s.capOf S := by cases S <;> rfl
@[simp] theorem tloadFill_memRead (S : Space) (k : Nat) : (tloadFill s acc).memRead S k = s.memRead S k := by cases S <;> rfl
@[simp] theorem tloadFill_expected : (tloadFill s acc).expected = s.expected := rfl
@[simp] theorem tloadFill_lenOf (S : Space) : (tloadFill s acc).lenOf S = s.lenOf S := by cases S <;> rfl
@[simp] theorem tloadFill_content (S : Space) : (tloadFill s acc).content S = s.content S := by cases S <;> rfl

end

section
variable (s : State)

@[simp] theorem encodeStart_caps : (encodeStart s).caps = s.caps := rfl
@[simp] theorem encodeStart_width : (encodeStart s).width = s.width := rfl
@[simp] theorem encodeStart_height : (encodeStart s).height = s.height := rfl
@[simp] theorem encodeStart_srcLen : (encodeStart s).srcLen = s.srcLen := rfl
@[simp] theorem encodeStart_priLen : (encodeStart s).priLen = 0#32 := rfl
@[simp] theorem encodeStart_sdcLen : (encodeStart s).sdcLen = 0#32 := rfl
@[simp] theorem encodeStart_dstLen : (encodeStart s).dstLen = s.dstLen := rfl
@[simp] theorem encodeStart_decCount : (encodeStart s).decCount = 0#32 := rfl
@[simp] theorem encodeStart_decDropped : (encodeStart s).decDropped = 0#32 := rfl
@[simp] theorem encodeStart_errInfo : (encodeStart s).errInfo = s.errInfo := rfl
@[simp] theorem encodeStart_ie : (encodeStart s).ie = s.ie := rfl
@[simp] theorem encodeStart_done : (encodeStart s).done = s.done := rfl
@[simp] theorem encodeStart_tblMalformed : (encodeStart s).tblMalformed = false := rfl
@[simp] theorem encodeStart_outcome : (encodeStart s).outcome = s.outcome := rfl
@[simp] theorem encodeStart_busy : (encodeStart s).busy = s.busy := rfl
@[simp] theorem encodeStart_cmdLatch : (encodeStart s).cmdLatch = s.cmdLatch := rfl
@[simp] theorem encodeStart_freq : (encodeStart s).freq = emptyFreq := rfl
@[simp] theorem encodeStart_nodes : (encodeStart s).nodes = [] := rfl
@[simp] theorem encodeStart_root : (encodeStart s).root = none := rfl
@[simp] theorem encodeStart_code : (encodeStart s).code = emptyCode := rfl
@[simp] theorem encodeStart_srcMem : (encodeStart s).srcMem = s.srcMem := rfl
@[simp] theorem encodeStart_priMem : (encodeStart s).priMem = s.priMem := rfl
@[simp] theorem encodeStart_sdcMem : (encodeStart s).sdcMem = s.sdcMem := rfl
@[simp] theorem encodeStart_dstMem : (encodeStart s).dstMem = s.dstMem := rfl
@[simp] theorem encodeStart_script : (encodeStart s).script = s.script := rfl
@[simp] theorem encodeStart_responses : (encodeStart s).responses = s.responses := rfl
@[simp] theorem encodeStart_durations : (encodeStart s).durations = s.durations := rfl
@[simp] theorem encodeStart_hostSlots : (encodeStart s).hostSlots = s.hostSlots := rfl
@[simp] theorem encodeStart_draws : (encodeStart s).draws = s.draws := rfl
@[simp] theorem encodeStart_resets : (encodeStart s).resets = s.resets := rfl
@[simp] theorem encodeStart_space (S : Space) : (encodeStart s).space S = s.space S := by cases S <;> rfl
@[simp] theorem encodeStart_capOf (S : Space) : (encodeStart s).capOf S = s.capOf S := by cases S <;> rfl
@[simp] theorem encodeStart_memRead (S : Space) (k : Nat) : (encodeStart s).memRead S k = s.memRead S k := by cases S <;> rfl
@[simp] theorem encodeStart_expected : (encodeStart s).expected = s.expected := rfl
theorem encodeStart_lenOf (S : Space) : (encodeStart s).lenOf S = if S = .pri ∨ S = .sdc then 0 else s.lenOf S := by cases S <;> rfl
theorem encodeStart_content {S : Space} (h : ¬ (S = .pri ∨ S = .sdc)) : (encodeStart s).content S = s.content S := by
  cases S <;> first | rfl | exact absurd (by simp) h

end

section
variable (s : State)

@[simp] theorem decodeStartState_caps : (decodeStartState s).caps = s.caps := rfl
@[simp] theorem decodeStartState_width : (decodeStartState s).width = s.width := rfl
@[simp] theorem decodeStartState_height : (decodeStartState s).height = s.height := rfl
@[simp] theorem decodeStartState_srcLen : (decodeStartState s).srcLen = s.srcLen := rfl
@[simp] theorem decodeStartState_priLen : (decodeStartState s).priLen = s.priLen := rfl
@[simp] theorem decodeStartState_sdcLen : (decodeStartState s).sdcLen = s.sdcLen := rfl
@[simp] theorem decodeStartState_dstLen : (decodeStartState s).dstLen = 0#32 := rfl
@[simp] theorem decodeStartState_decCount : (decodeStartState s).decCount = 0#32 := rfl
@[simp] theorem decodeStartState_decDropped : (decodeStartState s).decDropped = 0#32 := rfl
@[simp] theorem decodeStartState_errInfo : (decodeStartState s).errInfo = s.errInfo := rfl
@[simp] theorem decodeStartState_ie : (decodeStartState s).ie = s.ie := rfl
@[simp] theorem decodeStartState_done : (decodeStartState s).done = s.done := rfl
@[simp] theorem decodeStartState_tblMalformed : (decodeStartState s).tblMalformed = false := rfl
@[simp] theorem decodeStartState_outcome : (decodeStartState s).outcome = s.outcome := rfl
@[simp] theorem decodeStartState_busy : (decodeStartState s).busy = s.busy := rfl
@[simp] theorem decodeStartState_cmdLatch : (decodeStartState s).cmdLatch = s.cmdLatch := rfl
@[simp] theorem decodeStartState_freq : (decodeStartState s).freq = emptyFreq := rfl
@[simp] theorem decodeStartState_nodes : (decodeStartState s).nodes = [] := rfl
@[simp] theorem decodeStartState_root : (decodeStartState s).root = none := rfl
@[simp] theorem decodeStartState_code : (decodeStartState s).code = emptyCode := rfl
@[simp] theorem decodeStartState_srcMem : (decodeStartState s).srcMem = s.srcMem := rfl
@[simp] theorem decodeStartState_priMem : (decodeStartState s).priMem = s.priMem := rfl
@[simp] theorem decodeStartState_sdcMem : (decodeStartState s).sdcMem = s.sdcMem := rfl
@[simp] theorem decodeStartState_dstMem : (decodeStartState s).dstMem = s.dstMem := rfl
@[simp] theorem decodeStartState_script : (decodeStartState s).script = s.script := rfl
@[simp] theorem decodeStartState_responses : (decodeStartState s).responses = s.responses := rfl
@[simp] theorem decodeStartState_durations : (decodeStartState s).durations = s.durations := rfl
@[simp] theorem decodeStartState_hostSlots : (decodeStartState s).hostSlots = s.hostSlots := rfl
@[simp] theorem decodeStartState_draws : (decodeStartState s).draws = s.draws := rfl
@[simp] theorem decodeStartState_resets : (decodeStartState s).resets = s.resets := rfl
@[simp] theorem decodeStartState_space (S : Space) : (decodeStartState s).space S = s.space S := by cases S <;> rfl
@[simp] theorem decodeStartState_capOf (S : Space) : (decodeStartState s).capOf S = s.capOf S := by cases S <;> rfl
@[simp] theorem decodeStartState_memRead (S : Space) (k : Nat) : (decodeStartState s).memRead S k = s.memRead S k := by cases S <;> rfl
@[simp] theorem decodeStartState_expected : (decodeStartState s).expected = s.expected := rfl
theorem decodeStartState_lenOf (S : Space) : (decodeStartState s).lenOf S = if S = .dst then 0 else s.lenOf S := by cases S <;> rfl
theorem decodeStartState_content {S : Space} (h : ¬ (S = .dst)) : (decodeStartState s).content S = s.content S := by
  cases S <;> first | rfl | exact absurd (by simp) h

end

end Sys2Proof.Machine
end

