-- ==== Sys2Proof/Laws/Exec.lean ====
section
/-! SUPPORT. What a command and a step can do, said once: every command completes the state its body leaves, a body ends
in one of a few ways, and a step is one of a few moves. -/

namespace Sys2Proof.Machine

/-- The body of each command, the part of its pseudocode before the complete step. -/
def commandBody (i : Instr) (s : State) : State × Ending :=
  match i with
  | .nop => (s, okEnding)
  | .clr => (s.clearAll, okEnding)
  | .sample => sampleBody s
  | .build => buildBody s
  | .gen => genBody s
  | .emit => emitBody s
  | .tsave => tsaveBody s
  | .tload => tloadBody s
  | .dec => decBody s
  | .encode => encodeBody s
  | .decode => decodeBody s

/-- Every command completes what its body leaves; none stops. -/
theorem exec_eq (i : Instr) (s : State) :
    exec i s = .next ((commandBody i s).1.complete (commandBody i s).2) := by
  cases i <;> rfl

theorem exec_next {i : Instr} {s t : State} (h : exec i s = .next t) :
    t = (commandBody i s).1.complete (commandBody i s).2 := by
  rw [exec_eq] at h
  exact (Host.Outcome.next.inj h).symm

/-- The ways the body of `SAMPLE` ends. -/
theorem sampleBody_cases (s : State) :
    (s.capOf .src < s.lenOf .src ∧ sampleBody s = (s, ioFailureEnding .src)) ∨
    (s.lenOf .src ≤ s.capOf .src ∧
      sampleBody s = ({ s with freq := countBytes (s.content .src) }, okEnding)) := by
  unfold sampleBody
  split
  · exact .inl ⟨‹_›, rfl⟩
  · exact .inr ⟨by omega, rfl⟩

/-- The ways the body of `BUILD` ends. -/
theorem buildBody_cases (s : State) :
    ((buildTree s.freq).2 = [] ∧ buildBody s = ({ s with nodes := [], root := none }, emptyInputEnding)) ∨
    (∃ r rest, (buildTree s.freq).2 = r :: rest ∧
      buildBody s = ({ s with nodes := (buildTree s.freq).1, root := some r }, okEnding)) := by
  unfold buildBody
  generalize buildTree s.freq = p
  obtain ⟨nodes, q⟩ := p
  cases q with
  | nil => exact .inl ⟨rfl, rfl⟩
  | cons r rest => exact .inr ⟨r, rest, rfl, rfl⟩

/-- The ways the body of `EMIT` ends. -/
theorem emitBody_cases (s : State) :
    (∃ e, emitArtifact s = .error e ∧ emitBody s = (s.setLen .pri 0#32, e)) ∨
    (∃ out, emitArtifact s = .ok out ∧ emitBody s = (s.commit .pri out, okEnding)) := by
  unfold emitBody
  cases emitArtifact s with
  | error e => exact .inl ⟨e, rfl, rfl⟩
  | ok out => exact .inr ⟨out, rfl, rfl⟩

/-- The ways the body of `TSAVE` ends. -/
theorem tsaveBody_cases (s : State) :
    (∃ e, tsaveArtifact s = .error e ∧ tsaveBody s = (s.setLen .sdc 0#32, e)) ∨
    (∃ out, tsaveArtifact s = .ok out ∧ tsaveBody s = (s.commit .sdc out, okEnding)) := by
  unfold tsaveBody
  cases tsaveArtifact s with
  | error e => exact .inl ⟨e, rfl, rfl⟩
  | ok out => exact .inr ⟨out, rfl, rfl⟩

/-- The ways the body of `TLOAD` ends. -/
theorem tloadBody_cases (s : State) :
    (s.capOf .sdc < s.lenOf .sdc ∧ tloadBody s = (tloadClear s, ioFailureEnding .sdc)) ∨
    (s.lenOf .sdc ≤ s.capOf .sdc ∧ symCount (loadLines (s.content .sdc)).code = 0 ∧
      tloadBody s = (tloadFill s (loadLines (s.content .sdc)), tableNotFoundEnding)) ∨
    (s.lenOf .sdc ≤ s.capOf .sdc ∧ symCount (loadLines (s.content .sdc)).code ≠ 0 ∧
      tloadBody s = (tloadFill s (loadLines (s.content .sdc)), okEnding)) := by
  unfold tloadBody
  split
  · exact .inl ⟨‹_›, rfl⟩
  · split
    · exact .inr (.inl ⟨by omega, ‹_›, rfl⟩)
    · exact .inr (.inr ⟨by omega, ‹_›, rfl⟩)

/-- What `DEC` has computed before its last two checks. -/
def decCounted (s : State) : State := decCounters (decClear s) (decodeArtifact s.code (s.content .pri))

/-- The bytes `DEC` decodes. -/
def decOut (s : State) : List Byte := (decodeArtifact s.code (s.content .pri)).out

/-- The ways the body of `DEC` ends. -/
theorem decBody_cases (s : State) :
    (s.capOf .pri < s.lenOf .pri ∧ decBody s = (decClear s, ioFailureEnding .pri)) ∨
    (s.lenOf .pri ≤ s.capOf .pri ∧ s.capOf .dst < (decOut s).length ∧
      decBody s = (decCounted s, ioFailureEnding .dst)) ∨
    (s.lenOf .pri ≤ s.capOf .pri ∧ (decOut s).length ≤ s.capOf .dst ∧ (decOut s).length < s.expected ∧
      decBody s = (decCounted s, truncatedEnding (decOut s).length)) ∨
    (s.lenOf .pri ≤ s.capOf .pri ∧ (decOut s).length ≤ s.capOf .dst ∧ s.expected ≤ (decOut s).length ∧
      decBody s = ((decCounted s).commit .dst (decOut s), okEnding)) := by
  by_cases h1 : s.capOf .pri < s.lenOf .pri
  · exact .inl ⟨h1, by simp [decBody, h1]⟩
  · have e : decBody s = decDeliver (decCounted s) (decOut s) := by simp [decBody, h1, decCounted, decOut]
    have hc : (decCounted s).capOf .dst = s.capOf .dst := rfl
    have hx : (decCounted s).expected = s.expected := rfl
    by_cases h2 : s.capOf .dst < (decOut s).length
    · exact .inr (.inl ⟨by omega, h2, by rw [e, decDeliver, hc, if_pos h2]⟩)
    · by_cases h3 : (decOut s).length < s.expected
      · exact .inr (.inr (.inl ⟨by omega, by omega, h3, by rw [e, decDeliver, hc, hx, if_neg h2, if_pos h3]⟩))
      · exact .inr (.inr (.inr ⟨by omega, by omega, by omega, by rw [e, decDeliver, hc, hx, if_neg h2, if_neg h3]⟩))

/-- The ways the artifacts of `ENCODE` end. -/
theorem encodeArtifacts_cases (s : State) :
    (∃ e, emitArtifact s = .error e ∧ encodeArtifacts s = (s, e)) ∨
    (∃ pri e, emitArtifact s = .ok pri ∧ tsaveArtifact s = .error e ∧ encodeArtifacts s = (s, e)) ∨
    (∃ pri sdc, emitArtifact s = .ok pri ∧ tsaveArtifact s = .ok sdc ∧
      encodeArtifacts s = ((s.commit .pri pri).commit .sdc sdc, okEnding)) := by
  unfold encodeArtifacts
  cases h1 : emitArtifact s with
  | error e => exact .inl ⟨e, rfl, rfl⟩
  | ok pri =>
    cases h2 : tsaveArtifact s with
    | error e => exact .inr (.inl ⟨pri, e, rfl, rfl, rfl⟩)
    | ok sdc => exact .inr (.inr ⟨pri, sdc, rfl, rfl, rfl⟩)

/-- The ways `DECODE` ends: the `TLOAD` body ends it, or the `DEC` body runs from what it left. -/
theorem decodeBody_cases (s : State) :
    ((tloadBody (decodeStartState s)).2.code ≠ .ok ∧ decodeBody s = tloadBody (decodeStartState s)) ∨
    ((tloadBody (decodeStartState s)).2.code = .ok ∧ decodeBody s = decBody (tloadBody (decodeStartState s)).1) := by
  unfold decodeBody andThen
  by_cases h : (tloadBody (decodeStartState s)).2.code = .ok
  · exact .inr ⟨h, by rw [if_pos h]⟩
  · exact .inl ⟨h, by rw [if_neg h]⟩

/-- Everything a step can be: the sequencer completing a command, a host move while a command runs, or a host move while
the machine is idle. -/
theorem step_cases (s : State) :
    (s.busy = true ∧ s.hostMovesFirst = false ∧ step s = sequencerMove s) ∨
    (s.busy = true ∧ s.hostMovesFirst = true ∧ step s = hostMove s.spendSlot) ∨
    (s.busy = false ∧ step s = hostMove s) := by
  unfold step
  cases hb : s.busy <;> cases hf : s.hostMovesFirst <;> simp

/-- The sequencer executes a command or completes an illegal word. -/
theorem sequencerMove_cases (s : State) :
    (∃ i, decodeWord s.cmdLatch = .ok i ∧ sequencerMove s = exec i s) ∨
    (∃ r, decodeWord s.cmdLatch = .error r ∧
      sequencerMove s = .next (s.complete (illegalEnding s.cmdLatch))) := by
  unfold sequencerMove
  cases decodeWord s.cmdLatch with
  | ok i => exact .inl ⟨i, rfl, rfl⟩
  | error r => exact .inr ⟨r, rfl, rfl⟩

/-- Everything a host move can be: nothing, a refusal, or the first operation performed. -/
theorem hostMove_cases (s : State) :
    (s.script = [] ∧ hostMove s = .next s) ∨
    (∃ op rest, s.script = op :: rest ∧ op.wellFormed = true ∧ hostMove s = hostPerform op { s with script := rest }) ∨
    (∃ op rest, s.script = op :: rest ∧ op.wellFormed = false ∧ hostMove s = .refused (.accessNotAdmitted op)) := by
  unfold hostMove
  cases h : s.script with
  | nil => exact .inl ⟨rfl, rfl⟩
  | cons op rest =>
    cases hw : op.wellFormed with
    | true => exact .inr (.inl ⟨op, rest, rfl, hw, by simp [hw]⟩)
    | false => exact .inr (.inr ⟨op, rest, rfl, hw, by simp [hw]⟩)

end Sys2Proof.Machine
end

