-- ==== Sys2Proof/Laws/Build.lean ====
section
/-! SUPPORT. `BUILD`: the comparator is a strict total order, `extract_min` takes its least element, and the merge loop
keeps the shape of a forest whose roots are the priority structure. -/

namespace Sys2Proof.Machine

/-! ### The comparator -/

theorem precedes_iff (nodes : List Node) (i j : NodeIdx) :
    precedes nodes i j = true ↔
      (freqOfIdx nodes i).toNat < (freqOfIdx nodes j).toNat ∨
      ((freqOfIdx nodes i).toNat = (freqOfIdx nodes j).toNat ∧ i.toNat < j.toNat) := by
  simp [precedes]

theorem precedes_irrefl (nodes : List Node) (i : NodeIdx) : precedes nodes i i = false := by
  simp [precedes]

theorem precedes_trans {nodes : List Node} {i j k : NodeIdx} (h1 : precedes nodes i j = true)
    (h2 : precedes nodes j k = true) : precedes nodes i k = true := by
  rw [precedes_iff] at *; omega

theorem precedes_total (nodes : List Node) {i j : NodeIdx} (h : i ≠ j) :
    precedes nodes i j = true ∨ precedes nodes j i = true := by
  have : i.toNat ≠ j.toNat := fun e => h (BitVec.eq_of_toNat_eq e)
  rw [precedes_iff, precedes_iff]; omega

theorem precedes_asymm {nodes : List Node} {i j : NodeIdx} (h : precedes nodes i j = true) :
    ¬ precedes nodes j i = true := by
  rw [precedes_iff] at *; omega

/-! ### extract_min -/

/-- The least index is one of the candidates and precedes every other one. -/
theorem leastIdx_spec (nodes : List Node) (js : List NodeIdx) : ∀ best : NodeIdx,
    leastIdx nodes best js ∈ best :: js ∧
    ∀ j ∈ best :: js, j ≠ leastIdx nodes best js → precedes nodes (leastIdx nodes best js) j = true := by
  induction js with
  | nil => intro best; simp [leastIdx]
  | cons k js ih =>
    intro best
    rw [leastIdx]
    by_cases hk : precedes nodes k best = true
    · rw [if_pos hk]
      obtain ⟨hm, hl⟩ := ih k
      refine ⟨List.mem_cons_of_mem _ hm, ?_⟩
      intro j hj hne
      rcases List.mem_cons.1 hj with rfl | hj
      · by_cases e : leastIdx nodes k js = k
        · rw [e]; exact hk
        · exact precedes_trans (hl k (by simp) (Ne.symm e)) hk
      · exact hl j hj hne
    · rw [if_neg hk]
      obtain ⟨hm, hl⟩ := ih best
      refine ⟨?_, ?_⟩
      · rcases List.mem_cons.1 hm with h | h
        · rw [h]; simp
        · exact List.mem_cons_of_mem _ (List.mem_cons_of_mem _ h)
      · intro j hj hne
        rcases List.mem_cons.1 hj with rfl | hj
        · exact hl j (by simp) hne
        · rcases List.mem_cons.1 hj with rfl | hj
          · by_cases e : j = best
            · subst e; exact hl j (by simp) hne
            · have hb : precedes nodes best j = true := by
                rcases precedes_total nodes e with h | h
                · exact absurd h hk
                · exact h
              by_cases e2 : leastIdx nodes best js = best
              · rw [e2]; exact hb
              · exact precedes_trans (hl best (by simp) (Ne.symm e2)) hb
          · exact hl j (List.mem_cons_of_mem _ hj) hne

/-- Everything `extract_min` does: the least index, removed once. -/
theorem extractMin_spec {nodes : List Node} {q q' : List NodeIdx} {a : NodeIdx}
    (h : extractMin nodes q = some (a, q')) :
    a ∈ q ∧ q' = q.erase a ∧ ∀ j ∈ q, j ≠ a → precedes nodes a j = true := by
  cases q with
  | nil => simp [extractMin] at h
  | cons k qs =>
    simp only [extractMin, Option.some.injEq, Prod.mk.injEq] at h
    obtain ⟨rfl, rfl⟩ := h
    exact ⟨(leastIdx_spec nodes qs k).1, rfl, (leastIdx_spec nodes qs k).2⟩

theorem extractMin_none {nodes : List Node} {q : List NodeIdx} (h : extractMin nodes q = none) : q = [] := by
  cases q with
  | nil => rfl
  | cons k qs => simp [extractMin] at h

theorem extractMin_cons (nodes : List Node) {q : List NodeIdx} (h : q ≠ []) :
    ∃ a, extractMin nodes q = some (a, q.erase a) := by
  cases q with
  | nil => exact absurd rfl h
  | cons k qs => exact ⟨_, rfl⟩

/-- The extraction does not depend on the layout of the priority structure. -/
theorem extractMin_perm {nodes : List Node} {q1 q2 : List NodeIdx} (h : q1.Perm q2) {a b : NodeIdx}
    {r1 r2 : List NodeIdx} (h1 : extractMin nodes q1 = some (a, r1)) (h2 : extractMin nodes q2 = some (b, r2)) :
    a = b ∧ r1.Perm r2 := by
  obtain ⟨ha, rfl, hal⟩ := extractMin_spec h1
  obtain ⟨hb, rfl, hbl⟩ := extractMin_spec h2
  have hab : a = b := by
    by_contra hne
    exact precedes_asymm (hal b (h.mem_iff.2 hb) (Ne.symm hne)) (hbl a (h.mem_iff.1 ha) hne)
  subst hab
  exact ⟨rfl, h.erase a⟩

/-! ### One merge -/

/-- Everything the loop does in one round: it stops with fewer than two indices, or merges the two least. -/
theorem mergeLoop_round (fuel : Nat) (nodes : List Node) (q : List NodeIdx) :
    (q.length ≤ 1 ∧ mergeLoop (fuel + 1) nodes q = (nodes, q)) ∨
    (∃ a b, a ∈ q ∧ b ∈ q.erase a ∧
      (∀ j ∈ q, j ≠ a → precedes nodes a j = true) ∧ (∀ j ∈ q.erase a, j ≠ b → precedes nodes b j = true) ∧
      mergeLoop (fuel + 1) nodes q =
        mergeLoop fuel (nodes ++ [mergedNode nodes a b]) (nextIdx nodes :: (q.erase a).erase b)) := by
  cases h1 : extractMin nodes q with
  | none =>
    have := extractMin_none h1
    subst this
    exact .inl ⟨by simp, by simp [mergeLoop, h1]⟩
  | some p =>
    obtain ⟨a, q1⟩ := p
    obtain ⟨ha, rfl, hal⟩ := extractMin_spec h1
    cases h2 : extractMin nodes (q.erase a) with
    | none =>
      have h3 := extractMin_none h2
      have hl := List.length_erase_of_mem ha
      rw [h3] at hl
      simp only [List.length_nil] at hl
      exact .inl ⟨by omega, by simp [mergeLoop, h1, h2]⟩
    | some p2 =>
      obtain ⟨b, q2⟩ := p2
      obtain ⟨hb, rfl, hbl⟩ := extractMin_spec h2
      exact .inr ⟨a, b, ha, hb, hal, hbl, by simp [mergeLoop, h1, h2]⟩

/-! ### Appending a record -/

theorem getElem?_append_one_lt {α : Type} {l : List α} {x : α} {i : Nat} (h : i < l.length) :
    (l ++ [x])[i]? = l[i]? := by
  rw [List.getElem?_append_left h]

theorem getElem?_append_one_eq {α : Type} (l : List α) (x : α) : (l ++ [x])[l.length]? = some x := by simp

theorem getElem?_append_one_some {α : Type} {l : List α} {x y : α} {i : Nat} (h : (l ++ [x])[i]? = some y) :
    (i < l.length ∧ l[i]? = some y) ∨ (i = l.length ∧ x = y) := by
  rcases Nat.lt_trichotomy i l.length with hlt | heq | hgt
  · rw [getElem?_append_one_lt hlt] at h; exact .inl ⟨hlt, h⟩
  · subst heq
    rw [getElem?_append_one_eq] at h
    exact .inr ⟨rfl, Option.some.inj h⟩
  · rw [List.getElem?_eq_none (by simp; omega)] at h
    exact absurd h (by simp)

theorem freqOfIdx_append {nodes : List Node} {x : Node} {i : NodeIdx} (h : i.toNat < nodes.length) :
    freqOfIdx (nodes ++ [x]) i = freqOfIdx nodes i := by
  simp only [freqOfIdx, getElem?_append_one_lt h]

theorem precedes_append {nodes : List Node} {x : Node} {i j : NodeIdx} (hi : i.toNat < nodes.length)
    (hj : j.toNat < nodes.length) : precedes (nodes ++ [x]) i j = precedes nodes i j := by
  simp only [precedes, freqOfIdx_append hi, freqOfIdx_append hj]

theorem isChildOf_append_iff (nodes : List Node) (f : Word) (a b : NodeIdx) (i p : Nat) :
    IsChildOf (nodes ++ [.internal f a b]) i p ↔
      IsChildOf nodes i p ∨ (p = nodes.length ∧ (a.toNat = i ∨ b.toNat = i)) := by
  constructor
  · rintro ⟨f', l, r, hp, hc⟩
    rcases getElem?_append_one_some hp with ⟨-, h⟩ | ⟨rfl, h⟩
    · exact .inl ⟨f', l, r, h, hc⟩
    · injection h with _ h1 h2
      subst h1; subst h2
      exact .inr ⟨rfl, hc⟩
  · rintro (⟨f', l, r, hp, hc⟩ | ⟨rfl, hc⟩)
    · refine ⟨f', l, r, ?_, hc⟩
      have : p < nodes.length := by
        rcases Nat.lt_or_ge p nodes.length with h | h
        · exact h
        · rw [List.getElem?_eq_none h] at hp; exact absurd hp (by simp)
      rw [getElem?_append_one_lt this, hp]
    · exact ⟨f, a, b, getElem?_append_one_eq _ _, hc⟩

theorem isChildOf_lt {nodes : List Node} {i p : Nat} (h : IsChildOf nodes i p) : p < nodes.length := by
  obtain ⟨f, l, r, hp, -⟩ := h
  rcases Nat.lt_or_ge p nodes.length with h | h
  · exact h
  · rw [List.getElem?_eq_none h] at hp; exact absurd hp (by simp)

/-! ### The forest invariant of the merge loop -/

/-- What holds between merges, `n` being the number of leaves: the priority structure holds exactly the records that are
no record's child, and every internal record was made from the two least available ones. -/
structure MergeInv (n : Nat) (nodes : List Node) (q : List NodeIdx) : Prop where
  small : n ≤ 256
  count : nodes.length + q.length = 2 * n
  nodup : q.Nodup
  roots : ∀ j : NodeIdx, j ∈ q ↔ j.toNat < nodes.length ∧ ∀ p, ¬ IsChildOf nodes j.toNat p
  enough : n ≤ nodes.length
  leaves : ∀ i, i < n → ∃ x f, nodes[i]? = some (.leaf x f)
  internals : ∀ i, n ≤ i → i < nodes.length →
    ∃ f l r, nodes[i]? = some (.internal f l r) ∧ l.toNat < i ∧ r.toNat < i ∧ l ≠ r
  oneParent : ∀ i p p', IsChildOf nodes i p → IsChildOf nodes i p' → p = p'
  sums : ∀ (i : Nat) (f : Word) (l r : NodeIdx), nodes[i]? = some (.internal f l r) →
    f = freqOfIdx nodes l + freqOfIdx nodes r
  greedy : ∀ (i : Nat) (f : Word) (l r : NodeIdx), nodes[i]? = some (.internal f l r) →
    AvailableAt nodes i l.toNat ∧ AvailableAt nodes i r.toNat ∧ precedes nodes l r = true ∧
    ∀ j : NodeIdx, AvailableAt nodes i j.toNat → j ≠ l → j ≠ r → precedes nodes r j = true

theorem nextIdx_toNat {n : Nat} {nodes : List Node} {q : List NodeIdx} (h : MergeInv n nodes q) (hq : 1 ≤ q.length) :
    (nextIdx nodes).toNat = nodes.length := by
  have := h.small
  have := h.count
  simp only [nextIdx, BitVec.toNat_ofNat]
  omega

theorem availableAt_append {nodes : List Node} {f : Word} {a b : NodeIdx} {i j : Nat} (hi : i ≤ nodes.length) :
    AvailableAt (nodes ++ [.internal f a b]) i j ↔ AvailableAt nodes i j := by
  unfold AvailableAt
  constructor
  · rintro ⟨h1, h2⟩
    exact ⟨h1, fun p hp hc => h2 p hp ((isChildOf_append_iff _ _ _ _ _ _).2 (.inl hc))⟩
  · rintro ⟨h1, h2⟩
    refine ⟨h1, fun p hp hc => ?_⟩
    rcases (isChildOf_append_iff _ _ _ _ _ _).1 hc with hc | ⟨hc, -⟩
    · exact h2 p hp hc
    · omega

theorem MergeInv.live {n : Nat} {nodes : List Node} {q : List NodeIdx} (h : MergeInv n nodes q) {i : Nat} {f : Word}
    {l r : NodeIdx} (hi : nodes[i]? = some (.internal f l r)) : n ≤ i ∧ i < nodes.length := by
  refine ⟨?_, (List.getElem?_eq_some_iff.1 hi).1⟩
  by_contra hc
  obtain ⟨x, g, hx⟩ := h.leaves i (by omega)
  rw [hx] at hi
  exact absurd hi (by simp)

theorem MergeInv.kids {n : Nat} {nodes : List Node} {q : List NodeIdx} (h : MergeInv n nodes q) {i : Nat} {f : Word}
    {l r : NodeIdx} (hi : nodes[i]? = some (.internal f l r)) : l.toNat < i ∧ r.toNat < i ∧ l ≠ r := by
  obtain ⟨h1, h2⟩ := h.live hi
  obtain ⟨f', l', r', hi', hl, hr, hlr⟩ := h.internals i h1 h2
  rw [hi] at hi'
  injection hi' with hi'
  injection hi' with _ e1 e2
  subst e1; subst e2
  exact ⟨hl, hr, hlr⟩

/-- The records available for the next merge are those the priority structure holds. -/
theorem MergeInv.available_iff {n : Nat} {nodes : List Node} {q : List NodeIdx} (h : MergeInv n nodes q)
    (j : NodeIdx) : AvailableAt nodes nodes.length j.toNat ↔ j ∈ q := by
  rw [h.roots j]
  constructor
  · rintro ⟨h1, h2⟩
    exact ⟨h1, fun p hc => h2 p (isChildOf_lt hc) hc⟩
  · rintro ⟨h1, h2⟩
    exact ⟨h1, fun p _ hc => h2 p hc⟩

theorem MergeInv.not_child_of_last {n : Nat} {nodes : List Node} {q : List NodeIdx} (h : MergeInv n nodes q) (p : Nat) :
    ¬ IsChildOf nodes nodes.length p := by
  rintro ⟨f, l, r, hp, hc⟩
  have hk := h.kids hp
  have := (h.live hp).2
  omega

section Merge

variable {n : Nat} {nodes : List Node} {q : List NodeIdx} (h : MergeInv n nodes q) {a b : NodeIdx}
  (ha : a ∈ q) (hb : b ∈ q.erase a)
include h ha hb

omit ha hb in
theorem MergeInv.mem_rest (j : NodeIdx) : j ∈ (q.erase a).erase b ↔ j ∈ q ∧ j ≠ a ∧ j ≠ b := by
  rw [(h.nodup.erase a).mem_erase_iff, h.nodup.mem_erase_iff]
  exact ⟨fun ⟨x, y, z⟩ => ⟨z, y, x⟩, fun ⟨x, y, z⟩ => ⟨z, y, x⟩⟩

theorem MergeInv.merge_roots (j : NodeIdx) :
    j ∈ nextIdx nodes :: (q.erase a).erase b ↔
      j.toNat < (nodes ++ [mergedNode nodes a b]).length ∧ ∀ p, ¬ IsChildOf (nodes ++ [mergedNode nodes a b]) j.toNat p := by
  have hbq : b ∈ q := List.mem_of_mem_erase hb
  have hla := ((h.roots a).1 ha).1
  have hlb := ((h.roots b).1 hbq).1
  have hnext := nextIdx_toNat h (List.length_pos_of_mem ha)
  rw [List.mem_cons, h.mem_rest]
  simp only [mergedNode, isChildOf_append_iff, List.length_append, List.length_cons, List.length_nil]
  constructor
  · rintro (rfl | ⟨hj, hja, hjb⟩)
    · refine ⟨by omega, ?_⟩
      rintro p (hc | ⟨-, hc⟩)
      · rw [hnext] at hc; exact h.not_child_of_last p hc
      · omega
    · obtain ⟨h1, h2⟩ := (h.roots j).1 hj
      refine ⟨by omega, ?_⟩
      rintro p (hc | ⟨-, hc⟩)
      · exact h2 p hc
      · rcases hc with e | e
        · exact hja (BitVec.eq_of_toNat_eq e.symm)
        · exact hjb (BitVec.eq_of_toNat_eq e.symm)
  · rintro ⟨hlt, hno⟩
    by_cases e : j.toNat = nodes.length
    · left; apply BitVec.eq_of_toNat_eq; omega
    · right
      refine ⟨(h.roots j).2 ⟨by omega, fun p hc => hno p (.inl hc)⟩, ?_, ?_⟩
      · rintro rfl; exact hno _ (.inr ⟨rfl, .inl rfl⟩)
      · rintro rfl; exact hno _ (.inr ⟨rfl, .inr rfl⟩)

theorem MergeInv.merge_oneParent (i p p' : Nat) (hp : IsChildOf (nodes ++ [mergedNode nodes a b]) i p)
    (hp' : IsChildOf (nodes ++ [mergedNode nodes a b]) i p') : p = p' := by
  have hbq : b ∈ q := List.mem_of_mem_erase hb
  simp only [mergedNode, isChildOf_append_iff] at hp hp'
  have key : ∀ p, IsChildOf nodes i p → ¬ (a.toNat = i ∨ b.toNat = i) := by
    rintro p hc (e | e)
    · subst e; exact ((h.roots a).1 ha).2 p hc
    · subst e; exact ((h.roots b).1 hbq).2 p hc
  rcases hp with hp | ⟨e1, hp⟩ <;> rcases hp' with hp' | ⟨e2, hp'⟩
  · exact h.oneParent i p p' hp hp'
  · exact absurd hp' (key p hp)
  · exact absurd hp (key p' hp')
  · omega

theorem MergeInv.merge_internals (i : Nat) (h1 : n ≤ i) (h2 : i < (nodes ++ [mergedNode nodes a b]).length) :
    ∃ f l r, (nodes ++ [mergedNode nodes a b])[i]? = some (.internal f l r) ∧ l.toNat < i ∧ r.toNat < i ∧ l ≠ r := by
  have hbq : b ∈ q := List.mem_of_mem_erase hb
  simp only [List.length_append, List.length_cons, List.length_nil] at h2
  by_cases e : i = nodes.length
  · subst e
    exact ⟨_, a, b, getElem?_append_one_eq _ _, ((h.roots a).1 ha).1, ((h.roots b).1 hbq).1,
      fun e => (h.nodup.mem_erase_iff.1 hb).1 e.symm⟩
  · obtain ⟨f, l, r, hx, hr⟩ := h.internals i h1 (by omega)
    exact ⟨f, l, r, by rw [getElem?_append_one_lt (by omega), hx], hr⟩

theorem MergeInv.merge_sums (i : Nat) (f : Word) (l r : NodeIdx)
    (hi : (nodes ++ [mergedNode nodes a b])[i]? = some (.internal f l r)) :
    f = freqOfIdx (nodes ++ [mergedNode nodes a b]) l + freqOfIdx (nodes ++ [mergedNode nodes a b]) r := by
  have hbq : b ∈ q := List.mem_of_mem_erase hb
  rcases getElem?_append_one_some hi with ⟨-, hi⟩ | ⟨-, hi⟩
  · have hk := h.kids hi
    have := (h.live hi).2
    rw [freqOfIdx_append (by omega), freqOfIdx_append (by omega)]
    exact h.sums i f l r hi
  · injection hi with e0 e1 e2
    subst e1; subst e2
    rw [freqOfIdx_append ((h.roots a).1 ha).1, freqOfIdx_append ((h.roots b).1 hbq).1]
    exact e0.symm

theorem MergeInv.merge_greedy
    (hal : ∀ j ∈ q, j ≠ a → precedes nodes a j = true)
    (hbl : ∀ j ∈ q.erase a, j ≠ b → precedes nodes b j = true) (i : Nat) (f : Word) (l r : NodeIdx)
    (hi : (nodes ++ [mergedNode nodes a b])[i]? = some (.internal f l r)) :
    AvailableAt (nodes ++ [mergedNode nodes a b]) i l.toNat ∧ AvailableAt (nodes ++ [mergedNode nodes a b]) i r.toNat ∧
    precedes (nodes ++ [mergedNode nodes a b]) l r = true ∧
    ∀ j : NodeIdx, AvailableAt (nodes ++ [mergedNode nodes a b]) i j.toNat → j ≠ l → j ≠ r →
      precedes (nodes ++ [mergedNode nodes a b]) r j = true := by
  have hbq : b ∈ q := List.mem_of_mem_erase hb
  have hla := ((h.roots a).1 ha).1
  have hlb := ((h.roots b).1 hbq).1
  simp only [mergedNode] at hi ⊢
  rcases getElem?_append_one_some hi with ⟨hlt, hi⟩ | ⟨e, hi⟩
  · have hk := h.kids hi
    obtain ⟨g1, g2, g3, g4⟩ := h.greedy i f l r hi
    refine ⟨(availableAt_append (by omega)).2 g1, (availableAt_append (by omega)).2 g2, ?_, ?_⟩
    · rw [precedes_append (by omega) (by omega)]; exact g3
    · intro j hj hjl hjr
      have hj' := (availableAt_append (by omega)).1 hj
      have := hj'.1
      rw [precedes_append (by omega) (by omega)]
      exact g4 j hj' hjl hjr
  · injection hi with e0 e1 e2
    subst e1; subst e2; subst e
    refine ⟨(availableAt_append (Nat.le_refl _)).2 ((h.available_iff a).2 ha),
      (availableAt_append (Nat.le_refl _)).2 ((h.available_iff b).2 hbq), ?_, ?_⟩
    · rw [precedes_append hla hlb]
      exact hal b hbq (fun e => (h.nodup.mem_erase_iff.1 hb).1 e)
    · intro j hj hja hjb
      have hj' := (h.available_iff j).1 ((availableAt_append (Nat.le_refl _)).1 hj)
      rw [precedes_append hlb ((h.roots j).1 hj').1]
      exact hbl j (h.nodup.mem_erase_iff.2 ⟨hja, hj'⟩) hjb

/-- One merge keeps the invariant. -/
theorem MergeInv.merge
    (hal : ∀ j ∈ q, j ≠ a → precedes nodes a j = true)
    (hbl : ∀ j ∈ q.erase a, j ≠ b → precedes nodes b j = true) :
    MergeInv n (nodes ++ [mergedNode nodes a b]) (nextIdx nodes :: (q.erase a).erase b) where
  small := h.small
  count := by
    have := h.count
    have := List.length_erase_of_mem ha
    have := List.length_erase_of_mem hb
    have := List.length_pos_of_mem hb
    have := List.length_pos_of_mem ha
    simp only [List.length_append, List.length_cons, List.length_nil]
    omega
  nodup := by
    refine List.nodup_cons.2 ⟨fun hm => ?_, (h.nodup.erase a).erase b⟩
    have h1 := ((h.roots _).1 ((h.mem_rest _).1 hm).1).1
    have h2 := nextIdx_toNat h (List.length_pos_of_mem ha)
    omega
  roots := h.merge_roots ha hb
  enough := by
    have := h.enough
    simp only [List.length_append]; omega
  leaves := by
    intro i hi
    obtain ⟨x, f, hx⟩ := h.leaves i hi
    have := h.enough
    exact ⟨x, f, by rw [getElem?_append_one_lt (by omega), hx]⟩
  internals := h.merge_internals ha hb
  oneParent := h.merge_oneParent ha hb
  sums := h.merge_sums ha hb
  greedy := h.merge_greedy ha hb hal hbl

end Merge

/-- The whole loop keeps the invariant and leaves at most one root. -/
theorem mergeLoop_inv {n : Nat} (fuel : Nat) : ∀ {nodes : List Node} {q : List NodeIdx}, MergeInv n nodes q →
    q.length ≤ fuel →
    MergeInv n (mergeLoop fuel nodes q).1 (mergeLoop fuel nodes q).2 ∧ (mergeLoop fuel nodes q).2.length ≤ 1 ∧
    (q ≠ [] → (mergeLoop fuel nodes q).2 ≠ []) ∧ nodes <+: (mergeLoop fuel nodes q).1 := by
  induction fuel with
  | zero =>
    intro nodes q h hq
    exact ⟨h, by simp only [mergeLoop]; omega, fun hne => hne, List.prefix_rfl⟩
  | succ fuel ih =>
    intro nodes q h hq
    rcases mergeLoop_round fuel nodes q with ⟨hl, e⟩ | ⟨a, b, ha, hb, hal, hbl, e⟩
    · rw [e]; exact ⟨h, hl, fun hne => hne, List.prefix_rfl⟩
    · rw [e]
      have h1 := List.length_erase_of_mem ha
      have h2 := List.length_erase_of_mem hb
      have h3 := List.length_pos_of_mem hb
      obtain ⟨i1, i2, i3, i4⟩ := ih (h.merge ha hb hal hbl) (by simp only [List.length_cons]; omega)
      exact ⟨i1, i2, fun _ => i3 (by simp), (List.prefix_append _ _).trans i4⟩

/-! ### From the frequency table to the tree -/

theorem length_leavesOf (t : Table Word) : (leavesOf t).length = presentCount t := by
  simp [leavesOf_eq, presentCount]

theorem presentCount_le (t : Table Word) : presentCount t ≤ 256 := by
  have := List.length_filter_le (fun x => decide (t.entry x ≠ 0#32)) allSymbols
  rw [length_allSymbols] at this
  exact this

theorem mem_leavesOf {t : Table Word} {x : Byte} {f : Word} :
    Node.leaf x f ∈ leavesOf t ↔ f = t.entry x ∧ f ≠ 0#32 := by
  simp only [leavesOf_eq, List.mem_map, List.mem_filter, decide_eq_true_eq, Node.leaf.injEq]
  constructor
  · rintro ⟨y, ⟨-, hy⟩, rfl, rfl⟩; exact ⟨rfl, hy⟩
  · rintro ⟨rfl, hf⟩; exact ⟨x, ⟨mem_allSymbols x, hf⟩, rfl, rfl⟩

theorem leavesOf_leaf {t : Table Word} {i : Nat} {y : Node} (h : (leavesOf t)[i]? = some y) :
    ∃ x f, y = .leaf x f := by
  have := List.mem_of_getElem? h
  simp only [leavesOf_eq, List.mem_map] at this
  obtain ⟨x, -, rfl⟩ := this
  exact ⟨_, _, rfl⟩

theorem leavesOf_ascending {t : Table Word} {i j : Nat} {x y : Byte} {f g : Word} (hij : i < j)
    (hi : (leavesOf t)[i]? = some (.leaf x f)) (hj : (leavesOf t)[j]? = some (.leaf y g)) : x.toNat < y.toNat := by
  simp only [leavesOf_eq, List.getElem?_map, Option.map_eq_some_iff, Node.leaf.injEq] at hi hj
  obtain ⟨x', hx, rfl, -⟩ := hi
  obtain ⟨y', hy, rfl, -⟩ := hj
  have hs := allSymbols_ascending.sublist (List.filter_sublist (p := fun x => decide (t.entry x ≠ 0#32)))
  obtain ⟨h1, h1'⟩ := List.getElem?_eq_some_iff.1 hx
  obtain ⟨h2, h2'⟩ := List.getElem?_eq_some_iff.1 hy
  have := List.pairwise_iff_getElem.1 hs i j h1 h2 hij
  rwa [h1', h2'] at this

theorem not_isChildOf_leavesOf (t : Table Word) (i p : Nat) : ¬ IsChildOf (leavesOf t) i p := by
  rintro ⟨f, l, r, hp, -⟩
  obtain ⟨x, g, e⟩ := leavesOf_leaf hp
  exact absurd e (by simp)

theorem mem_leafIndices {leaves : List Node} (h : leaves.length ≤ 256) (j : NodeIdx) :
    j ∈ leafIndices leaves ↔ j.toNat < leaves.length := by
  simp only [leafIndices, List.mem_map, List.mem_range]
  constructor
  · rintro ⟨i, hi, rfl⟩
    simp only [BitVec.toNat_ofNat]; omega
  · intro hj
    exact ⟨j.toNat, hj, by simp⟩

/-- The loop starts from the leaves. -/
theorem mergeInv_start (t : Table Word) :
    MergeInv (presentCount t) (leavesOf t) (leafIndices (leavesOf t)) := by
  have hlen := length_leavesOf t
  have hle := presentCount_le t
  have no : ∀ {i : Nat} {f : Word} {l r : NodeIdx}, ¬ (leavesOf t)[i]? = some (.internal f l r) := by
    intro i f l r h
    obtain ⟨x, g, e⟩ := leavesOf_leaf h
    exact absurd e (by simp)
  refine ⟨hle, ?_, ?_, ?_, by omega, ?_, ?_, ?_, ?_, ?_⟩
  · simp only [leafIndices, List.length_map, List.length_range]; omega
  · refine (List.nodup_map_iff_inj_on List.nodup_range).2 ?_
    intro i hi j hj e
    simp only [List.mem_range] at hi hj
    have := congrArg BitVec.toNat e
    simp only [BitVec.toNat_ofNat] at this
    omega
  · intro j
    rw [mem_leafIndices (by omega)]
    exact ⟨fun h => ⟨h, fun p => not_isChildOf_leavesOf t _ p⟩, fun h => h.1⟩
  · intro i hi
    obtain ⟨x, f, e⟩ := leavesOf_leaf (List.getElem?_eq_getElem (by omega : i < (leavesOf t).length))
    exact ⟨x, f, by rw [← e, List.getElem?_eq_getElem]⟩
  · intro i h1 h2; omega
  · intro i p p' h; exact absurd h (not_isChildOf_leavesOf t _ _)
  · intro i f l r h; exact absurd h no
  · intro i f l r h; exact absurd h no

/-- Everything the loop leaves: the forest invariant with at most one root, the leaves in front. -/
theorem buildTree_inv (t : Table Word) :
    MergeInv (presentCount t) (buildTree t).1 (buildTree t).2 ∧ (buildTree t).2.length ≤ 1 ∧
    ((buildTree t).2 = [] ↔ presentCount t = 0) ∧ leavesOf t <+: (buildTree t).1 := by
  have hl : (leafIndices (leavesOf t)).length = (leavesOf t).length := by simp [leafIndices]
  obtain ⟨h1, h2, h3, h4⟩ := mergeLoop_inv (leavesOf t).length (mergeInv_start t) (by omega)
  refine ⟨h1, h2, ?_, h4⟩
  have hlen := length_leavesOf t
  constructor
  · intro e
    by_contra hne
    exact h3 (fun e' => by rw [e'] at hl; simp only [List.length_nil] at hl; omega) e
  · intro e
    have := h1.count
    have := h1.enough
    apply List.eq_nil_of_length_eq_zero
    show (mergeLoop _ _ _).2.length = 0
    omega

/-- A leaf of the arena is a leaf of the table. -/
theorem buildTree_leaf {t : Table Word} {i : Nat} {x : Byte} {f : Word}
    (h : (buildTree t).1[i]? = some (.leaf x f)) : i < presentCount t ∧ (leavesOf t)[i]? = some (.leaf x f) := by
  obtain ⟨h1, -, -, h4⟩ := buildTree_inv t
  have hlen := length_leavesOf t
  have hi : i < presentCount t := by
    by_contra hc
    obtain ⟨f', l, r, e, -⟩ := h1.internals i (by omega) (List.getElem?_eq_some_iff.1 h).1
    rw [h] at e
    exact absurd e (by simp)
  obtain ⟨rest, hr⟩ := h4
  rw [← hr, List.getElem?_append_left (by omega)] at h
  exact ⟨hi, h⟩

theorem buildTree_leaf_iff (t : Table Word) (x : Byte) (f : Word) :
    (∃ i : Nat, (buildTree t).1[i]? = some (.leaf x f)) ↔ (f = t.entry x ∧ f ≠ 0#32) := by
  rw [← mem_leavesOf]
  constructor
  · rintro ⟨i, h⟩
    exact List.mem_of_getElem? (buildTree_leaf h).2
  · intro h
    obtain ⟨i, hi⟩ := List.getElem?_of_mem h
    obtain ⟨rest, hr⟩ := (buildTree_inv t).2.2.2
    refine ⟨i, ?_⟩
    rw [← hr, List.getElem?_append_left (List.getElem?_eq_some_iff.1 hi).1, hi]

/-- With a present symbol the arena is a tree and the remaining index is its root, the last record. -/
theorem buildTree_tree (t : Table Word) (hn : 1 ≤ presentCount t) :
    ArenaTree (buildTree t).1 (presentCount t) ∧
    (buildTree t).2 = [BitVec.ofNat 9 (2 * presentCount t - 2)] := by
  obtain ⟨h1, h2, h3, h4⟩ := buildTree_inv t
  have hne : (buildTree t).2 ≠ [] := fun e => by have := h3.1 e; omega
  obtain ⟨r, hr⟩ : ∃ r, (buildTree t).2 = [r] := by
    match hq : (buildTree t).2 with
    | [] => exact absurd hq hne
    | [r] => exact ⟨r, rfl⟩
    | _ :: _ :: _ => rw [hq] at h2; simp at h2
  have hcount := h1.count
  rw [hr] at hcount
  simp only [List.length_cons, List.length_nil] at hcount
  have hsmall := h1.small
  have hlast : ∀ p, ¬ IsChildOf (buildTree t).1 (2 * presentCount t - 2) p := by
    rintro p ⟨f, l, r', hp, hc⟩
    have := h1.kids hp
    have := (h1.live hp).2
    omega
  have hrt : r = BitVec.ofNat 9 (2 * presentCount t - 2) := by
    have hm := (h1.roots (BitVec.ofNat 9 (2 * presentCount t - 2))).2 (by
      have e : (BitVec.ofNat 9 (2 * presentCount t - 2)).toNat = 2 * presentCount t - 2 := by
        simp only [BitVec.toNat_ofNat]; omega
      rw [e]
      exact ⟨by omega, hlast⟩)
    rw [hr, List.mem_singleton] at hm
    exact hm.symm
  refine ⟨⟨⟨hn, hsmall⟩, by omega, h1.leaves, ?_, fun i a b => h1.internals i a (by omega), ?_⟩, by rw [hr, hrt]⟩
  · intro i j x y f g hij hi hj
    exact leavesOf_ascending hij (buildTree_leaf hi).2 (buildTree_leaf hj).2
  · intro i hi
    by_contra hno
    have hnone : ∀ p, ¬ IsChildOf (buildTree t).1 i p := by
      intro p hp
      exact hno ⟨p, hp, fun p' hp' => h1.oneParent i p' p hp' hp⟩
    have e : (BitVec.ofNat 9 i).toNat = i := by simp only [BitVec.toNat_ofNat]; omega
    have hm := (h1.roots (BitVec.ofNat 9 i)).2 (by rw [e]; exact ⟨by omega, hnone⟩)
    rw [hr, hrt, List.mem_singleton] at hm
    have := congrArg BitVec.toNat hm
    rw [e] at this
    simp only [BitVec.toNat_ofNat] at this
    omega

/-! ### Exact frequencies -/

/-- The exact frequency of the record an index names. -/
def idxFreq (nodes : List Node) (i : NodeIdx) : Nat := (freqOfIdx nodes i).toNat

theorem sum_map_erase {α : Type} [DecidableEq α] (f : α → Nat) {l : List α} {a : α} (h : a ∈ l) :
    (l.map f).sum = f a + ((l.erase a).map f).sum := by
  have := (List.perm_cons_erase h).map f
  rw [this.sum_eq]
  simp

/-- The merges keep the sum over the priority structure, and every sum they make is exact. -/
theorem mergeLoop_sum {n total : Nat} (htot : total < 2 ^ 32) (fuel : Nat) : ∀ {nodes : List Node} {q : List NodeIdx},
    MergeInv n nodes q → (q.map (idxFreq nodes)).sum = total →
    (∀ (i : Nat) (f : Word) (l r : NodeIdx), nodes[i]? = some (.internal f l r) →
      f.toNat = idxFreq nodes l + idxFreq nodes r) →
    ((mergeLoop fuel nodes q).2.map (idxFreq (mergeLoop fuel nodes q).1)).sum = total ∧
    ∀ (i : Nat) (f : Word) (l r : NodeIdx), (mergeLoop fuel nodes q).1[i]? = some (.internal f l r) →
      f.toNat = idxFreq (mergeLoop fuel nodes q).1 l + idxFreq (mergeLoop fuel nodes q).1 r := by
  induction fuel with
  | zero => intro nodes q _ h1 h2; exact ⟨h1, h2⟩
  | succ fuel ih =>
    intro nodes q h h1 h2
    rcases mergeLoop_round fuel nodes q with ⟨hl, e⟩ | ⟨a, b, ha, hb, hal, hbl, e⟩
    · rw [e]; exact ⟨h1, h2⟩
    · rw [e]
      have hbq : b ∈ q := List.mem_of_mem_erase hb
      have hnext := nextIdx_toNat h (List.length_pos_of_mem ha)
      have hsum : total = idxFreq nodes a + (idxFreq nodes b + (((q.erase a).erase b).map (idxFreq nodes)).sum) := by
        rw [← h1, sum_map_erase _ ha, sum_map_erase _ hb]
      have hnew : idxFreq (nodes ++ [mergedNode nodes a b]) (nextIdx nodes) = idxFreq nodes a + idxFreq nodes b := by
        simp only [idxFreq, freqOfIdx, hnext, getElem?_append_one_eq, Option.elim_some, mergedNode, Node.freq,
          BitVec.toNat_add]
        simp only [idxFreq, freqOfIdx] at hsum
        omega
      have hold : ∀ j : NodeIdx, j.toNat < nodes.length →
          idxFreq (nodes ++ [mergedNode nodes a b]) j = idxFreq nodes j := by
        intro j hj; simp only [idxFreq, freqOfIdx_append hj]
      refine ih (h.merge ha hb hal hbl) ?_ ?_
      · rw [List.map_cons, List.sum_cons, hnew]
        have : ((q.erase a).erase b).map (idxFreq (nodes ++ [mergedNode nodes a b])) =
            ((q.erase a).erase b).map (idxFreq nodes) := by
          refine List.map_congr_left (fun j hj => hold j ?_)
          exact ((h.roots j).1 ((h.mem_rest j).1 hj).1).1
        rw [this]; omega
      · intro i f l r hi
        rcases getElem?_append_one_some hi with ⟨-, hi⟩ | ⟨-, hi⟩
        · have hk := h.kids hi
          have := (h.live hi).2
          rw [hold l (by omega), hold r (by omega)]
          exact h2 i f l r hi
        · simp only [mergedNode] at hi
          injection hi with e0 e1 e2
          subst e1; subst e2; subst e0
          rw [hold a ((h.roots a).1 ha).1, hold b ((h.roots b).1 hbq).1]
          rw [BitVec.toNat_add]
          simp only [idxFreq] at hsum ⊢
          omega

theorem sum_filter_ne_zero {α : Type} (f : α → Nat) (l : List α) :
    ((l.filter (fun x => decide (f x ≠ 0))).map f).sum = (l.map f).sum := by
  induction l with
  | nil => rfl
  | cons a l ih =>
    by_cases h : f a = 0
    · rw [List.filter_cons_of_neg (by simp [h]), ih, List.map_cons, List.sum_cons, h, Nat.zero_add]
    · rw [List.filter_cons_of_pos (by simp [h]), List.map_cons, List.sum_cons, ih, List.map_cons, List.sum_cons]

/-- The sum over the leaves is the sum of the table. -/
theorem leaves_sum (t : Table Word) :
    ((leafIndices (leavesOf t)).map (idxFreq (leavesOf t))).sum = freqTotal t := by
  have hle := presentCount_le t
  have hlen := length_leavesOf t
  have h1 : (leafIndices (leavesOf t)).map (idxFreq (leavesOf t)) = (leavesOf t).map (fun y => y.freq.toNat) := by
    apply List.ext_getElem
    · simp [leafIndices]
    · intro i h1 h2
      have hi : i < (leavesOf t).length := by simpa using h2
      have e : (BitVec.ofNat 9 i).toNat = i := by simp only [BitVec.toNat_ofNat]; omega
      simp only [leafIndices, List.getElem_map, List.getElem_range, idxFreq, freqOfIdx, e,
        List.getElem?_eq_getElem hi, Option.elim_some]
  rw [h1, leavesOf_eq, List.map_map, freqTotal, ← sum_filter_ne_zero (fun x => (t.entry x).toNat)]
  have : (fun x => decide (t.entry x ≠ 0#32)) = (fun x => decide ((t.entry x).toNat ≠ 0)) := by
    funext x
    have : t.entry x ≠ 0#32 ↔ (t.entry x).toNat ≠ 0 := by
      rw [ne_eq, ne_eq, ← BitVec.toNat_inj]; simp
    simp only [this]
  rw [this]
  rfl

end Sys2Proof.Machine
end

