-- ==== Sys2Proof/Laws/Codec.lean ====
section
/-! SUPPORT. `EMIT` and `DEC`: tokens and their inverse lookup, the encoding loop, the decimal header, and the decoder
between two payload bytes. -/

namespace Sys2Proof.Machine

/-! ### Tokens and the inverse lookup -/

@[simp] theorem length_tokens (q : Code) : (tokens q).length = q.length := by simp [tokens]

theorem all_isTok_tokens (q : Code) : (tokens q).all isTok = true := by
  induction q with
  | nil => rfl
  | cons b q ih => cases b <;> simp [tokens, tok, isTok]

theorem map_tokBit_tokens (q : Code) : (tokens q).map tokBit = q := by
  induction q with
  | nil => rfl
  | cons b q ih => cases b <;> simpa [tokens, tok, tokBit] using ih

theorem tokens_map_tokBit {c : List Byte} (h : c.all isTok = true) : tokens (c.map tokBit) = c := by
  induction c with
  | nil => rfl
  | cons b c ih =>
    simp only [List.all_cons, Bool.and_eq_true] at h
    have hb : tok (tokBit b) = b := by
      have := h.1
      simp only [isTok, Bool.or_eq_true, beq_iff_eq] at this
      rcases this with rfl | rfl <;> rfl
    simp only [tokens, List.map_cons] at ih ⊢
    rw [hb, ih h.2]

theorem tokens_append (p q : Code) : tokens (p ++ q) = tokens p ++ tokens q := List.map_append

theorem tokens_injective {p q : Code} (h : tokens p = tokens q) : p = q := by
  rw [← map_tokBit_tokens p, h, map_tokBit_tokens]

theorem tokens_take (q : Code) (k : Nat) : tokens (q.take k) = (tokens q).take k := List.map_take

/-- A lookup names the smallest symbol with the code. -/
theorem lookup_some {t : Table Code} {q : Code} {x : Byte} :
    lookup t q = some x ↔ q ≠ [] ∧ t.entry x = q ∧ ∀ y, t.entry y = q → x.toNat ≤ y.toNat := by
  rw [lookup_eq]
  by_cases hq : q = []
  · simp [hq]
  rw [if_neg hq]
  constructor
  · intro h
    refine ⟨hq, by simpa using List.find?_some h, fun y hy => ?_⟩
    obtain ⟨-, as, bs, hsplit, hbefore⟩ := List.find?_eq_some_iff_append.1 h
    by_contra hlt
    have hmem : y ∈ as ++ x :: bs := hsplit ▸ mem_allSymbols y
    have hasc := hsplit ▸ allSymbols_ascending
    rw [List.pairwise_append] at hasc
    rcases List.mem_append.1 hmem with h1 | h1
    · have := hbefore y h1
      simp [hy] at this
    · rcases List.mem_cons.1 h1 with rfl | h1
      · omega
      · have := (List.pairwise_cons.1 hasc.2.1).1 y h1
        omega
  · rintro ⟨-, hx, hmin⟩
    cases h : allSymbols.find? (fun y => t.entry y == q) with
    | none =>
      have := List.find?_eq_none.1 h x (mem_allSymbols x)
      simp [hx] at this
    | some z =>
      obtain ⟨hz, as, bs, hsplit, hbefore⟩ := List.find?_eq_some_iff_append.1 h
      have hmem : x ∈ as ++ z :: bs := hsplit ▸ mem_allSymbols x
      have hasc := hsplit ▸ allSymbols_ascending
      rw [List.pairwise_append] at hasc
      have hzx := hmin z (by simpa using hz)
      rcases List.mem_append.1 hmem with h1 | h1
      · have := hbefore x h1
        simp [hx] at this
      · rcases List.mem_cons.1 h1 with rfl | h1
        · rfl
        · have := (List.pairwise_cons.1 hasc.2.1).1 x h1
          omega

theorem lookup_none {t : Table Code} {q : Code} (hq : q ≠ []) : lookup t q = none ↔ ∀ y, t.entry y ≠ q := by
  rw [lookup_eq]
  rw [if_neg hq, List.find?_eq_none]
  constructor
  · intro h y; simpa using h y (mem_allSymbols y)
  · intro h y _; simpa using h y

theorem lookup_entry {t : Table Code} {q : Code} {x : Byte} (h : lookup t q = some x) : t.entry x = q :=
  (lookup_some.1 h).2.1

theorem matchCand_tokens (t : Table Code) (q : Code) : matchCand t (tokens q) = lookup t q := by
  unfold matchCand
  rw [if_pos (all_isTok_tokens q), map_tokBit_tokens]

/-- A matched candidate is the token spelling of the matched symbol's entry, which is not empty. -/
theorem matchCand_some {t : Table Code} {c : List Byte} {x : Byte} (h : matchCand t c = some x) :
    c = tokens (t.entry x) ∧ t.entry x ≠ [] := by
  unfold matchCand at h
  split at h
  · rename_i hc
    have hl := lookup_some.1 h
    exact ⟨by rw [hl.2.1, tokens_map_tokBit hc], by rw [hl.2.1]; exact hl.1⟩
  · exact absurd h (by simp)

theorem matchCand_nil (t : Table Code) : matchCand t [] = none := rfl

/-! ### `MAX_LEN` -/

theorem foldl_max_le (l : List Nat) : ∀ a : Nat, a ≤ l.foldl max a ∧ (∀ n ∈ l, n ≤ l.foldl max a) ∧
    (l.foldl max a = a ∨ l.foldl max a ∈ l) := by
  induction l with
  | nil => intro a; simp
  | cons n l ih =>
    intro a
    obtain ⟨h1, h2, h3⟩ := ih (max a n)
    simp only [List.foldl_cons]
    refine ⟨by omega, ?_, ?_⟩
    · intro k hk
      rcases List.mem_cons.1 hk with rfl | hk
      · omega
      · exact h2 k hk
    · rcases h3 with h3 | h3
      · rcases Nat.le_total a n with h | h
        · right; rw [h3, Nat.max_eq_right h]; exact List.mem_cons_self
        · left; rw [h3, Nat.max_eq_left h]
      · exact .inr (List.mem_cons_of_mem _ h3)

theorem length_le_maxLen (t : Table Code) (x : Byte) : (t.entry x).length ≤ maxLen t := by
  rw [maxLen_eq]
  exact (foldl_max_le _ 0).2.1 _ (List.mem_map.2 ⟨x, mem_allSymbols x, rfl⟩)

theorem maxLen_attained (t : Table Code) : ∃ x, (t.entry x).length = maxLen t := by
  rcases (foldl_max_le (allSymbols.map (fun x => (t.entry x).length)) 0).2.2 with h | h
  · refine ⟨0#8, ?_⟩
    have := length_le_maxLen t 0#8
    rw [maxLen_eq] at this ⊢
    omega
  · obtain ⟨x, -, hx⟩ := List.mem_map.1 h
    exact ⟨x, by rw [maxLen_eq]; exact hx⟩

theorem maxLen_le {t : Table Code} {n : Nat} (h : ∀ x, (t.entry x).length ≤ n) : maxLen t ≤ n := by
  obtain ⟨x, hx⟩ := maxLen_attained t
  rw [← hx]; exact h x

/-! ### The encoding loop -/

/-- When every byte has an entry and the result fits, the loop appends all codes. -/
theorem emitLoop_ok {t : Table Code} {cap : Nat} : ∀ {bs : List Byte} {i : Nat} {out : List Byte},
    (∀ b ∈ bs, t.entry b ≠ []) → (out ++ bs.flatMap (fun b => tokens (t.entry b))).length ≤ cap →
    emitLoop t cap i bs out = .ok (out ++ bs.flatMap (fun b => tokens (t.entry b))) := by
  intro bs
  induction bs with
  | nil => intro i out _ _; simp [emitLoop]
  | cons b bs ih =>
    intro i out h hc
    simp only [emitLoop]
    rw [if_neg (h b List.mem_cons_self), if_neg (by simp only [List.length_append, List.flatMap_cons] at hc ⊢; omega),
      ih (fun c hc => h c (List.mem_cons_of_mem _ hc)) (by simpa [List.flatMap_cons] using hc)]
    simp [List.flatMap_cons]

/-- What the loop answers when it does not fail. -/
theorem emitLoop_ok_inv {t : Table Code} {cap : Nat} : ∀ {bs : List Byte} {i : Nat} {out r : List Byte},
    emitLoop t cap i bs out = .ok r →
    r = out ++ bs.flatMap (fun b => tokens (t.entry b)) ∧ (∀ b ∈ bs, t.entry b ≠ []) ∧
      (out.length ≤ cap → r.length ≤ cap) := by
  intro bs
  induction bs with
  | nil =>
    intro i out r h
    simp only [emitLoop, Except.ok.injEq] at h
    subst h
    simp
  | cons b bs ih =>
    intro i out r h
    simp only [emitLoop] at h
    split at h
    · exact absurd h (by simp)
    · rename_i hb
      split at h
      · exact absurd h (by simp)
      · rename_i hl
        obtain ⟨h1, h2, h3⟩ := ih h
        refine ⟨by rw [h1]; simp [List.flatMap_cons], ?_, fun _ => h3 (by omega)⟩
        intro c hc
        rcases List.mem_cons.1 hc with rfl | hc
        · exact hb
        · exact h2 c hc

/-- The bytes before a failing one are encoded first. -/
theorem emitLoop_append {t : Table Code} {cap : Nat} (cs : List Byte) : ∀ {bs : List Byte} {i : Nat} {out : List Byte},
    (∀ b ∈ bs, t.entry b ≠ []) → (out ++ bs.flatMap (fun b => tokens (t.entry b))).length ≤ cap →
    emitLoop t cap i (bs ++ cs) out =
      emitLoop t cap (i + bs.length) cs (out ++ bs.flatMap (fun b => tokens (t.entry b))) := by
  intro bs
  induction bs with
  | nil => intro i out _ _; simp
  | cons b bs ih =>
    intro i out h hc
    simp only [List.cons_append, emitLoop]
    rw [if_neg (h b List.mem_cons_self), if_neg (by simp only [List.length_append, List.flatMap_cons] at hc ⊢; omega),
      ih (fun c hc => h c (List.mem_cons_of_mem _ hc)) (by simpa [List.flatMap_cons] using hc)]
    simp only [List.flatMap_cons, List.append_assoc, List.length_cons]
    congr 1
    omega

/-- The ways the loop fails. -/
theorem emitLoop_error {t : Table Code} {cap : Nat} : ∀ {bs : List Byte} {i : Nat} {out : List Byte} {e : Ending},
    emitLoop t cap i bs out = .error e →
    e = ioFailureEnding .pri ∨ ∃ k, k < bs.length ∧ e = unknownSymbolEnding (i + k) ∧ ∃ b, bs[k]? = some b ∧ t.entry b = [] := by
  intro bs
  induction bs with
  | nil => intro i out e h; simp [emitLoop] at h
  | cons b bs ih =>
    intro i out e h
    simp only [emitLoop] at h
    split at h
    · rename_i hb
      injection h with h
      exact .inr ⟨0, by simp, h.symm, b, by simp, hb⟩
    · split at h
      · injection h with h; exact .inl h.symm
      · rcases ih h with h | ⟨k, hk, he, c, hc, hcn⟩
        · exact .inl h
        · refine .inr ⟨k + 1, by simpa using hk, ?_, c, by simpa using hc, hcn⟩
          rw [he]; congr 1; omega

/-! ### The header -/

theorem digitByte_toNat {d : Nat} (h : d < 10) : (digitByte d).toNat = 0x30 + d := by
  simp only [digitByte, BitVec.toNat_ofNat]; omega

theorem isDigit_digitByte {d : Nat} (h : d < 10) : isDigit (digitByte d) = true := by
  unfold isDigit
  rw [digitByte_toNat h]
  simp; omega

theorem digitVal_digitByte {d : Nat} (h : d < 10) : digitVal (digitByte d) = d := by
  unfold digitVal; rw [digitByte_toNat h]; omega

theorem isDigit_ne_newline {c : Byte} (h : isDigit c = true) : c ≠ newlineByte := by
  rintro rfl; exact absurd h (by decide)

/-- The decimal digits of a number below `10 ^ fuel`. -/
theorem decDigits_spec : ∀ (fuel v : Nat), 1 ≤ fuel → v < 10 ^ fuel →
    (decDigits fuel v).all isDigit = true ∧ 1 ≤ (decDigits fuel v).length ∧ (decDigits fuel v).length ≤ fuel ∧
    (decDigits fuel v).foldl (fun n c => 10 * n + digitVal c) 0 = v ∧
    ((decDigits fuel v).head? = some 0x30#8 → v = 0) := by
  intro fuel
  induction fuel with
  | zero => intro v h; omega
  | succ fuel ih =>
    intro v _ hv
    simp only [decDigits]
    split
    · rename_i h
      refine ⟨by simp [isDigit_digitByte h], by simp, by simp, by simp [digitVal_digitByte h], ?_⟩
      intro he
      have := congrArg BitVec.toNat (Option.some.inj he)
      rw [digitByte_toNat h] at this
      simp at this
      exact this
    · rename_i h
      have hf : 1 ≤ fuel := by
        rcases fuel with _ | fuel
        · simp at hv; omega
        · omega
      have hm : v % 10 < 10 := Nat.mod_lt _ (by omega)
      obtain ⟨h1, h2, h3, h4, h5⟩ := ih (v / 10) hf (by rw [Nat.pow_succ] at hv; omega)
      refine ⟨by simp [h1, isDigit_digitByte hm], by simp, by simpa using h3, ?_, ?_⟩
      · rw [List.foldl_append, h4]
        simp only [List.foldl_cons, List.foldl_nil, digitVal_digitByte hm]
        omega
      · intro he
        have hne : decDigits fuel (v / 10) ≠ [] := by
          intro e; rw [e] at h2; simp at h2
        obtain ⟨c, cs, hc⟩ := List.exists_cons_of_ne_nil hne
        rw [hc] at he h5
        have := h5 (by simpa using he)
        omega

theorem dec_spec (v : Dim) :
    (dec v).all isDigit = true ∧ 1 ≤ (dec v).length ∧ (dec v).length ≤ 5 ∧
    (dec v).foldl (fun n c => 10 * n + digitVal c) 0 = v.toNat ∧ ((dec v).head? = some 0x30#8 → v.toNat = 0) :=
  decDigits_spec 5 v.toNat (by omega) (by have := v.isLt; omega)

theorem dec_no_newline (v : Dim) : newlineByte ∉ dec v := fun h =>
  isDigit_ne_newline (List.all_eq_true.1 (dec_spec v).1 _ h) rfl

/-- The header begins with a digit, and its only newline is its last byte. -/
theorem header_shape (w h : Dim) : ∃ c body, header w h = c :: body ++ [newlineByte] ∧ isDigit c = true ∧
    newlineByte ∉ c :: body := by
  have hw := dec_spec w
  obtain ⟨c, cs, hc⟩ := List.exists_cons_of_ne_nil (l := dec w) (by intro e; rw [e] at hw; simp at hw)
  refine ⟨c, cs ++ [spaceByte] ++ dec h, ?_, ?_, ?_⟩
  · simp [header, hc]
  · have := hw.1
    rw [hc, List.all_cons, Bool.and_eq_true] at this
    exact this.1
  · have h1 := dec_no_newline w
    have h2 := dec_no_newline h
    rw [hc] at h1
    intro hm
    simp only [List.mem_cons, List.mem_append, List.append_assoc, List.not_mem_nil, or_false] at hm h1
    rcases hm with hm | hm | hm | hm
    · exact h1 (.inl hm)
    · exact h1 (.inr hm)
    · exact absurd hm (by decide)
    · exact h2 hm

theorem length_header (w h : Dim) : (header w h).length = (dec w).length + 1 + (dec h).length + 1 := by
  simp [header]; omega

/-! ### Where decoding starts -/

theorem findIdx?_newline {pre post : List Byte} (h : newlineByte ∉ pre) :
    (pre ++ newlineByte :: post).findIdx? (· == newlineByte) = some pre.length := by
  induction pre with
  | nil => simp [List.findIdx?_cons]
  | cons b pre ih =>
    have hb : (b == newlineByte) = false := by
      simp only [beq_eq_false_iff_ne]
      rintro rfl
      exact h List.mem_cons_self
    rw [List.cons_append, List.findIdx?_cons, hb, ih (fun hm => h (List.mem_cons_of_mem _ hm))]
    simp

theorem findIdx?_no_newline {l : List Byte} (h : newlineByte ∉ l) : l.findIdx? (· == newlineByte) = none := by
  rw [List.findIdx?_eq_none_iff]
  intro b hb
  simp only [beq_eq_false_iff_ne]
  rintro rfl
  exact h hb

theorem decodeStart_newline {c : Byte} {body post : List Byte} (hc : isDigit c = true) (h : newlineByte ∉ c :: body) :
    decodeStart (c :: body ++ newlineByte :: post) = (c :: body).length + 1 := by
  rw [List.cons_append]
  simp only [decodeStart, hc, if_true]
  rw [← List.cons_append, findIdx?_newline h]

theorem decodeStart_no_newline {c : Byte} {cs : List Byte} (hc : isDigit c = true) (h : newlineByte ∉ c :: cs) :
    decodeStart (c :: cs) = (c :: cs).length := by
  simp only [decodeStart, hc, if_true]
  rw [findIdx?_no_newline h]

theorem decodeStart_header (w h : Dim) (payload : List Byte) :
    decodeStart (header w h ++ payload) = (header w h).length := by
  obtain ⟨c, body, hh, hc, hn⟩ := header_shape w h
  rw [hh]
  have := decodeStart_newline (post := payload) hc hn
  simpa using this

/-! ### The decoder -/

/-- The accumulated output and count do not steer the decoder. -/
theorem foldl_decStep_shift (t : Table Code) (m : Nat) (payload : List Byte) : ∀ (out cand : List Byte) (d : Nat),
    payload.foldl (decStep t m) ⟨out, cand, d⟩ =
      ⟨out ++ (payload.foldl (decStep t m) ⟨[], cand, 0⟩).out, (payload.foldl (decStep t m) ⟨[], cand, 0⟩).cand,
        d + (payload.foldl (decStep t m) ⟨[], cand, 0⟩).dropped⟩ := by
  induction payload with
  | nil => intro out cand d; simp
  | cons b payload ih =>
    intro out cand d
    simp only [List.foldl_cons, decStep]
    cases matchCand t (cand ++ [b]) with
    | some x =>
      simp only
      rw [ih (out ++ [x]) [] d, ih ([] ++ [x]) [] 0]
      simp
    | none =>
      simp only
      split
      · rw [ih out [] (d + _), ih [] [] (0 + _)]
        simp [Nat.add_assoc]
      · rw [ih out _ d]

/-- Bytes that complete no candidate are only collected. -/
theorem foldl_decStep_collect {t : Table Code} {m : Nat} (span : List Byte) : ∀ (cand : List Byte),
    (cand ++ span).length ≤ m → (∀ k, cand.length < k → k ≤ (cand ++ span).length → matchCand t ((cand ++ span).take k) = none) →
    span.foldl (decStep t m) ⟨[], cand, 0⟩ = ⟨[], cand ++ span, 0⟩ := by
  induction span with
  | nil => intro cand _ _; simp
  | cons b span ih =>
    intro cand hl hm
    simp only [List.foldl_cons, decStep]
    have h1 := hm (cand.length + 1) (by omega) (by simp)
    have h2 : (cand ++ b :: span).take (cand.length + 1) = cand ++ [b] := by
      rw [List.take_append]; simp
    rw [h2] at h1
    rw [h1]
    simp only
    rw [if_neg (by simp only [List.length_append, List.length_cons, List.length_nil] at hl ⊢; omega)]
    have e : cand ++ b :: span = cand ++ [b] ++ span := by simp
    rw [e] at hl hm ⊢
    refine ih _ hl ?_
    intro k h1 h2
    exact hm k (by simp only [List.length_append, List.length_cons, List.length_nil] at h1; omega) h2

theorem decodePayload_eq (t : Table Code) (payload : List Byte) : decodePayload t payload =
    ⟨(payload.foldl (decStep t (maxLen t)) ⟨[], [], 0⟩).out, [],
      (payload.foldl (decStep t (maxLen t)) ⟨[], [], 0⟩).dropped +
        (payload.foldl (decStep t (maxLen t)) ⟨[], [], 0⟩).cand.length⟩ := rfl

/-- A code at the head of the payload none of whose shorter prefixes is a code is emitted. -/
theorem decodePayload_code {t : Table Code} {q : Code} {x : Byte} (rest : List Byte) (hx : lookup t q = some x)
    (hp : ∀ k, k < q.length → lookup t (q.take k) = none) :
    decodePayload t (tokens q ++ rest) = ⟨x :: (decodePayload t rest).out, [], (decodePayload t rest).dropped⟩ := by
  have hl := lookup_some.1 hx
  have hmax : q.length ≤ maxLen t := by rw [← hl.2.1]; exact length_le_maxLen t x
  obtain ⟨p, b, rfl⟩ : ∃ p b, q = p ++ [b] := by
    rcases List.eq_nil_or_concat q with h | ⟨p, b, h⟩
    · exact absurd h hl.1
    · exact ⟨p, b, by simpa using h⟩
  have hcollect := foldl_decStep_collect (t := t) (m := maxLen t) (tokens p) []
    (by simp only [List.length_append, List.length_cons, List.length_nil] at hmax; simp; omega)
    (by
      intro k _ hk
      simp only [List.nil_append, length_tokens] at hk ⊢
      rw [← tokens_take, matchCand_tokens]
      have := hp k (by simp; omega)
      rwa [List.take_append_of_le_length hk] at this)
  have hlast : matchCand t (tokens p ++ [tok b]) = some x := by
    rw [← hx, ← matchCand_tokens, tokens_append]; rfl
  have hfold : (tokens (p ++ [b]) ++ rest).foldl (decStep t (maxLen t)) ⟨[], [], 0⟩ =
      rest.foldl (decStep t (maxLen t)) ⟨[x], [], 0⟩ := by
    rw [tokens_append, List.foldl_append, List.foldl_append, hcollect]
    simp only [tokens, List.map_cons, List.map_nil, List.foldl_cons, List.foldl_nil, List.nil_append]
    congr 1
    simp only [decStep]
    simp only [tokens] at hlast
    rw [hlast]
    simp
  rw [decodePayload_eq, decodePayload_eq, hfold, foldl_decStep_shift]
  simp

/-- `MAX_LEN + 1` bytes no prefix of which is a code are discarded. -/
theorem decodePayload_discard {t : Table Code} {span : List Byte} (rest : List Byte) (hl : span.length = maxLen t + 1)
    (hm : ∀ k, k ≤ span.length → matchCand t (span.take k) = none) :
    decodePayload t (span ++ rest) =
      ⟨(decodePayload t rest).out, [], (decodePayload t rest).dropped + (maxLen t + 1)⟩ := by
  obtain ⟨p, b, rfl⟩ : ∃ p b, span = p ++ [b] := by
    rcases List.eq_nil_or_concat span with h | ⟨p, b, h⟩
    · rw [h] at hl; simp at hl
    · exact ⟨p, b, by simpa using h⟩
  have hcollect := foldl_decStep_collect (t := t) (m := maxLen t) p [] (by simp at hl ⊢; omega)
    (by
      intro k _ hk
      have := hm k (by simp at hk ⊢; omega)
      simp only [List.nil_append] at hk ⊢
      rwa [List.take_append_of_le_length hk] at this)
  have hlast : matchCand t (p ++ [b]) = none := by
    have := hm (p ++ [b]).length (Nat.le_refl _)
    rwa [List.take_length] at this
  have hfold : ((p ++ [b]) ++ rest).foldl (decStep t (maxLen t)) ⟨[], [], 0⟩ =
      rest.foldl (decStep t (maxLen t)) ⟨[], [], maxLen t + 1⟩ := by
    rw [List.foldl_append, List.foldl_append, hcollect]
    simp only [List.foldl_cons, List.foldl_nil, List.nil_append, decStep]
    rw [hlast]
    simp only
    rw [if_pos (by omega), hl]
    simp
  rw [decodePayload_eq, decodePayload_eq, hfold, foldl_decStep_shift]
  simp only [List.nil_append, DecAcc.mk.injEq, true_and]
  omega

/-- A short leftover no prefix of which is a code is dropped at the end. -/
theorem decodePayload_leftover {t : Table Code} {span : List Byte} (hl : span.length ≤ maxLen t)
    (hm : ∀ k, k ≤ span.length → matchCand t (span.take k) = none) :
    decodePayload t span = ⟨[], [], span.length⟩ := by
  have := foldl_decStep_collect (t := t) (m := maxLen t) span [] (by simpa using hl)
    (fun k _ hk => hm k (by simpa using hk))
  rw [decodePayload_eq, this]
  simp

/-- What the decoder has read is the codes of what it has put out, discarded bytes, and the candidate. -/
theorem foldl_decStep_account (t : Table Code) (m : Nat) (payload : List Byte) :
    ((payload.foldl (decStep t m) ⟨[], [], 0⟩).out.map (fun x => (t.entry x).length)).sum +
        (payload.foldl (decStep t m) ⟨[], [], 0⟩).dropped + (payload.foldl (decStep t m) ⟨[], [], 0⟩).cand.length =
      payload.length ∧
    ((payload.foldl (decStep t m) ⟨[], [], 0⟩).dropped = 0 →
      payload = (payload.foldl (decStep t m) ⟨[], [], 0⟩).out.flatMap (fun x => tokens (t.entry x)) ++
        (payload.foldl (decStep t m) ⟨[], [], 0⟩).cand) := by
  induction payload using List.reverseRecOn with
  | nil => simp
  | append_singleton payload b ih =>
    rw [List.foldl_append, List.foldl_cons, List.foldl_nil]
    generalize payload.foldl (decStep t m) ⟨[], [], 0⟩ = acc at ih
    obtain ⟨h1, h2⟩ := ih
    simp only [decStep]
    cases h : matchCand t (acc.cand ++ [b]) with
    | some x =>
      have hx := (matchCand_some h).1
      have hlen := congrArg List.length hx
      simp only [List.length_append, List.length_cons, List.length_nil, length_tokens] at hlen
      refine ⟨?_, fun hd => ?_⟩
      · simp only [List.map_append, List.map_cons, List.map_nil, List.sum_append, List.sum_cons, List.sum_nil,
          List.length_append, List.length_cons, List.length_nil]
        omega
      · simp only [List.flatMap_append, List.flatMap_cons, List.flatMap_nil, List.append_nil, ← hx]
        rw [← List.append_assoc, ← h2 hd]
    | none =>
      simp only
      split
      · refine ⟨?_, fun hd => ?_⟩
        · simp only [List.length_append, List.length_cons, List.length_nil]; omega
        · simp at hd
      · refine ⟨?_, fun hd => ?_⟩
        · simp only [List.length_append, List.length_cons, List.length_nil]; omega
        · rw [← List.append_assoc, ← h2 hd]

/-- Decoding the codes of a prefix-free ROM gives the symbols back, nothing dropped. -/
theorem decodePayload_encoded {t : Table Code}
    (hfree : ∀ x y, x ≠ y → t.entry x ≠ [] → t.entry y ≠ [] → ¬ (t.entry x <+: t.entry y)) :
    ∀ {bs : List Byte}, (∀ b ∈ bs, t.entry b ≠ []) →
    decodePayload t (bs.flatMap (fun b => tokens (t.entry b))) = ⟨bs, [], 0⟩ := by
  intro bs
  induction bs with
  | nil => intro _; rfl
  | cons b bs ih =>
    intro h
    have hb := h b List.mem_cons_self
    have hx : lookup t (t.entry b) = some b := by
      refine lookup_some.2 ⟨hb, rfl, fun y hy => ?_⟩
      by_cases e : b = y
      · rw [e]
      · exact absurd (hy ▸ List.prefix_rfl) (hfree b y e hb (by rw [hy]; exact hb))
    rw [List.flatMap_cons, decodePayload_code _ hx, ih (fun c hc => h c (List.mem_cons_of_mem _ hc))]
    intro k hk
    by_cases hk0 : (t.entry b).take k = []
    · rw [hk0]; rfl
    rw [lookup_none hk0]
    intro y hy
    have hyb : y ≠ b := by
      rintro rfl
      have := congrArg List.length hy
      rw [List.length_take] at this
      omega
    exact hfree y b hyb (by rw [hy]; exact hk0) hb (hy ▸ List.take_prefix k _)

/-- Every byte the decoder puts out stands for a code that is not empty. -/
theorem foldl_decStep_out (t : Table Code) (m : Nat) (payload : List Byte) :
    ∀ x ∈ (payload.foldl (decStep t m) ⟨[], [], 0⟩).out, t.entry x ≠ [] := by
  induction payload using List.reverseRecOn with
  | nil => simp
  | append_singleton payload b ih =>
    rw [List.foldl_append, List.foldl_cons, List.foldl_nil]
    generalize payload.foldl (decStep t m) ⟨[], [], 0⟩ = acc at ih
    unfold decStep
    cases h : matchCand t (acc.cand ++ [b]) with
    | some x =>
      intro y hy
      rcases List.mem_append.1 hy with hy | hy
      · exact ih y hy
      · rw [List.mem_singleton.1 hy]; exact (matchCand_some h).2
    | none => simp only; split <;> exact ih

/-- Codes that are not empty are at least as many tokens as symbols. -/
theorem length_le_sum_codes {t : Table Code} {l : List Byte} (h : ∀ b ∈ l, t.entry b ≠ []) :
    l.length ≤ (l.map (fun b => (t.entry b).length)).sum := by
  induction l with
  | nil => simp
  | cons b l ih =>
    have h1 := List.length_pos_iff.2 (h b List.mem_cons_self)
    have h2 := ih (fun c hc => h c (List.mem_cons_of_mem _ hc))
    simp only [List.length_cons, List.map_cons, List.sum_cons]
    omega

/-- No more bytes come out than went in, and no more are dropped. -/
theorem decodePayload_length (t : Table Code) (payload : List Byte) :
    (decodePayload t payload).out.length ≤ payload.length ∧ (decodePayload t payload).dropped ≤ payload.length := by
  have h1 := (foldl_decStep_account t (maxLen t) payload).1
  have h2 := length_le_sum_codes (foldl_decStep_out t (maxLen t) payload)
  rw [decodePayload_eq]
  simp only
  omega

/-- `DEC_COUNT` and `DEC_DROPPED` hold the exact counts. -/
theorem decCounted_toNat (s : State) :
    (decCounted s).decCount.toNat = (decOut s).length ∧
    (decCounted s).decDropped.toNat = (decodeArtifact s.code (s.content .pri)).dropped := by
  have hl := s.lenOf_lt .pri
  have h1 := decodePayload_length s.code ((s.content .pri).drop (decodeStart (s.content .pri)))
  have h2 : ((s.content .pri).drop (decodeStart (s.content .pri))).length ≤ s.lenOf .pri := by
    rw [List.length_drop, s.length_content]; omega
  constructor
  · show (BitVec.ofNat 32 (decOut s).length).toNat = _
    rw [BitVec.toNat_ofNat]
    apply Nat.mod_eq_of_lt
    unfold decOut decodeArtifact
    omega
  · show (BitVec.ofNat 32 (decodeArtifact s.code (s.content .pri)).dropped).toNat = _
    rw [BitVec.toNat_ofNat]
    apply Nat.mod_eq_of_lt
    unfold decodeArtifact
    omega

/-- The ways there is no primary artifact. -/
theorem emitArtifact_error {s : State} {e : Ending} (h : emitArtifact s = .error e) :
    e = ioFailureEnding .src ∨ e = emptyInputEnding ∨ e = ioFailureEnding .pri ∨
      ∃ k, k < s.lenOf .src ∧ e = unknownSymbolEnding k := by
  unfold emitArtifact at h
  split at h
  · injection h with h; exact .inl h.symm
  split at h
  · injection h with h; exact .inr (.inl h.symm)
  split at h
  · injection h with h; exact .inr (.inr (.inl h.symm))
  · rcases emitLoop_error h with h | ⟨k, hk, he, -⟩
    · exact .inr (.inr (.inl h))
    · rw [s.length_content] at hk
      exact .inr (.inr (.inr ⟨k, hk, by simpa using he⟩))

end Sys2Proof.Machine
end

