-- ==== Sys2Proof/Laws/Gen.lean ====
section
/-! SUPPORT. `GEN`: the walk records valid paths only and records every leaf; in a tree the path to a leaf is unique. -/

namespace Sys2Proof.Machine

/-! ### Paths -/

theorem recordAlong_cons {nodes : List Node} {i : NodeIdx} {b : Bool} {bs : Code} {y : Node} :
    recordAlong nodes i (b :: bs) = some y ↔
      ∃ f l r, nodes[i.toNat]? = some (.internal f l r) ∧ recordAlong nodes (if b then r else l) bs = some y := by
  simp only [recordAlong]
  cases h : nodes[i.toNat]? with
  | none => simp
  | some z =>
    cases z with
    | leaf x f => simp
    | internal f l r => simp

theorem recordAlong_leaf_stop {nodes : List Node} {i : NodeIdx} {x : Byte} {f : Word} {q : Code} {y : Node}
    (h : nodes[i.toNat]? = some (.leaf x f)) (hq : recordAlong nodes i q = some y) : q = [] ∧ y = .leaf x f := by
  cases q with
  | nil =>
    rw [recordAlong, h] at hq
    exact ⟨rfl, (Option.some.inj hq).symm⟩
  | cons b bs =>
    obtain ⟨f', l, r, h', -⟩ := recordAlong_cons.1 hq
    rw [h] at h'
    exact absurd h' (by simp)

/-- A path to a leaf is not a proper prefix of a path to a record. -/
theorem recordAlong_prefix {nodes : List Node} {x : Byte} {f : Word} {y : Node} : ∀ {q1 q2 : Code} {i : NodeIdx},
    q1 <+: q2 → recordAlong nodes i q1 = some (.leaf x f) → recordAlong nodes i q2 = some y → y = .leaf x f := by
  intro q1
  induction q1 with
  | nil =>
    intro q2 i _ h1 h2
    exact (recordAlong_leaf_stop h1 h2).2
  | cons b bs ih =>
    intro q2 i hp h1 h2
    obtain ⟨rest, rfl⟩ := hp
    obtain ⟨f1, l, r, e1, h1⟩ := recordAlong_cons.1 h1
    obtain ⟨f2, l', r', e2, h2⟩ := recordAlong_cons.1 h2
    rw [e1] at e2
    injection e2 with e2
    injection e2 with _ a b
    subst a; subst b
    exact ih ⟨rest, rfl⟩ h1 h2

/-! ### The walk -/

/-- The walk changes an entry only to a path that leads to a leaf of that symbol. -/
theorem walk_sound (nodes : List Node) (fuel : Nat) : ∀ (i : NodeIdx) (path : Code) (t : Table Code) (x : Byte),
    (walk nodes fuel i path t).entry x = t.entry x ∨
    ∃ q f, (walk nodes fuel i path t).entry x = path ++ q ∧ recordAlong nodes i q = some (.leaf x f) := by
  induction fuel with
  | zero => intro i path t x; exact .inl rfl
  | succ fuel ih =>
    intro i path t x
    simp only [walk]
    cases h : nodes[i.toNat]? with
    | none => exact .inl rfl
    | some y =>
      cases y with
      | leaf z f =>
        simp only
        rw [Table.entry_put]
        by_cases e : x = z
        · subst e
          exact .inr ⟨[], f, by simp, by simp [recordAlong, h]⟩
        · exact .inl (if_neg e)
      | internal f l r =>
        simp only
        rcases ih r (path ++ [true]) (walk nodes fuel l (path ++ [false]) t) x with hr | ⟨q, g, hq, hp⟩
        · rw [hr]
          rcases ih l (path ++ [false]) t x with hl | ⟨q, g, hq, hp⟩
          · exact .inl hl
          · exact .inr ⟨false :: q, g, by simp [hq], recordAlong_cons.2 ⟨f, l, r, h, by simpa using hp⟩⟩
        · exact .inr ⟨true :: q, g, by simp [hq], recordAlong_cons.2 ⟨f, l, r, h, by simpa using hp⟩⟩

/-- The walk never empties an entry, when it starts below the root. -/
theorem walk_keeps_entry (nodes : List Node) (fuel : Nat) : ∀ (i : NodeIdx) (path : Code) (t : Table Code) (x : Byte),
    path ≠ [] → t.entry x ≠ [] → (walk nodes fuel i path t).entry x ≠ [] := by
  induction fuel with
  | zero => intro i path t x _ h; exact h
  | succ fuel ih =>
    intro i path t x hp h
    simp only [walk]
    cases nodes[i.toNat]? with
    | none => exact h
    | some y =>
      cases y with
      | leaf z f =>
        simp only
        rw [Table.entry_put]
        by_cases e : x = z
        · rw [if_pos e]; exact hp
        · rw [if_neg e]; exact h
      | internal f l r => exact ih _ _ _ _ (by simp) (ih _ _ _ _ (by simp) h)

/-- The walk records every leaf it can reach. -/
theorem walk_complete (nodes : List Node) (fuel : Nat) : ∀ (i : NodeIdx) (path : Code) (t : Table Code) (x : Byte)
    (q : Code) (f : Word), path ++ q ≠ [] → recordAlong nodes i q = some (.leaf x f) → q.length < fuel →
    (walk nodes fuel i path t).entry x ≠ [] := by
  induction fuel with
  | zero => intro i path t x q f _ _ h; omega
  | succ fuel ih =>
    intro i path t x q f hne hq hl
    cases q with
    | nil =>
      rw [recordAlong] at hq
      simp only [walk, hq]
      simpa using hne
    | cons b bs =>
      obtain ⟨g, l, r, e, hq⟩ := recordAlong_cons.1 hq
      simp only [List.length_cons] at hl
      simp only [walk, e]
      cases b with
      | false => exact walk_keeps_entry _ _ _ _ _ _ (by simp) (ih l _ _ x bs f (by simp) (by simpa using hq) (by omega))
      | true => exact ih r _ _ x bs f (by simp) (by simpa using hq) (by omega)

/-! ### Trees -/

section Tree

variable {nodes : List Node} {n : Nat} (h : ArenaTree nodes n)
include h

theorem ArenaTree.internal_of {i : Nat} {f : Word} {l r : NodeIdx} (hi : nodes[i]? = some (.internal f l r)) :
    n ≤ i ∧ i < 2 * n - 1 ∧ l.toNat < i ∧ r.toNat < i ∧ l ≠ r := by
  have hlt := (List.getElem?_eq_some_iff.1 hi).1
  rw [h.size] at hlt
  have hn : n ≤ i := by
    by_contra hc
    obtain ⟨x, g, hx⟩ := h.leaves i (by omega)
    rw [hx] at hi
    exact absurd hi (by simp)
  obtain ⟨f', l', r', hi', hl, hr, hlr⟩ := h.internals i hn hlt
  rw [hi] at hi'
  injection hi' with hi'
  injection hi' with _ e1 e2
  subst e1; subst e2
  exact ⟨hn, hlt, hl, hr, hlr⟩

/-- A path with `k` edges to a record goes through `k` internal records of falling index. -/
theorem ArenaTree.length_path {y : Node} : ∀ {q : Code} {i : NodeIdx}, recordAlong nodes i q = some y →
    q.length ≤ i.toNat + 1 - n ∧ i.toNat < 2 * n - 1 := by
  intro q
  induction q with
  | nil =>
    intro i hq
    rw [recordAlong] at hq
    have := (List.getElem?_eq_some_iff.1 hq).1
    rw [h.size] at this
    exact ⟨by simp, this⟩
  | cons b bs ih =>
    intro i hq
    obtain ⟨f, l, r, e, hq⟩ := recordAlong_cons.1 hq
    have hi := h.internal_of e
    have := ih hq
    simp only [List.length_cons]
    cases b
    · simp only [Bool.false_eq_true, if_false] at this; omega
    · simp only [if_true] at this; omega

/-- Every record is reached from the root, or from a record that is. -/
theorem ArenaTree.reach (k : Nat) : ∀ i : Nat, i < 2 * n - 1 → 2 * n - 2 - i ≤ k →
    ∃ q, ∀ q' , recordAlong nodes (BitVec.ofNat 9 (2 * n - 2)) (q ++ q') = recordAlong nodes (BitVec.ofNat 9 i) q' := by
  have hn := h.leafCount
  induction k with
  | zero =>
    intro i hi hk
    have : i = 2 * n - 2 := by omega
    subst this
    exact ⟨[], fun q' => rfl⟩
  | succ k ih =>
    intro i hi hk
    by_cases e : i = 2 * n - 2
    · subst e; exact ⟨[], fun q' => rfl⟩
    · obtain ⟨p, ⟨f, l, r, hp, hc⟩, -⟩ := h.owned i (by omega)
      have hpi := h.internal_of hp
      obtain ⟨q, hq⟩ := ih p (by omega) (by omega)
      have hpn : (BitVec.ofNat 9 p).toNat = p := by simp only [BitVec.toNat_ofNat]; omega
      rcases hc with e | e
      · refine ⟨q ++ [false], fun q' => ?_⟩
        rw [List.append_assoc, hq]
        have : BitVec.ofNat 9 i = l := by subst e; simp
        simp only [List.cons_append, List.nil_append, recordAlong, hpn, hp, this]
        rfl
      · refine ⟨q ++ [true], fun q' => ?_⟩
        rw [List.append_assoc, hq]
        have : BitVec.ofNat 9 i = r := by subst e; simp
        simp only [List.cons_append, List.nil_append, recordAlong, hpn, hp, this]
        rfl

/-- Every leaf has a path from the root. -/
theorem ArenaTree.leaf_path {i : Nat} {x : Byte} {f : Word} (hi : nodes[i]? = some (.leaf x f)) :
    ∃ q, recordAlong nodes (BitVec.ofNat 9 (2 * n - 2)) q = some (.leaf x f) := by
  have hlt := (List.getElem?_eq_some_iff.1 hi).1
  rw [h.size] at hlt
  have hn := h.leafCount
  obtain ⟨q, hq⟩ := h.reach (2 * n) i hlt (by omega)
  refine ⟨q ++ [], ?_⟩
  rw [hq]
  have : (BitVec.ofNat 9 i).toNat = i := by simp only [BitVec.toNat_ofNat]; omega
  rw [recordAlong, this, hi]

/-- A symbol stands on one leaf. -/
theorem ArenaTree.leaf_unique {i j : Nat} {x : Byte} {f g : Word} (hi : nodes[i]? = some (.leaf x f))
    (hj : nodes[j]? = some (.leaf x g)) : i = j := by
  rcases Nat.lt_trichotomy i j with hlt | e | hgt
  · have := h.ascending i j x x f g hlt hi hj; omega
  · exact e
  · have := h.ascending j i x x g f hgt hj hi; omega

end Tree

/-- The index reached along a path. -/
def indexAlong (nodes : List Node) (i : NodeIdx) : Code → Option NodeIdx
  | [] => some i
  | b :: bs =>
    match nodes[i.toNat]? with
    | some (.internal _ l r) => indexAlong nodes (if b then r else l) bs
    | _ => none

theorem indexAlong_cons {nodes : List Node} {i j : NodeIdx} {b : Bool} {bs : Code} :
    indexAlong nodes i (b :: bs) = some j ↔
      ∃ f l r, nodes[i.toNat]? = some (.internal f l r) ∧ indexAlong nodes (if b then r else l) bs = some j := by
  simp only [indexAlong]
  cases h : nodes[i.toNat]? with
  | none => simp
  | some z => cases z <;> simp

theorem recordAlong_index {nodes : List Node} {y : Node} : ∀ {q : Code} {i : NodeIdx},
    recordAlong nodes i q = some y ↔ ∃ j, indexAlong nodes i q = some j ∧ nodes[j.toNat]? = some y := by
  intro q
  induction q with
  | nil => intro i; simp [recordAlong, indexAlong]
  | cons b bs ih =>
    intro i
    rw [recordAlong_cons]
    constructor
    · rintro ⟨f, l, r, e, h⟩
      obtain ⟨j, h1, h2⟩ := ih.1 h
      exact ⟨j, indexAlong_cons.2 ⟨f, l, r, e, h1⟩, h2⟩
    · rintro ⟨j, h1, h2⟩
      obtain ⟨f, l, r, e, h1⟩ := indexAlong_cons.1 h1
      exact ⟨f, l, r, e, ih.2 ⟨j, h1, h2⟩⟩

theorem indexAlong_concat {nodes : List Node} {b : Bool} {j : NodeIdx} : ∀ {q : Code} {i : NodeIdx},
    indexAlong nodes i (q ++ [b]) = some j ↔
      ∃ p f l r, indexAlong nodes i q = some p ∧ nodes[p.toNat]? = some (.internal f l r) ∧ j = if b then r else l := by
  intro q
  induction q with
  | nil =>
    intro i
    rw [List.nil_append, indexAlong_cons]
    constructor
    · rintro ⟨f, l, r, e, h⟩
      exact ⟨i, f, l, r, rfl, e, (Option.some.inj h).symm⟩
    · rintro ⟨p, f, l, r, hp, e, rfl⟩
      have := Option.some.inj hp
      subst this
      exact ⟨f, l, r, e, rfl⟩
  | cons c q ih =>
    intro i
    rw [List.cons_append, indexAlong_cons]
    constructor
    · rintro ⟨f, l, r, e, h⟩
      obtain ⟨p, f', l', r', h1, h2, h3⟩ := ih.1 h
      exact ⟨p, f', l', r', indexAlong_cons.2 ⟨f, l, r, e, h1⟩, h2, h3⟩
    · rintro ⟨p, f', l', r', h1, h2, h3⟩
      obtain ⟨f, l, r, e, h1⟩ := indexAlong_cons.1 h1
      exact ⟨f, l, r, e, ih.2 ⟨p, f', l', r', h1, h2, h3⟩⟩

theorem ArenaTree.indexAlong_le {nodes : List Node} {n : Nat} (h : ArenaTree nodes n) {j : NodeIdx} :
    ∀ {q : Code} {i : NodeIdx}, indexAlong nodes i q = some j → j.toNat + q.length ≤ i.toNat := by
  intro q
  induction q with
  | nil => intro i hq; have := Option.some.inj hq; subst this; simp
  | cons b bs ih =>
    intro i hq
    obtain ⟨f, l, r, e, hq⟩ := indexAlong_cons.1 hq
    have hi := h.internal_of e
    have := ih hq
    simp only [List.length_cons]
    cases b
    · simp only [Bool.false_eq_true, if_false] at this; omega
    · simp only [if_true] at this; omega

/-- In a tree two paths from the root to the same record are the same path. -/
theorem ArenaTree.path_unique {nodes : List Node} {n : Nat} (h : ArenaTree nodes n) : ∀ (k : Nat) {q1 q2 : Code}
    {j : NodeIdx}, q1.length ≤ k →
    indexAlong nodes (BitVec.ofNat 9 (2 * n - 2)) q1 = some j →
    indexAlong nodes (BitVec.ofNat 9 (2 * n - 2)) q2 = some j → q1 = q2 := by
  have hn := h.leafCount
  have hroot : (BitVec.ofNat 9 (2 * n - 2)).toNat = 2 * n - 2 := by simp only [BitVec.toNat_ofNat]; omega
  intro k
  induction k with
  | zero =>
    intro q1 q2 j hk h1 h2
    have : q1 = [] := List.eq_nil_of_length_eq_zero (by omega)
    subst this
    have := Option.some.inj h1
    subst this
    have := h.indexAlong_le h2
    exact (List.eq_nil_of_length_eq_zero (by omega)).symm
  | succ k ih =>
    intro q1 q2 j hk h1 h2
    rcases List.eq_nil_or_concat q1 with rfl | ⟨p1, b1, rfl⟩
    · have := Option.some.inj h1
      subst this
      have := h.indexAlong_le h2
      exact (List.eq_nil_of_length_eq_zero (by omega)).symm
    · rcases List.eq_nil_or_concat q2 with rfl | ⟨p2, b2, rfl⟩
      · have := Option.some.inj h2
        subst this
        have := h.indexAlong_le h1
        simp only [List.length_append, List.length_cons, List.length_nil, List.concat_eq_append] at this
        omega
      · simp only [List.concat_eq_append] at *
        obtain ⟨i1, f1, l1, r1, e1, n1, c1⟩ := indexAlong_concat.1 h1
        obtain ⟨i2, f2, l2, r2, e2, n2, c2⟩ := indexAlong_concat.1 h2
        have ch1 : IsChildOf nodes j.toNat i1.toNat := ⟨f1, l1, r1, n1, by subst c1; cases b1 <;> simp⟩
        have ch2 : IsChildOf nodes j.toNat i2.toNat := ⟨f2, l2, r2, n2, by rw [c2]; cases b2 <;> simp⟩
        have hi1 := h.internal_of n1
        have hjlt : j.toNat < 2 * n - 2 := by
          have := h.indexAlong_le h1
          simp only [List.length_append, List.length_cons, List.length_nil] at this
          omega
        obtain ⟨p, -, hp⟩ := h.owned j.toNat hjlt
        have hii : i1 = i2 := BitVec.eq_of_toNat_eq ((hp _ ch1).trans (hp _ ch2).symm)
        subst hii
        rw [n1] at n2
        injection n2 with n2
        injection n2 with _ a b
        subst a; subst b
        have hb : b1 = b2 := by
          cases b1 <;> cases b2 <;> simp_all
        subst hb
        have hp12 : p1 = p2 := ih (by simp only [List.length_append, List.length_cons, List.length_nil] at hk; omega) e1 e2
        rw [hp12]

/-! ### The ROM of a tree -/

/-- The ROM of a tree with at least two leaves: an entry is a path to the leaf, and every leaf has one. -/
theorem romOf_tree {nodes : List Node} {n : Nat} (h : ArenaTree nodes n) (hn : 2 ≤ n) (x : Byte) (q : Code) :
    ((romOf nodes (some (BitVec.ofNat 9 (2 * n - 2)))).entry x = q ∧ q ≠ []) ↔
      ∃ f, recordAlong nodes (BitVec.ofNat 9 (2 * n - 2)) q = some (.leaf x f) := by
  have hle := h.leafCount
  have hroot : (BitVec.ofNat 9 (2 * n - 2)).toNat = 2 * n - 2 := by simp only [BitVec.toNat_ofNat]; omega
  obtain ⟨f, l, r, hint, -⟩ := h.internals (2 * n - 2) (by omega) (by omega)
  have e : romOf nodes (some (BitVec.ofNat 9 (2 * n - 2))) =
      walk nodes nodes.length (BitVec.ofNat 9 (2 * n - 2)) [] emptyCode := by
    simp only [romOf, hroot, hint]
  rw [e]
  have sound := walk_sound nodes nodes.length (BitVec.ofNat 9 (2 * n - 2)) [] emptyCode x
  have nonempty : ∀ {q : Code} {y : Byte} {g : Word},
      recordAlong nodes (BitVec.ofNat 9 (2 * n - 2)) q = some (.leaf y g) → q ≠ [] := by
    rintro q y g hq rfl
    rw [recordAlong, hroot, hint] at hq
    exact absurd hq (by simp)
  constructor
  · rintro ⟨hq, hne⟩
    rcases sound with hs | ⟨p, g, hp, hr⟩
    · rw [emptyCode_entry, hq] at hs; exact absurd hs hne
    · rw [List.nil_append, hq] at hp
      subst hp
      exact ⟨g, hr⟩
  · rintro ⟨g, hg⟩
    have hne := nonempty hg
    refine ⟨?_, hne⟩
    have hlen := h.length_path hg
    have hc := walk_complete nodes nodes.length (BitVec.ofNat 9 (2 * n - 2)) [] emptyCode x q g (by simpa using hne) hg
      (by have := h.size; omega)
    rcases sound with hs | ⟨p, g', hp, hr⟩
    · rw [emptyCode_entry] at hs; exact absurd hs hc
    · rw [List.nil_append] at hp
      rw [hp]
      obtain ⟨j1, a1, b1⟩ := recordAlong_index.1 hg
      obtain ⟨j2, a2, b2⟩ := recordAlong_index.1 hr
      have : j1 = j2 := BitVec.eq_of_toNat_eq (h.leaf_unique b1 b2)
      subst this
      exact h.path_unique _ (Nat.le_refl _) a2 a1

theorem romOf_leaf {nodes : List Node} {r : NodeIdx} {x : Byte} {f : Word} (h : nodes[r.toNat]? = some (.leaf x f)) :
    romOf nodes (some r) = emptyCode.put x [false] := by
  simp only [romOf, h]

theorem romOf_not_leaf {nodes : List Node} {r : NodeIdx} (h : ∀ x f, nodes[r.toNat]? ≠ some (.leaf x f)) :
    romOf nodes (some r) = walk nodes nodes.length r [] emptyCode := by
  simp only [romOf]

/-- A ROM made by `GEN` is prefix-free, whatever the arena. -/
theorem romOf_prefixFree (nodes : List Node) (root : Option NodeIdx) {x y : Byte} (hxy : x ≠ y)
    (hx : (romOf nodes root).entry x ≠ []) (hy : (romOf nodes root).entry y ≠ []) :
    ¬ ((romOf nodes root).entry x <+: (romOf nodes root).entry y) := by
  intro hp
  cases root with
  | none => exact hx (emptyCode_entry x)
  | some r =>
    by_cases hl : ∃ z f, nodes[r.toNat]? = some (.leaf z f)
    · obtain ⟨z, f, hz⟩ := hl
      rw [romOf_leaf hz, Table.entry_put, emptyCode_entry] at hx hy
      have h1 : x = z := by by_contra hc; exact hx (if_neg hc)
      have h2 : y = z := by by_contra hc; exact hy (if_neg hc)
      exact hxy (h1.trans h2.symm)
    · rw [romOf_not_leaf (fun z f e => hl ⟨z, f, e⟩)] at hx hy hp
      rcases walk_sound nodes nodes.length r [] emptyCode x with hs | ⟨p, f, hpx, hr⟩
      · rw [hs, emptyCode_entry] at hx; exact hx rfl
      · rcases walk_sound nodes nodes.length r [] emptyCode y with hs | ⟨p', f', hpy, hr'⟩
        · rw [hs, emptyCode_entry] at hy; exact hy rfl
        · rw [hpx, hpy, List.nil_append, List.nil_append] at hp
          have := recordAlong_prefix hp hr hr'
          injection this with this _
          exact hxy this.symm

end Sys2Proof.Machine
end

