-- ==== Sys2Proof/Laws/Host.lean ====
section
/-! SUPPORT. The host's side: what does not depend on it, what a host move is, and that commands neither read it nor write
it. -/

namespace Sys2Proof.Machine

/-- The host's side of the state replaced. -/
def State.withHost (s : State) (script : List HostOp) (responses : List HostValue) (hostSlots draws : Nat) : State :=
  { s with script := script, responses := responses, hostSlots := hostSlots, draws := draws }

section
variable (s : State) (a : List HostOp) (b : List HostValue) (c d : Nat)

@[simp] theorem State.space_withHost (S : Space) : (s.withHost a b c d).space S = s.space S := by cases S <;> rfl
@[simp] theorem State.capOf_withHost (S : Space) : (s.withHost a b c d).capOf S = s.capOf S := by cases S <;> rfl
@[simp] theorem State.lenOf_withHost (S : Space) : (s.withHost a b c d).lenOf S = s.lenOf S := by cases S <;> rfl
@[simp] theorem State.memRead_withHost (S : Space) (k : Nat) : (s.withHost a b c d).memRead S k = s.memRead S k := by
  cases S <;> rfl
@[simp] theorem State.content_withHost (S : Space) : (s.withHost a b c d).content S = s.content S := by cases S <;> rfl
@[simp] theorem State.statusWord_withHost : (s.withHost a b c d).statusWord = s.statusWord := rfl
@[simp] theorem State.busy_withHost : (s.withHost a b c d).busy = s.busy := rfl
@[simp] theorem State.draws_withHost : (s.withHost a b c d).draws = d := rfl
@[simp] theorem State.wordAt_withHost (off : Nat) : (s.withHost a b c d).wordAt off = s.wordAt off := by
  unfold State.wordAt
  cases regAt off with
  | none => rfl
  | some r => cases r <;> rfl

/-- Every stage works the same whatever the host's side, and leaves it alone. -/
theorem commandBody_withHost (i : Instr) : commandBody i (s.withHost a b c d) =
    ((commandBody i s).1.withHost a b c d, (commandBody i s).2) := by
  have hsample : ∀ s : State, sampleBody (s.withHost a b c d) = ((sampleBody s).1.withHost a b c d, (sampleBody s).2) := by
    intro s
    unfold sampleBody
    simp only [State.capOf_withHost, State.lenOf_withHost, State.content_withHost]
    split <;> rfl
  have hbuild : ∀ s : State, buildBody (s.withHost a b c d) = ((buildBody s).1.withHost a b c d, (buildBody s).2) := by
    intro s
    unfold buildBody
    rw [show (s.withHost a b c d).freq = s.freq from rfl]
    generalize buildTree s.freq = p
    obtain ⟨nodes, q⟩ := p
    cases q <;> rfl
  have hgen : ∀ s : State, genBody (s.withHost a b c d) = ((genBody s).1.withHost a b c d, (genBody s).2) := fun _ => rfl
  have hemitA : ∀ s : State, emitArtifact (s.withHost a b c d) = emitArtifact s := by
    intro s
    unfold emitArtifact
    simp only [State.capOf_withHost, State.lenOf_withHost, State.content_withHost]
    rfl
  have htsaveA : ∀ s : State, tsaveArtifact (s.withHost a b c d) = tsaveArtifact s := by
    intro s
    unfold tsaveArtifact
    rw [State.capOf_withHost]; rfl
  have hlen : ∀ (s : State) S n, (s.withHost a b c d).setLen S n = (s.setLen S n).withHost a b c d := by
    intro s S n; cases S <;> rfl
  have hcommit : ∀ (s : State) S out, (s.withHost a b c d).commit S out = (s.commit S out).withHost a b c d := by
    intro s S out; cases S <;> rfl
  have htload : ∀ s : State, tloadBody (s.withHost a b c d) = ((tloadBody s).1.withHost a b c d, (tloadBody s).2) := by
    intro s
    unfold tloadBody
    simp only [State.capOf_withHost, State.lenOf_withHost, State.content_withHost]
    split
    · rfl
    · split <;> rfl
  have hdec : ∀ s : State, decBody (s.withHost a b c d) = ((decBody s).1.withHost a b c d, (decBody s).2) := by
    intro s
    have hdel : ∀ (s : State) out, decDeliver (s.withHost a b c d) out =
        ((decDeliver s out).1.withHost a b c d, (decDeliver s out).2) := by
      intro s out
      unfold decDeliver
      rw [State.capOf_withHost, hcommit]
      split
      · rfl
      · rw [show (s.withHost a b c d).expected = s.expected from rfl]
        split <;> rfl
    unfold decBody
    simp only [State.capOf_withHost, State.lenOf_withHost, State.content_withHost]
    split
    · rfl
    · exact hdel (decCounters (decClear s) _) _
  cases i with
  | nop => rfl
  | clr => rfl
  | sample => exact hsample s
  | build => exact hbuild s
  | gen => rfl
  | emit =>
    show emitBody _ = ((emitBody s).1.withHost a b c d, (emitBody s).2)
    unfold emitBody
    rw [hemitA, hlen]
    cases emitArtifact s with
    | error e => rfl
    | ok out => simp only [hcommit]
  | tsave =>
    show tsaveBody _ = ((tsaveBody s).1.withHost a b c d, (tsaveBody s).2)
    unfold tsaveBody
    rw [htsaveA, hlen]
    cases tsaveArtifact s with
    | error e => rfl
    | ok out => simp only [hcommit]
  | tload => exact htload s
  | dec => exact hdec s
  | encode =>
    have hart : ∀ s : State, encodeArtifacts (s.withHost a b c d) =
        ((encodeArtifacts s).1.withHost a b c d, (encodeArtifacts s).2) := by
      intro s
      unfold encodeArtifacts
      rw [hemitA, htsaveA]
      cases emitArtifact s with
      | error e => rfl
      | ok pri =>
        cases tsaveArtifact s with
        | error e => rfl
        | ok sdc => simp only [hcommit]
    have hthen : ∀ (f g : State → State × Ending),
        (∀ s : State, f (s.withHost a b c d) = ((f s).1.withHost a b c d, (f s).2)) →
        (∀ s : State, g (s.withHost a b c d) = ((g s).1.withHost a b c d, (g s).2)) →
        ∀ s : State, andThen (f (s.withHost a b c d)) g =
          ((andThen (f s) g).1.withHost a b c d, (andThen (f s) g).2) := by
      intro f g hf hg s
      unfold andThen
      rw [hf]
      simp only
      split
      · exact hg _
      · rfl
    have hstages : ∀ s : State, encodeStages (s.withHost a b c d) =
        ((encodeStages s).1.withHost a b c d, (encodeStages s).2) :=
      hthen (fun s => andThen (andThen (sampleBody s) buildBody) genBody) _
        (hthen (fun s => andThen (sampleBody s) buildBody) _ (hthen sampleBody _ hsample hbuild) hgen) hart
    have hcall : ∀ s : State, encodeCall (s.withHost a b c d) =
        ((encodeCall s).1.withHost a b c d, (encodeCall s).2) := by
      intro s
      unfold encodeCall
      rw [State.capOf_withHost, State.lenOf_withHost, hstages]
      split
      · rfl
      · split <;> rfl
    show encodeBody _ = ((encodeBody s).1.withHost a b c d, (encodeBody s).2)
    unfold encodeBody
    have : encodeStart (s.withHost a b c d) = (encodeStart s).withHost a b c d := rfl
    rw [this, hcall]
    rfl
  | decode =>
    show decodeBody _ = ((decodeBody s).1.withHost a b c d, (decodeBody s).2)
    unfold decodeBody andThen
    have : decodeStartState (s.withHost a b c d) = (decodeStartState s).withHost a b c d := rfl
    rw [this, htload]
    simp only
    split
    · exact hdec _
    · rfl

end

/-! ### A host move -/

/-- The state in which an idle machine performs the head of the script. -/
theorem step_idle {s : State} {op : HostOp} {rest : List HostOp} (hs : s.script = op :: rest) (hb : s.busy = false)
    (hw : op.wellFormed = true) : step s = hostPerform op (s.withHost rest s.responses s.hostSlots s.draws) := by
  unfold step hostMove State.withHost
  simp only [hb, hs, hw, if_true]
  rfl

/-- The same while a command runs. -/
theorem step_during {s : State} {op : HostOp} {rest : List HostOp} (hs : s.script = op :: rest) (hb : s.busy = true)
    (hm : s.hostMovesFirst = true) (hw : op.wellFormed = true) :
    step s = hostPerform op (s.withHost rest s.responses (s.hostSlots - 1) s.draws) := by
  unfold step hostMove State.spendSlot State.withHost
  simp only [hb, hm, hs, hw, if_true]

/-- The step that performs an admitted register write of an idle machine's host. -/
theorem step_regWrite_idle {s : State} {off : Nat} {v : Word} {rest : List HostOp} (hs : s.script = .regWrite off 4 v :: rest)
    (hb : s.busy = false) (h4 : off % 4 = 0) (hlt : off < 0x100) :
    step s = .next ({ s with script := rest }.regWrite off v) := by
  rw [step_idle hs hb (by simp [HostOp.wellFormed, regAccessWellFormed, h4, hlt])]
  rfl

/-- The same while a command runs: nothing of HTB changes. -/
theorem step_regWrite_during {s : State} {off : Nat} {v : Word} {rest : List HostOp}
    (hs : s.script = .regWrite off 4 v :: rest) (hb : s.busy = true) (hm : s.hostMovesFirst = true) (h4 : off % 4 = 0)
    (hlt : off < 0x100) : step s = .next { s with script := rest, hostSlots := s.hostSlots - 1 } := by
  rw [step_during hs hb hm (by simp [HostOp.wellFormed, regAccessWellFormed, h4, hlt])]
  exact congrArg Host.Outcome.next (if_pos hb)

theorem step_illFormed {s : State} {op : HostOp} {rest : List HostOp} (hs : s.script = op :: rest)
    (hm : s.busy = true → s.hostMovesFirst = true) (hw : op.wellFormed = false) :
    step s = .refused (.accessNotAdmitted op) := by
  unfold step hostMove State.spendSlot
  cases hb : s.busy with
  | true => simp [hm hb, hs, hw]
  | false => simp [hs, hw]

theorem hostSlots_pos {s : State} (h : s.hostMovesFirst = true) : 0 < s.hostSlots ∧ s.script ≠ [] := by
  unfold State.hostMovesFirst at h
  simp only [Bool.and_eq_true, decide_eq_true_eq, Bool.not_eq_true', List.isEmpty_eq_false_iff] at h
  exact h

end Sys2Proof.Machine
end

