-- ==== Sys2Proof/Laws/Sample.lean ====
section
/-! SUPPORT. `SAMPLE`: the counters of a buffer are exact. -/

namespace Sys2Proof.Machine

theorem sum_map_ite_eq (x : Byte) (l : List Byte) (h : l.Nodup) (hx : x ∈ l) :
    (l.map (fun y => if y = x then 1 else 0)).sum = 1 := by
  induction l with
  | nil => simp at hx
  | cons y l ih =>
    obtain ⟨hy, hl⟩ := List.nodup_cons.1 h
    rw [List.map_cons, List.sum_cons]
    by_cases e : y = x
    · subst e
      have : (l.map (fun z => if z = y then 1 else 0)).sum = 0 := by
        rw [List.sum_eq_zero]
        intro k hk
        obtain ⟨z, hz, rfl⟩ := List.mem_map.1 hk
        rw [if_neg (by rintro rfl; exact hy hz)]
      rw [this, if_pos rfl]
    · rw [if_neg e, ih hl (by simpa [Ne.symm e] using hx)]

/-- The occurrences of all symbols in a buffer are its bytes. -/
theorem sum_count (buffer : List Byte) : (allSymbols.map (fun x => buffer.count x)).sum = buffer.length := by
  induction buffer with
  | nil => simp
  | cons b buffer ih =>
    have e : (allSymbols.map (fun x => (b :: buffer).count x)) =
        allSymbols.map (fun x => buffer.count x + if x = b then 1 else 0) := by
      apply List.map_congr_left
      intro x _
      rw [List.count_cons]
      by_cases h : x = b
      · simp [h]
      · simp [h, Ne.symm h]
    rw [e, List.sum_map_add, ih, sum_map_ite_eq b allSymbols allSymbols_nodup (mem_allSymbols b), List.length_cons]

theorem foldl_countByte_entry (x : Byte) (buffer : List Byte) : ∀ t : Table Word,
    (t.entry x).toNat + buffer.count x < 2 ^ 32 →
    ((buffer.foldl countByte t).entry x).toNat = (t.entry x).toNat + buffer.count x := by
  induction buffer with
  | nil => intro t _; simp
  | cons b buffer ih =>
    intro t h
    rw [List.foldl_cons]
    have he : ((countByte t b).entry x).toNat = (t.entry x).toNat + if b = x then 1 else 0 := by
      unfold countByte
      rw [Table.entry_put]
      by_cases e : x = b
      · subst e
        simp only [List.count_cons_self] at h
        rw [if_pos rfl, if_pos rfl, BitVec.toNat_add]
        simp only [BitVec.toNat_ofNat]
        omega
      · rw [if_neg e, if_neg (Ne.symm e)]; rfl
    rw [List.count_cons] at h ⊢
    have hb : (if (b == x) = true then 1 else 0) = if b = x then 1 else 0 := by simp
    rw [hb] at h ⊢
    rw [ih _ (by rw [he]; omega), he]
    omega

/-- `FREQ[x]` is the number of offsets of the buffer that hold `x` (41_sample.md R66). -/
theorem countBytes_entry {buffer : List Byte} (h : buffer.length < 2 ^ 32) (x : Byte) :
    ((countBytes buffer).entry x).toNat = buffer.count x := by
  have hc := List.count_le_length (a := x) (l := buffer)
  have h0 : (emptyFreq.entry x).toNat = 0 := by simp
  unfold countBytes
  rw [foldl_countByte_entry x buffer emptyFreq (by rw [h0]; omega), h0, Nat.zero_add]

theorem countBytes_ne_zero {buffer : List Byte} (h : buffer.length < 2 ^ 32) (x : Byte) :
    (countBytes buffer).entry x ≠ 0#32 ↔ x ∈ buffer := by
  rw [← List.count_pos_iff, ← countBytes_entry h x]
  constructor
  · intro hn
    rcases Nat.eq_zero_or_pos ((countBytes buffer).entry x).toNat with h0 | h0
    · exact absurd (BitVec.eq_of_toNat_eq (by simpa using h0)) hn
    · exact h0
  · intro hp he
    rw [he] at hp
    simp at hp

theorem freqTotal_countBytes {buffer : List Byte} (h : buffer.length < 2 ^ 32) :
    freqTotal (countBytes buffer) = buffer.length := by
  unfold freqTotal
  rw [← sum_count buffer]
  exact congrArg List.sum (List.map_congr_left (fun x _ => countBytes_entry h x))

theorem presentCount_countBytes {buffer : List Byte} (h : buffer.length < 2 ^ 32) :
    presentCount (countBytes buffer) = buffer.dedup.length := by
  unfold presentCount
  apply List.Perm.length_eq
  refine (List.perm_ext_iff_of_nodup (allSymbols_nodup.filter _) (List.nodup_dedup _)).2 ?_
  intro x
  rw [List.mem_filter, List.mem_dedup, ← countBytes_ne_zero h x]
  simp [mem_allSymbols]

theorem presentCount_pos {buffer : List Byte} (h : buffer.length < 2 ^ 32) (hne : buffer ≠ []) :
    1 ≤ presentCount (countBytes buffer) := by
  rw [presentCount_countBytes h]
  obtain ⟨b, bs, rfl⟩ := List.exists_cons_of_ne_nil hne
  exact List.length_pos_iff.2 (List.ne_nil_of_mem (List.mem_dedup.2 List.mem_cons_self))

end Sys2Proof.Machine
end

