-- ==== Sys2Proof/Laws/TableIo.lean ====
section
/-! SUPPORT. `TSAVE` and `TLOAD`: the record loop, the splitting into lines, the well-formed lines, and the ROM that a
list of lines leaves. -/

namespace Sys2Proof.Machine

/-! ### TSAVE -/

theorem length_dec3 (x : Byte) : (dec3 x).length = 3 := rfl

theorem length_record (x : Byte) (q : Code) : (record x q).length = 5 + q.length := by
  simp [record, length_dec3]; omega

/-- The records of a list of symbols with their entries. -/
def recordsOf (es : List (Byte × Code)) : List Byte := (es.filter (fun e => e.2 ≠ [])).flatMap (fun e => record e.1 e.2)

theorem sidecarArtifact_eq (t : Table Code) : sidecarArtifact t = recordsOf t.entries := by
  unfold sidecarArtifact recordsOf
  rw [codedSymbols_eq, t.entries_eq, List.filter_map, List.flatMap_map]
  rfl

theorem recordsOf_cons_none {x : Byte} {es : List (Byte × Code)} : recordsOf ((x, []) :: es) = recordsOf es := by
  simp [recordsOf]

theorem recordsOf_cons_some {x : Byte} {q : Code} {es : List (Byte × Code)} (h : q ≠ []) :
    recordsOf ((x, q) :: es) = record x q ++ recordsOf es := by
  simp [recordsOf, h, List.flatMap_cons]

/-- The loop answers all records if they fit, else the overflow. -/
theorem tsaveLoop_eq {cap : Nat} : ∀ {es : List (Byte × Code)} {out : List Byte}, out.length ≤ cap →
    tsaveLoop cap es out =
      if (out ++ recordsOf es).length ≤ cap then .ok (out ++ recordsOf es) else .error (ioFailureEnding .sdc) := by
  intro es
  induction es with
  | nil => intro out h; simp [tsaveLoop, recordsOf, h]
  | cons e es ih =>
    intro out h
    obtain ⟨x, q⟩ := e
    simp only [tsaveLoop]
    by_cases hq : q = []
    · subst hq
      rw [if_pos rfl, ih h, recordsOf_cons_none]
    · rw [if_neg hq, recordsOf_cons_some hq, ← List.append_assoc]
      split
      · rename_i hc
        rw [if_neg (by rw [List.length_append]; omega)]
      · exact ih (by omega)

theorem tsaveArtifact_eq (s : State) : tsaveArtifact s =
    if (sidecarArtifact s.code).length ≤ s.capOf .sdc then .ok (sidecarArtifact s.code)
    else .error (ioFailureEnding .sdc) := by
  rw [tsaveArtifact, tsaveLoop_eq (Nat.zero_le _), List.nil_append, sidecarArtifact_eq]

/-- The two ways the body of `TSAVE` ends. -/
theorem tsaveBody_eq (s : State) : tsaveBody s =
    if (sidecarArtifact s.code).length ≤ s.capOf .sdc then (s.commit .sdc (sidecarArtifact s.code), okEnding)
    else (s.setLen .sdc 0#32, ioFailureEnding .sdc) := by
  unfold tsaveBody
  rw [tsaveArtifact_eq]
  by_cases h : (sidecarArtifact s.code).length ≤ s.capOf .sdc
  · rw [if_pos h, if_pos h]
  · rw [if_neg h, if_neg h]

theorem length_sidecarArtifact (t : Table Code) :
    (sidecarArtifact t).length = ((codedSymbols t).map (fun x => 5 + (t.entry x).length)).sum := by
  rw [sidecarArtifact, List.length_flatMap]
  simp only [length_record]

theorem length_codedSymbols_le (t : Table Code) : (codedSymbols t).length ≤ 256 := by
  rw [codedSymbols_eq, ← length_allSymbols]; exact List.length_filter_le _ _

theorem symCount_eq_zero (t : Table Code) : symCount t = 0 ↔ ∀ x, t.entry x = [] := by
  unfold symCount
  rw [codedSymbols_eq, List.length_eq_zero_iff, List.filter_eq_nil_iff]
  constructor
  · intro h x; simpa using h x (mem_allSymbols x)
  · intro h x _; simpa using h x

theorem sidecarArtifact_of_empty {t : Table Code} (h : symCount t = 0) : sidecarArtifact t = [] := by
  unfold symCount at h
  rw [sidecarArtifact, List.eq_nil_of_length_eq_zero h]; rfl

theorem sum_map_le {α : Type} (f : α → Nat) (k : Nat) (l : List α) (h : ∀ x ∈ l, f x ≤ k) : (l.map f).sum ≤ l.length * k := by
  induction l with
  | nil => simp
  | cons x l ih =>
    have h1 := h x List.mem_cons_self
    have h2 := ih (fun y hy => h y (List.mem_cons_of_mem _ hy))
    simp only [List.map_cons, List.sum_cons, List.length_cons, Nat.succ_mul]
    omega

/-- The largest sidecar: 256 records of 260 bytes (45_table_io.md R126). -/
theorem length_sidecarArtifact_le {t : Table Code} (h : RomFits t) : (sidecarArtifact t).length ≤ 66560 := by
  rw [length_sidecarArtifact]
  have h1 := sum_map_le (fun x => 5 + (t.entry x).length) 260 (codedSymbols t) (fun x _ => by have := h x; omega)
  have h2 := length_codedSymbols_le t
  have : (codedSymbols t).length * 260 ≤ 256 * 260 := Nat.mul_le_mul_right _ h2
  omega

/-! ### Lines -/

theorem linesFrom_newline {pre : List Byte} (post : List Byte) (h : newlineByte ∉ pre) : ∀ cur : List Byte,
    linesFrom cur (pre ++ newlineByte :: post) = (cur ++ pre) :: linesOf post := by
  induction pre with
  | nil => intro cur; simp [linesFrom, linesOf]
  | cons b pre ih =>
    intro cur
    have hb : b ≠ newlineByte := by rintro rfl; exact h List.mem_cons_self
    rw [List.cons_append, linesFrom, if_neg hb, ih (fun hm => h (List.mem_cons_of_mem _ hm))]
    simp

theorem linesFrom_no_newline {l : List Byte} (h : newlineByte ∉ l) : ∀ cur : List Byte,
    linesFrom cur l = if cur ++ l = [] then [] else [cur ++ l] := by
  induction l with
  | nil => intro cur; simp [linesFrom]
  | cons b l ih =>
    intro cur
    have hb : b ≠ newlineByte := by rintro rfl; exact h List.mem_cons_self
    rw [linesFrom, if_neg hb, ih (fun hm => h (List.mem_cons_of_mem _ hm))]
    simp

/-- Lines that end with a newline each, put together, split into themselves. -/
theorem linesOf_flatMap {α : Type} (f : α → List Byte) (hf : ∀ a, newlineByte ∉ f a) (l : List α) :
    linesOf (l.flatMap (fun a => f a ++ [newlineByte])) = l.map f := by
  induction l with
  | nil => rfl
  | cons a l ih =>
    rw [List.flatMap_cons, List.map_cons, ← ih]
    have := linesFrom_newline (l.flatMap (fun a => f a ++ [newlineByte])) (hf a) []
    simpa [linesOf] using this

/-! ### Well-formed lines -/

theorem parseLine_some {line : List Byte} {x : Byte} {q : Code} : parseLine line = some (x, q) ↔
    ∃ d0 d1 d2, line = d0 :: d1 :: d2 :: spaceByte :: tokens q ∧ 1 ≤ q.length ∧ q.length ≤ 255 ∧
      isDigit d0 = true ∧ isDigit d1 = true ∧ isDigit d2 = true ∧ x.toNat = symbolField d0 d1 d2 := by
  constructor
  · intro h
    unfold parseLine at h
    split at h
    · split at h
      · rename_i d0 d1 d2 sp toks hc
        simp only [Bool.and_eq_true, decide_eq_true_eq, beq_iff_eq] at hc
        obtain ⟨⟨⟨⟨⟨⟨⟨h0, h1⟩, h2⟩, h3⟩, rfl⟩, h5⟩, h6⟩, h7⟩ := hc
        injection h with h
        injection h with hx hq
        subst hq
        refine ⟨d0, d1, d2, by rw [tokens_map_tokBit h7], by simpa using h5, by simpa using h6, h0, h1, h2, ?_⟩
        rw [← hx, BitVec.toNat_ofNat]
        omega
      · exact absurd h (by simp)
    · exact absurd h (by simp)
  · rintro ⟨d0, d1, d2, rfl, h1, h2, hd0, hd1, hd2, hx⟩
    have := x.isLt
    simp only [parseLine]
    rw [if_pos]
    · rw [map_tokBit_tokens, ← hx]; simp
    · simp only [Bool.and_eq_true, decide_eq_true_eq, beq_iff_eq, length_tokens]
      exact ⟨⟨⟨⟨⟨⟨⟨hd0, hd1⟩, hd2⟩, by omega⟩, trivial⟩, h1⟩, h2⟩, all_isTok_tokens q⟩

/-- The line of a record. -/
def recordLine (x : Byte) (q : Code) : List Byte := dec3 x ++ [spaceByte] ++ tokens q

theorem record_eq (x : Byte) (q : Code) : record x q = recordLine x q ++ [newlineByte] := by
  simp [record, recordLine]

theorem tokens_no_newline (q : Code) : newlineByte ∉ tokens q := by
  intro h
  have := List.all_eq_true.1 (all_isTok_tokens q) _ h
  exact absurd this (by decide)

theorem recordLine_no_newline (x : Byte) (q : Code) : newlineByte ∉ recordLine x q := by
  have hd : ∀ d, d < 10 → newlineByte ≠ digitByte d := fun d hd e =>
    isDigit_ne_newline (isDigit_digitByte hd) e.symm
  have := x.isLt
  intro h
  simp only [recordLine, dec3, List.mem_append, List.mem_cons, List.not_mem_nil, or_false] at h
  rcases h with ((h | h | h) | h) | h
  · exact hd _ (by omega) h
  · exact hd _ (by omega) h
  · exact hd _ (by omega) h
  · exact absurd h (by decide)
  · exact tokens_no_newline q h

/-- A record's line parses to its symbol and code. -/
theorem parseLine_recordLine (x : Byte) {q : Code} (h1 : q ≠ []) (h2 : q.length ≤ 255) :
    parseLine (recordLine x q) = some (x, q) := by
  have hx := x.isLt
  refine parseLine_some.2 ⟨_, _, _, rfl, List.length_pos_iff.2 h1, h2, isDigit_digitByte (by omega),
    isDigit_digitByte (by omega), isDigit_digitByte (by omega), ?_⟩
  unfold symbolField
  rw [digitVal_digitByte (by omega), digitVal_digitByte (by omega), digitVal_digitByte (by omega)]
  omega

/-! ### The ROM of a list of lines -/

theorem loadLine_some {acc : LoadAcc} {line : List Byte} {x : Byte} {q : Code} (h : parseLine line = some (x, q)) :
    loadLine acc line = ⟨acc.code.put x q, acc.malformed⟩ := by
  unfold loadLine; rw [h]

theorem loadLine_none {acc : LoadAcc} {line : List Byte} (h : parseLine line = none) :
    loadLine acc line = ⟨acc.code, true⟩ := by
  unfold loadLine; rw [h]

theorem foldl_loadLine_entry (x : Byte) (lines : List (List Byte)) : ∀ acc : LoadAcc,
    (lines.foldl loadLine acc).code.entry x =
      ((lines.filterMap parseLine).filter (fun p => p.1 == x)).getLast?.elim (acc.code.entry x) Prod.snd := by
  induction lines using List.reverseRecOn with
  | nil => intro acc; rfl
  | append_singleton lines line ih =>
    intro acc
    rw [List.foldl_append, List.foldl_cons, List.foldl_nil, List.filterMap_append, List.filter_append]
    cases h : parseLine line with
    | none =>
      rw [loadLine_none h]
      simp only [List.filterMap_cons, h, List.filterMap_nil, List.filter_nil, List.append_nil]
      exact ih acc
    | some p =>
      obtain ⟨y, q⟩ := p
      rw [loadLine_some h]
      simp only [List.filterMap_cons, h, List.filterMap_nil, List.filter_cons, List.filter_nil]
      rw [Table.entry_put]
      by_cases e : x = y
      · subst e; simp
      · have : (y == x) = false := by simpa using fun e' => e e'.symm
        rw [if_neg e, this]
        simpa using ih acc

theorem foldl_loadLine_malformed (lines : List (List Byte)) : ∀ acc : LoadAcc,
    (lines.foldl loadLine acc).malformed = true ↔ acc.malformed = true ∨ ∃ line ∈ lines, parseLine line = none := by
  induction lines with
  | nil => intro acc; simp
  | cons line lines ih =>
    intro acc
    rw [List.foldl_cons, ih]
    unfold loadLine
    cases h : parseLine line with
    | none => simp [h]
    | some p => simp [h]

theorem loadLines_fits (data : List Byte) : RomFits (loadLines data).code := by
  intro x
  unfold loadLines
  rw [foldl_loadLine_entry]
  cases h : (((linesOf data).filterMap parseLine).filter (fun p => p.1 == x)).getLast? with
  | none => simp
  | some p =>
    have hm := List.mem_of_getLast? h
    obtain ⟨line, -, hl⟩ := List.mem_filterMap.1 (List.mem_filter.1 hm).1
    obtain ⟨y, q⟩ := p
    obtain ⟨-, -, -, -, -, hq, -⟩ := parseLine_some.1 hl
    exact hq

/-- Loading the sidecar of a ROM gives the ROM back, no line malformed. -/
theorem loadLines_sidecarArtifact {t : Table Code} (h : RomFits t) :
    (loadLines (sidecarArtifact t)).code = t ∧ (loadLines (sidecarArtifact t)).malformed = false := by
  have hlines : linesOf (sidecarArtifact t) = (codedSymbols t).map (fun x => recordLine x (t.entry x)) := by
    unfold sidecarArtifact
    simp only [record_eq]
    exact linesOf_flatMap (fun x => recordLine x (t.entry x)) (fun x => recordLine_no_newline x _) _
  have hparse : ∀ x ∈ codedSymbols t, parseLine (recordLine x (t.entry x)) = some (x, t.entry x) := by
    intro x hx
    exact parseLine_recordLine x (mem_codedSymbols.1 hx) (h x)
  constructor
  · apply Table.ext_entry
    intro x
    unfold loadLines
    rw [foldl_loadLine_entry, hlines, List.filterMap_map]
    have e : (codedSymbols t).filterMap (parseLine ∘ fun x => recordLine x (t.entry x)) =
        (codedSymbols t).map (fun x => (x, t.entry x)) := by
      rw [← List.filterMap_eq_map]
      exact List.filterMap_congr hparse
    rw [e]
    by_cases hx : t.entry x = []
    · have : ((codedSymbols t).map (fun x => (x, t.entry x))).filter (fun p => p.1 == x) = [] := by
        rw [List.filter_eq_nil_iff]
        intro p hp
        obtain ⟨y, hy, rfl⟩ := List.mem_map.1 hp
        simp only [beq_iff_eq]
        rintro rfl
        exact mem_codedSymbols.1 hy hx
      rw [this, hx, emptyCode_entry]
      rfl
    · cases hl : (((codedSymbols t).map (fun x => (x, t.entry x))).filter (fun p => p.1 == x)).getLast? with
      | none =>
        have := List.getLast?_eq_none_iff.1 hl
        rw [List.filter_eq_nil_iff] at this
        have := this (x, t.entry x) (List.mem_map.2 ⟨x, mem_codedSymbols.2 hx, rfl⟩)
        simp at this
      | some p =>
        have hm := List.mem_filter.1 (List.mem_of_getLast? hl)
        obtain ⟨y, -, rfl⟩ := List.mem_map.1 hm.1
        have : y = x := by simpa using hm.2
        subst this
        rfl
  · rw [Bool.eq_false_iff]
    intro hm
    obtain hm | ⟨line, hl, hp⟩ := (foldl_loadLine_malformed _ _).1 hm
    · exact absurd hm (by simp)
    · rw [hlines] at hl
      obtain ⟨x, hx, rfl⟩ := List.mem_map.1 hl
      rw [hparse x hx] at hp
      exact absurd hp (by simp)

end Sys2Proof.Machine
end

