-- ==== Sys2Proof/Laws/Macro.lean ====
section
/-! SUPPORT. The stages put together: the ROM of a table or a buffer, the primary artifact of a covered buffer, and the
ways `ENCODE` ends. -/

namespace Sys2Proof.Machine

/-! ### The ROM of a tree, of a table, of a buffer -/

/-- A single leaf is the only entry, with the code `0`. -/
theorem romOf_single {nodes : List Node} {x : Byte} {f : Word} (h : nodes[0]? = some (.leaf x f)) (y : Byte) :
    (romOf nodes (some (BitVec.ofNat 9 0))).entry y = if y = x then [false] else [] := by
  rw [romOf_leaf (x := x) (f := f) (by simpa using h), Table.entry_put, emptyCode_entry]

/-- In a tree exactly the leaves' symbols have an entry. -/
theorem romOf_tree_entry_iff {nodes : List Node} {n : Nat} (h : ArenaTree nodes n) (x : Byte) :
    (romOf nodes (some (BitVec.ofNat 9 (2 * n - 2)))).entry x ≠ [] ↔ ∃ (i : Nat) (f : Word), nodes[i]? = some (.leaf x f) := by
  have hle := h.leafCount
  by_cases hn : n = 1
  · subst hn
    obtain ⟨z, g, hz⟩ := h.leaves 0 (by omega)
    have hsize := h.size
    rw [romOf_single hz]
    constructor
    · intro hne
      have hxz : x = z := by by_contra hc; exact hne (if_neg hc)
      subst hxz
      exact ⟨0, g, hz⟩
    · rintro ⟨i, f, hi⟩
      have := (List.getElem?_eq_some_iff.1 hi).1
      have : i = 0 := by omega
      subst this
      rw [hz] at hi
      injection hi with hi
      injection hi with hi _
      rw [if_pos hi.symm]; simp
  · have ht := fun q => romOf_tree h (by omega) x q
    constructor
    · intro hne
      obtain ⟨f, hf⟩ := (ht _).1 ⟨rfl, hne⟩
      obtain ⟨j, -, hj⟩ := recordAlong_index.1 hf
      exact ⟨_, f, hj⟩
    · rintro ⟨i, f, hi⟩
      obtain ⟨q, hq⟩ := h.leaf_path hi
      have := (ht q).2 ⟨f, hq⟩
      rw [this.1]; exact this.2

/-- In a tree with at least two leaves no code is longer than the leaves but one. -/
theorem romOf_tree_length {nodes : List Node} {n : Nat} (h : ArenaTree nodes n) (hn : 2 ≤ n) (x : Byte) :
    ((romOf nodes (some (BitVec.ofNat 9 (2 * n - 2)))).entry x).length ≤ n - 1 := by
  by_cases hx : (romOf nodes (some (BitVec.ofNat 9 (2 * n - 2)))).entry x = []
  · rw [hx]; simp
  · obtain ⟨f, hf⟩ := (romOf_tree h hn x _).1 ⟨rfl, hx⟩
    have := (h.length_path hf).1
    have hle := h.leafCount
    simp only [BitVec.toNat_ofNat] at this
    omega

/-- The ROM of an arena that is empty or a tree fits. -/
theorem romOf_fits {nodes : List Node} {root : Option NodeIdx} (h : ArenaOk nodes root) : RomFits (romOf nodes root) := by
  intro x
  rcases h with ⟨-, rfl⟩ | ⟨n, h, rfl⟩
  · show (emptyCode.entry x).length ≤ 255
    simp
  · have hle := h.leafCount
    by_cases hn : n = 1
    · subst hn
      obtain ⟨z, g, hz⟩ := h.leaves 0 (by omega)
      rw [romOf_single hz]
      split <;> simp
    · have := romOf_tree_length h (by omega) x
      omega

/-- The arena and the root that `BUILD` leaves for a table. -/
theorem buildTree_arena (t : Table Word) :
    (presentCount t = 0 ∧ (buildTree t).2 = [] ) ∨
    (1 ≤ presentCount t ∧ ArenaTree (buildTree t).1 (presentCount t) ∧
      (buildTree t).2 = [BitVec.ofNat 9 (2 * presentCount t - 2)]) := by
  rcases Nat.eq_zero_or_pos (presentCount t) with h | h
  · exact .inl ⟨h, (buildTree_inv t).2.2.1.2 h⟩
  · exact .inr ⟨h, buildTree_tree t h⟩

/-- The ROM of a table: `SAMPLE`'s counts through `BUILD` and `GEN`. -/
def romOfTable (t : Table Word) : Table Code := romOf (buildTree t).1 (buildTree t).2.head?

theorem romOfTable_entry_iff (t : Table Word) (x : Byte) : (romOfTable t).entry x ≠ [] ↔ t.entry x ≠ 0#32 := by
  unfold romOfTable
  rcases buildTree_arena t with ⟨h0, he⟩ | ⟨h1, ht, he⟩
  · rw [he]
    have : t.entry x = 0#32 := by
      have := List.filter_eq_nil_iff.1 (List.eq_nil_of_length_eq_zero h0) x (mem_allSymbols x)
      simpa using this
    simp [romOf, this]
  · rw [he]
    rw [show ([BitVec.ofNat 9 (2 * presentCount t - 2)] : List NodeIdx).head? = some _ from rfl, romOf_tree_entry_iff ht x]
    constructor
    · rintro ⟨i, f, hi⟩
      have := (buildTree_leaf_iff t x f).1 ⟨i, hi⟩
      rw [← this.1]; exact this.2
    · intro hne
      obtain ⟨i, hi⟩ := (buildTree_leaf_iff t x (t.entry x)).2 ⟨rfl, hne⟩
      exact ⟨i, _, hi⟩

theorem romOfTable_fits (t : Table Word) : RomFits (romOfTable t) := by
  unfold romOfTable
  rcases buildTree_arena t with ⟨h0, he⟩ | ⟨h1, ht, he⟩
  · rw [he]; intro x; simp [romOf]
  · rw [he]; exact romOf_fits (.inr ⟨_, ht, rfl⟩)

theorem romOfTable_prefixFree (t : Table Word) {x y : Byte} (hxy : x ≠ y) (hx : (romOfTable t).entry x ≠ [])
    (hy : (romOfTable t).entry y ≠ []) : ¬ ((romOfTable t).entry x <+: (romOfTable t).entry y) :=
  romOf_prefixFree _ _ hxy hx hy

theorem romOfBuffer_eq (buffer : List Byte) : romOfBuffer buffer = romOfTable (countBytes buffer) := rfl

theorem romOfBuffer_entry_iff {buffer : List Byte} (h : buffer.length < 2 ^ 32) (x : Byte) :
    (romOfBuffer buffer).entry x ≠ [] ↔ x ∈ buffer := by
  rw [romOfBuffer_eq, romOfTable_entry_iff, countBytes_ne_zero h]

/-! ### The primary artifact of a covered buffer -/

theorem emitLoop_covered {t : Table Code} {cap : Nat} : ∀ {bs : List Byte} {i : Nat} {out : List Byte},
    (∀ b ∈ bs, t.entry b ≠ []) → out.length ≤ cap →
    emitLoop t cap i bs out =
      if (out ++ bs.flatMap (fun b => tokens (t.entry b))).length ≤ cap then
        .ok (out ++ bs.flatMap (fun b => tokens (t.entry b)))
      else .error (ioFailureEnding .pri) := by
  intro bs
  induction bs with
  | nil => intro i out _ h; simp [emitLoop, h]
  | cons b bs ih =>
    intro i out h hc
    simp only [emitLoop]
    rw [if_neg (h b List.mem_cons_self), List.flatMap_cons, ← List.append_assoc]
    split
    · rw [if_neg (by rw [List.length_append]; omega)]
    · exact ih (fun c hc => h c (List.mem_cons_of_mem _ hc)) (by omega)

/-- With every buffer byte covered, the artifact or the overflow. -/
theorem emitArtifact_covered {s : State} (h1 : 1 ≤ s.lenOf .src) (h2 : s.lenOf .src ≤ s.capOf .src)
    (hc : ∀ b ∈ s.content .src, s.code.entry b ≠ []) :
    emitArtifact s =
      if (primaryArtifact s.width s.height (s.content .src) s.code).length ≤ s.capOf .pri then
        .ok (primaryArtifact s.width s.height (s.content .src) s.code)
      else .error (ioFailureEnding .pri) := by
  unfold emitArtifact primaryArtifact
  rw [if_neg (by omega), if_neg (by omega)]
  split
  · rw [if_neg (by rw [List.length_append]; omega)]
  · exact emitLoop_covered hc (by omega)

/-- What the artifact is whenever there is one. -/
theorem emitArtifact_ok {s : State} {out : List Byte} (h : emitArtifact s = .ok out) :
    1 ≤ s.lenOf .src ∧ s.lenOf .src ≤ s.capOf .src ∧ out = primaryArtifact s.width s.height (s.content .src) s.code ∧
      out.length ≤ s.capOf .pri ∧ ∀ b ∈ s.content .src, s.code.entry b ≠ [] := by
  unfold emitArtifact at h
  split at h
  · exact absurd h (by simp)
  · split at h
    · exact absurd h (by simp)
    · split at h
      · exact absurd h (by simp)
      · obtain ⟨h1, h2, h3⟩ := emitLoop_ok_inv h
        exact ⟨by omega, by omega, h1, h3 (by omega), h2⟩

/-! ### The ways `ENCODE` ends -/

/-- The state between the stages of `ENCODE`: the tables of the buffer. -/
def encodeTables (s : State) : State :=
  { encodeStart s with
    freq := countBytes (s.content .src), nodes := (buildTree (countBytes (s.content .src))).1,
    root := (buildTree (countBytes (s.content .src))).2.head?, code := romOfBuffer (s.content .src) }

section
variable (s : State)

@[simp] theorem encodeTables_freq : (encodeTables s).freq = countBytes (s.content .src) := rfl
@[simp] theorem encodeTables_nodes : (encodeTables s).nodes = (buildTree (countBytes (s.content .src))).1 := rfl
@[simp] theorem encodeTables_root : (encodeTables s).root = (buildTree (countBytes (s.content .src))).2.head? := rfl
@[simp] theorem encodeTables_code : (encodeTables s).code = romOfBuffer (s.content .src) := rfl
@[simp] theorem encodeTables_caps : (encodeTables s).caps = s.caps := rfl
@[simp] theorem encodeTables_width : (encodeTables s).width = s.width := rfl
@[simp] theorem encodeTables_height : (encodeTables s).height = s.height := rfl
@[simp] theorem encodeTables_space (S : Space) : (encodeTables s).space S = s.space S := by cases S <;> rfl
@[simp] theorem encodeTables_capOf (S : Space) : (encodeTables s).capOf S = s.capOf S := by cases S <;> rfl
@[simp] theorem encodeTables_memRead (S : Space) (k : Nat) : (encodeTables s).memRead S k = s.memRead S k := by
  cases S <;> rfl
theorem encodeTables_lenOf (S : Space) : (encodeTables s).lenOf S = if S = .pri ∨ S = .sdc then 0 else s.lenOf S := by
  cases S <;> rfl

end

theorem encodeStages_eq {s : State} (h1 : 1 ≤ s.lenOf .src) (h2 : s.lenOf .src ≤ s.capOf .src) :
    encodeStages (encodeStart s) = encodeArtifacts (encodeTables s) := by
  have hlen : (s.content .src).length < 2 ^ 32 := by rw [s.length_content]; exact s.lenOf_lt _
  have hpos := presentCount_pos hlen (by intro e; have := s.length_content .src; rw [e] at this; simp at this; omega)
  have hs : sampleBody (encodeStart s) =
      ({ encodeStart s with freq := countBytes (s.content .src) }, okEnding) := by
    unfold sampleBody
    rw [if_neg (show ¬ (encodeStart s).capOf .src < (encodeStart s).lenOf .src from Nat.not_lt.2 h2)]
    rfl
  have hb : buildBody { encodeStart s with freq := countBytes (s.content .src) } =
      ({ encodeStart s with
          freq := countBytes (s.content .src), nodes := (buildTree (countBytes (s.content .src))).1,
          root := (buildTree (countBytes (s.content .src))).2.head? }, okEnding) := by
    rcases buildBody_cases { encodeStart s with freq := countBytes (s.content .src) } with ⟨he, -⟩ | ⟨r, rest, hr, he⟩
    · have := (buildTree_inv (countBytes (s.content .src))).2.2.1.1 he
      omega
    · rw [he]
      have hr' : (buildTree (countBytes (s.content .src))).2 = r :: rest := hr
      rw [hr']
      rfl
  unfold encodeStages
  rw [hs]
  simp only [andThen, okEnding, if_true]
  rw [hb]
  simp only [okEnding, if_true, genBody]
  rfl

/-- The ways the body of `ENCODE` ends. -/
theorem encodeBody_cases (s : State) :
    (s.capOf .src < s.lenOf .src ∧ encodeBody s = ((encodeStart s).dropTree, ioFailureEnding .src)) ∨
    (s.lenOf .src = 0 ∧ encodeBody s = ((encodeStart s).dropTree, emptyInputEnding)) ∨
    (1 ≤ s.lenOf .src ∧ s.lenOf .src ≤ s.capOf .src ∧
      ((s.capOf .pri < (primaryArtifact s.width s.height (s.content .src) (romOfBuffer (s.content .src))).length ∧
          encodeBody s = ((encodeTables s).dropTree, ioFailureEnding .pri)) ∨
       ((primaryArtifact s.width s.height (s.content .src) (romOfBuffer (s.content .src))).length ≤ s.capOf .pri ∧
          s.capOf .sdc < (sidecarArtifact (romOfBuffer (s.content .src))).length ∧
          encodeBody s = ((encodeTables s).dropTree, ioFailureEnding .sdc)) ∨
       ((primaryArtifact s.width s.height (s.content .src) (romOfBuffer (s.content .src))).length ≤ s.capOf .pri ∧
          (sidecarArtifact (romOfBuffer (s.content .src))).length ≤ s.capOf .sdc ∧
          encodeBody s =
            ((((encodeTables s).commit .pri
                (primaryArtifact s.width s.height (s.content .src) (romOfBuffer (s.content .src)))).commit .sdc
                (sidecarArtifact (romOfBuffer (s.content .src)))).dropTree, okEnding)))) := by
  unfold encodeBody encodeCall
  have hc : (encodeStart s).capOf .src = s.capOf .src := rfl
  have hl : (encodeStart s).lenOf .src = s.lenOf .src := rfl
  rw [hc, hl]
  split
  · exact .inl ⟨‹_›, rfl⟩
  split
  · exact .inr (.inl ⟨‹_›, rfl⟩)
  have h1 : 1 ≤ s.lenOf .src := by omega
  have h2 : s.lenOf .src ≤ s.capOf .src := by omega
  refine .inr (.inr ⟨h1, h2, ?_⟩)
  have hlen : (s.content .src).length < 2 ^ 32 := by rw [s.length_content]; exact s.lenOf_lt _
  have hcover : ∀ b ∈ (encodeTables s).content .src, (encodeTables s).code.entry b ≠ [] :=
    fun b hb => (romOfBuffer_entry_iff hlen b).2 hb
  have hemit : emitArtifact (encodeTables s) = if (primaryArtifact s.width s.height (s.content .src)
      (romOfBuffer (s.content .src))).length ≤ s.capOf .pri then .ok (primaryArtifact s.width s.height (s.content .src)
      (romOfBuffer (s.content .src))) else .error (ioFailureEnding .pri) :=
    emitArtifact_covered (s := encodeTables s) h1 h2 hcover
  have htsave : tsaveArtifact (encodeTables s) = if (sidecarArtifact (romOfBuffer (s.content .src))).length ≤ s.capOf .sdc
      then .ok (sidecarArtifact (romOfBuffer (s.content .src))) else .error (ioFailureEnding .sdc) :=
    tsaveArtifact_eq (encodeTables s)
  rw [encodeStages_eq h1 h2]
  unfold encodeArtifacts
  rw [hemit, htsave]
  by_cases hp : (primaryArtifact s.width s.height (s.content .src) (romOfBuffer (s.content .src))).length ≤ s.capOf .pri
  · by_cases hq : (sidecarArtifact (romOfBuffer (s.content .src))).length ≤ s.capOf .sdc
    · refine .inr (.inr ⟨hp, hq, ?_⟩)
      rw [if_pos hp, if_pos hq]
    · refine .inr (.inl ⟨hp, by omega, ?_⟩)
      rw [if_pos hp, if_neg hq]
  · refine .inl ⟨by omega, ?_⟩
    rw [if_neg hp]

/-- The body of `BUILD` for a table without and with a present symbol. -/
theorem buildBody_eq (s : State) : buildBody s =
    if presentCount s.freq = 0 then ({ s with nodes := [], root := none }, emptyInputEnding)
    else ({ s with
      nodes := (buildTree s.freq).1, root := some (BitVec.ofNat 9 (2 * presentCount s.freq - 2)) }, okEnding) := by
  rcases buildTree_arena s.freq with ⟨h0, he⟩ | ⟨h1, ht, he⟩
  · rw [if_pos h0]
    rcases buildBody_cases s with ⟨-, e⟩ | ⟨r, rest, hr, e⟩
    · exact e
    · rw [he] at hr; exact absurd hr (by simp)
  · rw [if_neg (by omega)]
    rcases buildBody_cases s with ⟨hr, e⟩ | ⟨r, rest, hr, e⟩
    · rw [he] at hr; exact absurd hr (by simp)
    · rw [he] at hr
      injection hr with hr _
      subst hr
      exact e

/-- `BUILD` then `GEN` make the ROM of the frequency table. -/
theorem build_gen_code {s t u : State} (h1 : exec .build s = .next t) (h2 : exec .gen t = .next u) :
    u.code = romOfTable s.freq := by
  rw [exec_next h2]
  show romOf t.nodes t.root = _
  rw [exec_next h1]
  show romOf (buildBody s).1.nodes (buildBody s).1.root = _
  rw [buildBody_eq]
  unfold romOfTable
  rcases buildTree_arena s.freq with ⟨h0, he⟩ | ⟨h1, ht, he⟩
  · rw [if_pos h0, he]; rfl
  · rw [if_neg (by omega), he]; rfl

/-- The ways the body of `DECODE` ends, in terms of the sidecar as it was. -/
theorem decodeBody_ends (s : State) :
    (s.capOf .sdc < s.lenOf .sdc ∧ decodeBody s = (tloadClear (decodeStartState s), ioFailureEnding .sdc)) ∨
    (s.lenOf .sdc ≤ s.capOf .sdc ∧ symCount (loadLines (s.content .sdc)).code = 0 ∧
      decodeBody s = (tloadFill (decodeStartState s) (loadLines (s.content .sdc)), tableNotFoundEnding)) ∨
    (s.lenOf .sdc ≤ s.capOf .sdc ∧ symCount (loadLines (s.content .sdc)).code ≠ 0 ∧
      decodeBody s = decBody (tloadFill (decodeStartState s) (loadLines (s.content .sdc)))) := by
  have hc : (decodeStartState s).content .sdc = s.content .sdc := decodeStartState_content s (by simp)
  have hl : (decodeStartState s).lenOf .sdc = s.lenOf .sdc := by simp [decodeStartState_lenOf]
  have hcases := tloadBody_cases (decodeStartState s)
  rw [hc, hl, decodeStartState_capOf] at hcases
  rcases decodeBody_cases s with ⟨h, e⟩ | ⟨h, e⟩ <;> rw [e]
  · rcases hcases with ⟨h1, e⟩ | ⟨h1, h2, e⟩ | ⟨h1, h2, e⟩
    · exact .inl ⟨h1, e⟩
    · exact .inr (.inl ⟨h1, h2, e⟩)
    · rw [e] at h; exact absurd rfl h
  · rcases hcases with ⟨h1, e⟩ | ⟨h1, h2, e⟩ | ⟨h1, h2, e⟩
    · rw [e] at h; cases h
    · rw [e] at h; cases h
    · rw [e]; exact .inr (.inr ⟨h1, h2, rfl⟩)

end Sys2Proof.Machine
end

