-- ==== Sys2Proof/Laws/PerInstr.lean ====
section
/-! SUPPORT. Facts about each command as syntax, one lemma per constructor. -/

namespace Sys2Proof.Laws.EncodingFields

/-- 30_encoding.md R53, R54: the command's word has `rsv = 0` and its own opcode in `op`, the opcode names this command and
no other, and the command is well formed. -/
def Statement (i : Instr) : Prop :=
  i.wellFormed = true ∧ rsvField (encode i) = 0#24 ∧ opField (encode i) = opcode i ∧ decodeOp (opcode i) = some i

theorem nop : Statement .nop := by unfold Statement; decide
theorem clr : Statement .clr := by unfold Statement; decide
theorem sample : Statement .sample := by unfold Statement; decide
theorem build : Statement .build := by unfold Statement; decide
theorem gen : Statement .gen := by unfold Statement; decide
theorem emit : Statement .emit := by unfold Statement; decide
theorem tsave : Statement .tsave := by unfold Statement; decide
theorem tload : Statement .tload := by unfold Statement; decide
theorem dec : Statement .dec := by unfold Statement; decide
theorem encode : Statement .encode := by unfold Statement; decide
theorem decode : Statement .decode := by unfold Statement; decide

end Sys2Proof.Laws.EncodingFields
end

