-- ==== Sys2Proof/Tests/Slice0.lean ====
section
/-! SUPPORT. Tests: the checks of WellFormed refuse what they should; every command's word, written out from the spec's
encoding, decodes to it; vectors of spec/95_test_vectors.md, one step each; and for every statement with hypotheses a
state that meets them. -/

namespace Sys2Proof.Machine.Tests

/-! ### Ill-formed host operations (20_memory.md R44) -/

theorem test_wf_read_width : (HostOp.regRead 0x08 2).wellFormed = false := by decide
theorem test_wf_write_aligned : (HostOp.regWrite 0x06 4 1#32).wellFormed = false := by decide
theorem test_wf_read_outside : (HostOp.regRead 0x100 4).wellFormed = false := by decide
theorem test_wf_read_last : (HostOp.regRead 0xFC 4).wellFormed = true := by decide
theorem test_wf_memRead_width : (HostOp.memRead .pri 0 4).wellFormed = false := by decide
theorem test_wf_memWrite_width : (HostOp.memWrite .src 0 2 7#8).wellFormed = false := by decide

/-! ### Command words (30_encoding.md R53, R54: bits [31:8] zero, bits [7:0] the opcode) -/

theorem test_word_nop : decodeWord 0b00000000000000000000000000000000#32 = .ok .nop := by decide
theorem test_word_clr : decodeWord 0b00000000000000000000000000000001#32 = .ok .clr := by decide
theorem test_word_sample : decodeWord 0b00000000000000000000000000010000#32 = .ok .sample := by decide
theorem test_word_build : decodeWord 0b00000000000000000000000000010001#32 = .ok .build := by decide
theorem test_word_gen : decodeWord 0b00000000000000000000000000010010#32 = .ok .gen := by decide
theorem test_word_emit : decodeWord 0b00000000000000000000000000010011#32 = .ok .emit := by decide
theorem test_word_tsave : decodeWord 0b00000000000000000000000000010100#32 = .ok .tsave := by decide
theorem test_word_tload : decodeWord 0b00000000000000000000000000100000#32 = .ok .tload := by decide
theorem test_word_dec : decodeWord 0b00000000000000000000000000100001#32 = .ok .dec := by decide
theorem test_word_encode : decodeWord 0b00000000000000000000000001000000#32 = .ok .encode := by decide
theorem test_word_decode : decodeWord 0b00000000000000000000000001000001#32 = .ok .decode := by decide
/-- V-X9, V-X10: one reserved bit over the word of `EMIT`; an opcode outside the map. -/
theorem test_word_illegal : decodeWord 0x00000113#32 = .error (.reservedBitsSet 0x113#32) ∧
    decodeWord 0x000000FF#32 = .error (.unknownOpcode 0xFF#8) := by decide
theorem test_bytes_short : decodeBytes [0x10#8, 0#8, 0#8] = .error (.notOneWord 3) := by decide
theorem test_table_word : decodeTableWord 32 0x41 = some .decode ∧ decodeTableWord 32 0x113 = none := by decide

/-! ### Small states -/

/-- A machine with small capacities after reset. -/
def small : State := State.resetWith ⟨8#32, 16#32, 24#32, 8#32⟩

/-- The state a command leaves. -/
def after (i : Instr) (s : State) : State :=
  match exec i s with
  | .next t => t
  | _ => s

theorem exec_after (i : Instr) (s : State) : exec i s = .next (after i s) := by
  rw [after, exec_eq]

theorem outcome_after (i : Instr) (s : State) : (after i s).outcome = (commandBody i s).2.code := by
  rw [after, exec_eq]
  rfl

/-- A machine with a buffer and dimensions. -/
def buffer (w h : Dim) (bs : List Byte) : State := { small.commit .src bs with width := w, height := h }

/-- The buffer of V-B1: 10, 32, 10, 65. -/
def vb1 : State := buffer 2 2 [10, 32, 10, 65]

/-- The table of V-B1: FREQ[10] = 2, FREQ[32] = 1, FREQ[65] = 1. -/
def freqB1 : Table Word := ((emptyFreq.put 10 2).put 32 1).put 65 1

/-- The arena of V-B1. -/
def nodesB1 : List Node := [.leaf 10 2, .leaf 32 1, .leaf 65 1, .internal 2 1 2, .internal 4 0 3]

/-- The ROM of V-B1: 10 → 0, 32 → 10, 65 → 11. -/
def codeB1 : Table Code := ((emptyCode.put 10 [false]).put 32 [true, false]).put 65 [true, true]

/-- ASCII "2 2\n010011". -/
def priB1 : List Byte := [0x32, 0x20, 0x32, 0x0A, 0x30, 0x31, 0x30, 0x30, 0x31, 0x31]

/-- ASCII "010 0\n032 10\n065 11\n". -/
def sdcB1 : List Byte :=
  [0x30, 0x31, 0x30, 0x20, 0x30, 0x0A, 0x30, 0x33, 0x32, 0x20, 0x31, 0x30, 0x0A,
   0x30, 0x36, 0x35, 0x20, 0x31, 0x31, 0x0A]

/-- V-B1's buffer with its ROM. -/
def vb1Coded : State := { vb1 with code := codeB1 }

/-- V-B1's artifacts, with a given capacity of `DST`. -/
def vb1Artifacts : State := { (small.commit .pri priB1).commit .sdc sdcB1 with width := 2, height := 2 }

/-! ### Vectors (spec/95_test_vectors.md) -/

/-- V-X11: `NOP` after an illegal word clears the report. -/
theorem test_nop : (after .nop { vb1 with outcome := .illegalCommand, errInfo := 0x113#32 }).statusWord = 2#32 ∧
    (after .nop { vb1 with outcome := .illegalCommand, errInfo := 0x113#32 }).errInfo = 0#32 := by decide +kernel
/-- V-X12: `CLR` empties the ROM and leaves `PRI_LEN`. -/
theorem test_clr : (after .clr { vb1Artifacts with code := codeB1 }).code.entry 65 = [] ∧
    (after .clr { vb1Artifacts with code := codeB1 }).priLen = 10#32 := by decide +kernel
/-- V-S1. -/
theorem test_sample : (after .sample vb1).freq.entry 10 = 2 ∧ (after .sample vb1).freq.entry 65 = 1 ∧
    (after .sample vb1).freq.entry 11 = 0 := by decide +kernel
/-- V-S5: `SRC_LEN = SRC_CAP + 1`. -/
theorem test_sample_io : (after .sample { vb1 with srcLen := 9#32, freq := freqB1 }).statusWord = 0x502#32 ∧
    (after .sample { vb1 with srcLen := 9#32, freq := freqB1 }).freq.entry 10 = 2 := by decide +kernel
/-- V-B11: at the same frequency the two leaves are merged before the newer internal node. -/
theorem test_build_tie : (after .build { small with freq := (((emptyFreq.put 1 1).put 2 1).put 3 2).put 4 2 }).nodes =
    [.leaf 1 1, .leaf 2 1, .leaf 3 2, .leaf 4 2, .internal 2 0 1, .internal 4 2 3, .internal 6 4 5] := by
  decide +kernel
/-- V-B1. -/
theorem test_gen : (after .gen { small with nodes := nodesB1, root := some 4 }).code.entry 10 = [false] ∧
    (after .gen { small with nodes := nodesB1, root := some 4 }).code.entry 32 = [true, false] ∧
    (after .gen { small with nodes := nodesB1, root := some 4 }).code.entry 65 = [true, true] := by decide +kernel
/-- V-B2: the single leaf. -/
theorem test_gen_single : (after .gen { small with nodes := [.leaf 7 3], root := some 0 }).code.entry 7 = [false] := by
  decide +kernel
/-- V-B1. -/
theorem test_emit : (after .emit vb1Coded).content .pri = priB1 := by decide +kernel
/-- V-M2: the second byte has no entry. -/
theorem test_emit_unknown : (after .emit ({ vb1Coded with priLen := 3#32 }.memWrite .src 1 99)).statusWord = 0x402#32 ∧
    (after .emit ({ vb1Coded with priLen := 3#32 }.memWrite .src 1 99)).errInfo = 1#32 ∧
    (after .emit ({ vb1Coded with priLen := 3#32 }.memWrite .src 1 99)).priLen = 0#32 := by decide +kernel
/-- V-B1. -/
theorem test_tsave : (after .tsave vb1Coded).content .sdc = sdcB1 := by decide +kernel
/-- V-T9: a line ending in 0x0D is malformed and skipped. -/
theorem test_tload_malformed : (after .tload (small.commit .sdc
      [0x30, 0x31, 0x30, 0x20, 0x30, 0x0D, 0x0A, 0x30, 0x33, 0x32, 0x20, 0x31, 0x30, 0x0A])).code.entry 32 = [true, false] ∧
    (after .tload (small.commit .sdc
      [0x30, 0x31, 0x30, 0x20, 0x30, 0x0D, 0x0A, 0x30, 0x33, 0x32, 0x20, 0x31, 0x30, 0x0A])).statusWord = 6#32 := by
  decide +kernel
/-- V-D4: a candidate with a byte that is no token is discarded once it is longer than any code. -/
theorem test_dec_discard : (after .dec { small.commit .pri
      [0x32, 0x20, 0x32, 0x0A, 0x30, 0x78, 0x31, 0x31, 0x30, 0x31, 0x30, 0x30, 0x31, 0x31] with
      width := 2, height := 2, code := codeB1 }).content .dst = [10, 10, 32, 10, 65] ∧
    (after .dec { small.commit .pri
      [0x32, 0x20, 0x32, 0x0A, 0x30, 0x78, 0x31, 0x31, 0x30, 0x31, 0x30, 0x30, 0x31, 0x31] with
      width := 2, height := 2, code := codeB1 }).decDropped = 3#32 := by decide +kernel
/-- V-X1. -/
theorem test_encode : (after .encode vb1).outcome = .ok ∧ (after .encode vb1).content .pri = priB1 ∧ (after .encode vb1).content .sdc = sdcB1 ∧
    (after .encode vb1).nodes = [] := by decide +kernel
/-- V-X2. -/
theorem test_decode : (after .decode vb1Artifacts).outcome = .ok ∧ (after .decode vb1Artifacts).content .dst = [10, 32, 10, 65] := by decide +kernel

/-! ### Witnesses: for every statement with hypotheses, a state and operands that meet them, clause by clause -/

/-- The tables that the stages make of a buffer. -/
def tables (bs : List Byte) : State :=
  { small with
    freq := countBytes bs, nodes := (buildTree (countBytes bs)).1, root := (buildTree (countBytes bs)).2.head?,
    code := romOfBuffer bs }

theorem tables_arena {bs : List Byte} (h : bs.length < 2 ^ 32) (hne : bs ≠ []) :
    ArenaTree (tables bs).nodes bs.dedup.length ∧
    (tables bs).root = some (BitVec.ofNat 9 (2 * bs.dedup.length - 2)) := by
  have ht := buildTree_tree (countBytes bs) (presentCount_pos h hne)
  rw [presentCount_countBytes h] at ht
  exact ⟨ht.1, by show (buildTree (countBytes bs)).2.head? = _; rw [ht.2]; rfl⟩

theorem tables_wf {bs : List Byte} (h : bs.length < 2 ^ 32) (hne : bs ≠ []) : (tables bs).TablesWf := by
  refine ⟨?_, .inr ⟨_, tables_arena h hne⟩, romOfTable_fits _⟩
  show freqTotal (countBytes bs) < _
  rw [freqTotal_countBytes h]
  exact h

theorem witness_DecodeEncodeAgree :
    decodeWord 0x41#32 = .ok .decode ∧ rsvField 0x00000100#32 ≠ 0#24 ∧ rsvField 0x80000000#32 ≠ 0#24 ∧
    (rsvField 0x02#32 = 0#24 ∧ ∀ i, opcode i ≠ opField 0x02#32) ∧
    (rsvField 0xFF#32 = 0#24 ∧ ∀ i, opcode i ≠ opField 0xFF#32) ∧
    [0#8, 0#8, 0#8].length ≠ 4 ∧ [0#8, 0#8, 0#8, 0#8, 0#8].length ≠ 4 := by
  refine ⟨by decide, by decide, by decide, ⟨by decide, ?_⟩, ⟨by decide, ?_⟩, by decide, by decide⟩ <;>
    (intro i; cases i <;> decide)

/-- Nothing left to outlast, with and without a script; and something left but no host move to make. -/
theorem witness_StepExecutesAcceptedCommand :
    ((small.accept 0x11#32).busy = true ∧ (small.accept 0x11#32).hostMovesFirst = false ∧
      decodeWord (small.accept 0x11#32).cmdLatch = .ok .build) ∧
    { small.accept 0x11#32 with script := [.waitIdle] }.hostMovesFirst = false ∧
    { small.accept 0x11#32 with hostSlots := 3 }.hostMovesFirst = false := by decide

theorem witness_IllegalWordOnlyReports :
    (small.accept 0x02#32).busy = true ∧ (small.accept 0x02#32).hostMovesFirst = false ∧
    ∀ i, (small.accept 0x02#32).cmdLatch ≠ encode i := by
  refine ⟨by decide, by decide, ?_⟩
  intro i; cases i <;> decide

/-- An idle machine, and one that runs a command, whose host writes `CMD` next. -/
theorem witness_CmdWriteAcceptsOnlyWhenIdle :
    ({ small with script := [.regWrite 0x04 4 0x10#32] }.script = [.regWrite 0x04 4 0x10#32] ∧ small.busy = false) ∧
    { small.accept 0x11#32 with script := [.regWrite 0x04 4 0x10#32], hostSlots := 1 }.busy = true ∧
    { small.accept 0x11#32 with script := [.regWrite 0x04 4 0x10#32], hostSlots := 1 }.hostMovesFirst = true := by decide

/-- A host that writes `STATUS` next, with bit 1 set and clear, on an idle machine and while a command runs. -/
theorem witness_StatusFieldsAndDoneClear :
    ({ small with script := [.regWrite 0x08 4 2#32] }.script = [.regWrite 0x08 4 2#32] ∧ small.busy = false) ∧
    (2#32).getLsbD 1 = true ∧ (0xFFFFFFFD#32).getLsbD 1 = false ∧
    { small.accept 0#32 with script := [.regWrite 0x08 4 2#32], hostSlots := 1 }.busy = true ∧
    { small.accept 0#32 with script := [.regWrite 0x08 4 2#32], hostSlots := 1 }.hostMovesFirst = true := by decide

/-- A reserved offset reads 0 also while a command runs (93_implementation_defined.md U2); `ERR_INFO` has no defined value
then (U4). -/
theorem test_reserved_read_busy : step { small.accept 0x11#32 with script := [.regRead 0x58 4], hostSlots := 1 } =
    .next { small.accept 0x11#32 with responses := [.word 0#32] } ∧
    offsetStableWhileBusy 0xFC = true ∧ offsetStableWhileBusy 0x44 = false := ⟨rfl, by decide, by decide⟩

theorem witness_RegisterMapReads :
    (tables [1, 2]).TablesWf ∧ (tables [1, 2]).root = some 2 ∧ small.root = none ∧ 0x58 ≤ 0x58 ∧ 0x58 ≤ 0xFC := by
  refine ⟨tables_wf (bs := [1, 2]) (by decide) (by decide), ?_, rfl, by decide, by decide⟩
  rw [(tables_arena (bs := [1, 2]) (by decide) (by decide)).2]
  decide

/-- The shortest code; the empty ROM. -/
theorem witness_RomViewsAndLookup : [false] ≠ ([] : Code) ∧ ∀ x, emptyCode.entry x = [] :=
  ⟨by decide, emptyCode_entry⟩

theorem witness_RegReadHasNoSideEffect :
    ({ small with script := [.regRead 0xFC 4] }.busy = false ∧ 0xFC % 4 = 0 ∧ 0xFC < 0x100) ∧
    { small.accept 0x11#32 with script := [.regRead 0x3C 4], hostSlots := 1 }.busy = true ∧
    { small.accept 0x11#32 with script := [.regRead 0x3C 4], hostSlots := 1 }.hostMovesFirst = true ∧
    0x54 ∈ [0x00, 0x08, 0x0C, 0x10, 0x14, 0x28, 0x48, 0x4C, 0x50, 0x54] ∧
    { small.accept 0x11#32 with script := [.regRead 0x58 4], hostSlots := 1 }.hostMovesFirst = true ∧ 0x58 ≤ 0x58 := by decide

/-- The last offset of the block, on an idle machine and while a command runs. -/
theorem witness_RegWriteEffects :
    (small.busy = false ∧ (small.accept 0#32).busy = true ∧ 0x24 ≤ 0x24 ∧ 0x24 ≤ 0xFC) ∧
    (0xFC % 4 = 0 ∧ 0xFC < 0x100 ∧ { small with script := [.regWrite 0xFC 4 1#32] }.script = [.regWrite 0xFC 4 1#32]) ∧
    { small.accept 0#32 with script := [.regWrite 0xFC 4 1#32], hostSlots := 1 }.busy = true ∧
    { small.accept 0#32 with script := [.regWrite 0xFC 4 1#32], hostSlots := 1 }.hostMovesFirst = true := by decide

/-- The last byte of `SRC`, whose capacity is 8. -/
theorem witness_HostSpaceAccesses :
    { small with script := [.memWrite .src 7 1 5#8] }.busy = false ∧ 7 < small.capOf .src ∧
    { small with script := [.memRead .src 7 1] }.busy = false := by decide

/-- The first offset at the capacity, a wrong width, a busy machine, an offset past the block, a misaligned one. -/
theorem witness_NotAdmittedAccessesRefused :
    ({ small with script := [.memRead .src 8 1] }.busy = false ∧ small.capOf .src ≤ 8) ∧
    { small.accept 0x11#32 with script := [.memRead .src 0 1], hostSlots := 1 }.hostMovesFirst = true ∧
    (2 ≠ 1 ∧ (2 ≠ 4 ∨ 0 % 4 ≠ 0 ∨ 0x100 ≤ 0)) ∧ (4 ≠ 4 ∨ 2 % 4 ≠ 0 ∨ 0x100 ≤ 2) ∧
    (4 ≠ 4 ∨ 0x100 % 4 ≠ 0 ∨ 0x100 ≤ 0x100) := by decide

theorem witness_HostMovesDoNotDisturbCommand :
    ∃ s t, s.busy = true ∧ s.hostMovesFirst = true ∧ (∀ rest, s.script ≠ .hardwareReset :: rest) ∧ step s = .next t :=
  ⟨{ small.accept 0x11#32 with script := [.waitIdle], hostSlots := 1 }, _, rfl, rfl, fun _ => by simp, rfl⟩

theorem witness_AcceptedCommandCompletes :
    { small.accept 0x11#32 with script := [.waitIdle, .regRead 8 4], hostSlots := 7 }.busy = true ∧
    ∀ op ∈ { small.accept 0x11#32 with script := [.waitIdle, .regRead 8 4], hostSlots := 7 }.script, op.quiet = true := by
  decide

theorem witness_IrqIsDoneAndEnabled :
    small.ie = false ∧ exec .nop { small with ie := true } = .next (after .nop { small with ie := true }) ∧
    ((small.accept 0x02#32).busy = true ∧ (small.accept 0x02#32).hostMovesFirst = false) ∧
    ({ small with script := [.regWrite 0x04 4 0#32] }.script = [.regWrite 0x04 4 0#32] ∧ small.busy = false) ∧
    (2#32).getLsbD 1 = true := ⟨rfl, exec_after _ _, ⟨rfl, rfl⟩, ⟨rfl, rfl⟩, rfl⟩

/-- A reset while idle and one while a command runs. -/
theorem witness_HardwareResetState :
    { vb1 with script := [.hardwareReset] }.busy = false ∧
    { vb1.accept 0x11#32 with script := [.hardwareReset], hostSlots := 1 }.busy = true ∧
    { vb1.accept 0x11#32 with script := [.hardwareReset], hostSlots := 1 }.hostMovesFirst = true := by decide

/-- A length equal to the capacity, and one above. -/
theorem witness_SampleCountsBuffer :
    { small with srcLen := 8#32 }.lenOf .src ≤ small.capOf .src ∧
    small.capOf .src < { small with srcLen := 9#32 }.lenOf .src := by decide

theorem witness_ExtractMinTakesLeast : ([1] : List NodeIdx) ≠ [] ∧ (0 : NodeIdx) ≠ 1 ∧
    precedes nodesB1 1 2 = true ∧ precedes nodesB1 2 0 = true := by decide

theorem witness_MergeIndependentOfQueueLayout : ([0, 1, 2] : List NodeIdx).Perm [2, 0, 1] := by decide

/-- No present symbol; exactly one. -/
theorem witness_BuildMakesTree : presentCount emptyFreq = 0 ∧ 1 ≤ presentCount (countBytes [7]) := by
  refine ⟨?_, presentCount_pos (by decide) (by decide)⟩
  rw [show emptyFreq = countBytes [] from rfl, presentCount_countBytes (by decide)]
  rfl

/-- A table with two present symbols: the third record is internal. -/
theorem witness_BuildMergesTwoLeast :
    ∃ t f l r, exec .build (tables [1, 2]) = .next t ∧ t.nodes[2]? = some (.internal f l r) := by
  have ht := buildTree_tree (countBytes [1, 2]) (presentCount_pos (by decide) (by decide))
  have hp : presentCount (countBytes [1, 2]) = 2 := (presentCount_countBytes (by decide)).trans (by decide)
  rw [hp] at ht
  obtain ⟨f, l, r, hi, -⟩ := ht.1.internals 2 (by decide) (by decide)
  refine ⟨_, f, l, r, exec_eq _ _, ?_⟩
  show (buildBody (tables [1, 2])).1.nodes[2]? = _
  have hf : presentCount (tables [1, 2]).freq ≠ 0 := by
    rw [show (tables [1, 2]).freq = countBytes [1, 2] from rfl, hp]; decide
  rw [buildBody_eq, if_neg hf]
  exact hi

theorem witness_BuildFrequenciesAreSums :
    freqTotal (countBytes [1, 2]) < 2 ^ 32 ∧
    exec .build { small with freq := countBytes [1, 2] } = .next (after .build { small with freq := countBytes [1, 2] }) :=
  ⟨by rw [freqTotal_countBytes (by decide)]; decide, exec_after _ _⟩

theorem witness_GenEdgeCases : small.root = none ∧
    { small with nodes := [.leaf 7 3], root := some 0 }.root = some 0 ∧
    { small with nodes := [.leaf 7 3], root := some 0 }.nodes[(0 : NodeIdx).toNat]? = some (.leaf 7 3) := ⟨rfl, rfl, rfl⟩

theorem witness_GenCodesArePaths : ArenaTree (tables [1, 2]).nodes 2 ∧ 2 ≤ 2 ∧
    (tables [1, 2]).root = some (BitVec.ofNat 9 (2 * 2 - 2)) :=
  ⟨(tables_arena (bs := [1, 2]) (by decide) (by decide)).1, by decide,
    (tables_arena (bs := [1, 2]) (by decide) (by decide)).2⟩

/-- The state after `SAMPLE`, `BUILD`, `GEN` of V-B1's buffer. -/
def generated : State := after .gen (after .build (after .sample vb1))

/-- Two symbols with an entry after `BUILD`, `GEN`. -/
theorem witness_BuildGenPrefixFree : exec .build (after .sample vb1) = .next (after .build (after .sample vb1)) ∧
    exec .gen (after .build (after .sample vb1)) = .next generated ∧ (10 : Byte) ≠ 65 ∧
    generated.code.entry 10 ≠ [] ∧ generated.code.entry 65 ≠ [] := by
  have hg : generated.code = romOfTable (after .sample vb1).freq :=
    build_gen_code (exec_after .build _) (exec_after .gen _)
  refine ⟨exec_after _ _, exec_after _ _, by decide, ?_, ?_⟩
  · rw [hg, romOfTable_entry_iff, test_sample.1]; decide
  · rw [hg, romOfTable_entry_iff, test_sample.2.1]; decide

theorem witness_BuildGenBijection : exec .build (after .sample vb1) = .next (after .build (after .sample vb1)) ∧
    exec .gen (after .build (after .sample vb1)) = .next generated ∧ generated.code.entry 10 ≠ [] :=
  ⟨exec_after _ _, exec_after _ _, witness_BuildGenPrefixFree.2.2.2.1⟩

/-- Exactly two present symbols. -/
theorem witness_BuildGenCodeBounds : 2 ≤ presentCount (countBytes [1, 2]) ∧
    exec .build (tables [1, 2]) = .next (after .build (tables [1, 2])) ∧
    exec .gen (after .build (tables [1, 2])) = .next (after .gen (after .build (tables [1, 2]))) := by
  refine ⟨?_, exec_after _ _, exec_after _ _⟩
  rw [presentCount_countBytes (by decide)]
  decide

/-- The boundary of the spelling: 0, the only value whose first digit is `0`. -/
theorem witness_HeaderSpelling : (dec 0#16).head? = some 0x30#8 ∧ (dec 10#16).head? = some 0x31#8 := by decide

/-- The artifact exactly fits (V-M5: `PRI_CAP = 10`). -/
theorem witness_EmitWritesArtifact :
    1 ≤ vb1Coded.lenOf .src ∧ vb1Coded.lenOf .src ≤ vb1Coded.capOf .src ∧
    (∀ b ∈ vb1Coded.content .src, vb1Coded.code.entry b ≠ []) ∧
    (primaryArtifact vb1Coded.width vb1Coded.height (vb1Coded.content .src) vb1Coded.code).length ≤
      { vb1Coded with caps := ⟨8#32, 10#32, 24#32, 8#32⟩ }.capOf .pri := by decide +kernel

/-- The checks of `EMIT` one by one: `SRC_LEN = SRC_CAP + 1`; the empty buffer; `PRI_CAP = 3` before the 4 bytes of the
header; V-M2 at offset 1; V-M4 (`PRI_CAP = 9`) at the last offset. -/
theorem witness_EmitFirstErrorWins :
    vb1Coded.capOf .src < { vb1Coded with srcLen := 9#32 }.lenOf .src ∧
    { vb1Coded with srcLen := 0#32 }.lenOf .src = 0 ∧
    { vb1Coded with caps := ⟨8#32, 3#32, 24#32, 8#32⟩ }.capOf .pri < (header 2 2).length ∧
    ((vb1Coded.memWrite .src 1 99).content .src)[1]? = some 99 ∧ codeB1.entry 99 = [] ∧
    (∀ c ∈ ((vb1Coded.memWrite .src 1 99).content .src).take 1, codeB1.entry c ≠ []) ∧
    (primaryArtifact 2 2 (((vb1Coded.memWrite .src 1 99).content .src).take 1) codeB1).length ≤ 16 ∧
    ((vb1Coded.content .src)[3]? = some 65 ∧ codeB1.entry 65 ≠ [] ∧
      (∀ c ∈ (vb1Coded.content .src).take 3, codeB1.entry c ≠ []) ∧
      (primaryArtifact 2 2 ((vb1Coded.content .src).take 3) codeB1).length ≤ 9 ∧
      9 < (primaryArtifact 2 2 ((vb1Coded.content .src).take 4) codeB1).length) := by decide +kernel

/-- The stages on V-B1's buffer, with outcome `OK`. -/
theorem witness_EmitArtifactSize : exec .sample vb1 = .next (after .sample vb1) ∧
    exec .build (after .sample vb1) = .next (after .build (after .sample vb1)) ∧
    exec .gen (after .build (after .sample vb1)) = .next generated ∧
    exec .emit generated = .next (after .emit generated) ∧ (after .emit generated).outcome = .ok := by
  refine ⟨exec_after _ _, exec_after _ _, exec_after _ _, exec_after _ _, ?_⟩
  decide +kernel

theorem witness_DecodeStartsAfterHeader : isDigit 0x2F#8 = false ∧ isDigit 0x3A#8 = false ∧ isDigit 0x30#8 = true ∧
    isDigit 0x39#8 = true ∧ 0x0A#8 ∉ [0x32#8, 0x20#8] := by decide

/-- A matching code; `MAX_LEN + 1` bytes that are no code; `MAX_LEN` such bytes; a byte that is no token. -/
theorem witness_DecoderSegments :
    (lookup codeB1 [false] = some 10 ∧ ∀ k, k < [false].length → lookup codeB1 ([false].take k) = none) ∧
    (maxLen codeB1 = 2 ∧ ∀ k, k ≤ 3 → matchCand codeB1 ([0x78#8, 0x31#8, 0x31#8].take k) = none) ∧
    (∀ k, k ≤ 2 → matchCand codeB1 ([0x78#8, 0x31#8].take k) = none) ∧
    (0x2F#8 ∈ [0x2F#8] ∧ 0x2F#8 ≠ 0x30#8 ∧ 0x2F#8 ≠ 0x31#8) := by decide +kernel

theorem decoded_b1 : decodePayload codeB1 [0x30, 0x31, 0x30, 0x30, 0x31, 0x31] = ⟨[10, 32, 10, 65], [], 0⟩ := by
  decide +kernel

/-- `PRI_LEN = PRI_CAP + 1`; then with four decoded bytes `DST_CAP = 3` and `DST_CAP = 4`, `EXPECTED = 5` and
`EXPECTED = 4`. -/
theorem witness_DecEndings :
    { small with priLen := 17#32 }.capOf .pri < { small with priLen := 17#32 }.lenOf .pri ∧
    vb1Artifacts.lenOf .pri ≤ vb1Artifacts.capOf .pri ∧
    (decodePayload codeB1 ((vb1Artifacts.content .pri).drop (decodeStart (vb1Artifacts.content .pri)))).out.length = 4 ∧
    { vb1Artifacts with caps := ⟨8#32, 16#32, 24#32, 3#32⟩ }.capOf .dst < 4 ∧
    4 ≤ { vb1Artifacts with caps := ⟨8#32, 16#32, 24#32, 4#32⟩ }.capOf .dst ∧
    4 < { vb1Artifacts with width := 5, height := 1 }.width.toNat * 1 ∧
    vb1Artifacts.width.toNat * vb1Artifacts.height.toNat ≤ 4 := by
  have hd : (vb1Artifacts.content .pri).drop (decodeStart (vb1Artifacts.content .pri)) =
      [0x30, 0x31, 0x30, 0x30, 0x31, 0x31] := by decide +kernel
  refine ⟨by decide, by decide, ?_, by decide, by decide, by decide, by decide⟩
  rw [hd, decoded_b1]
  rfl

/-- The decoding state is the emitting one, `EXPECTED` being 4 (and 5 with other dimensions). -/
theorem witness_EmitThenDecRoundTrip : (after .emit generated).outcome = .ok ∧
    vb1.lenOf .src ≤ (after .emit generated).capOf .dst ∧
    exec .dec (after .emit generated) = .next (after .dec (after .emit generated)) ∧
    (after .emit generated).expected ≤ vb1.lenOf .src ∧
    vb1.lenOf .src < { after .emit generated with width := 5, height := 1 }.expected := by
  refine ⟨witness_EmitArtifactSize.2.2.2.2, ?_, exec_after _ _, ?_, ?_⟩ <;> decide +kernel

/-- Records that exactly fit (20 bytes), that miss by one, an empty ROM, and the capacity of 66560. -/
theorem witness_TsaveWritesRecords :
    (sidecarArtifact codeB1).length ≤ { vb1Coded with caps := ⟨8#32, 16#32, 20#32, 8#32⟩ }.capOf .sdc ∧
    { vb1Coded with caps := ⟨8#32, 16#32, 19#32, 8#32⟩ }.capOf .sdc < (sidecarArtifact codeB1).length ∧
    symCount emptyCode = 0 ∧ RomFits (romOfBuffer [7]) ∧ 66560 ≤ State.reset.capOf .sdc := by
  refine ⟨by decide +kernel, by decide +kernel, (symCount_eq_zero _).2 emptyCode_entry, romOfTable_fits _, by decide⟩

theorem witness_LinesSplitAtNewlines : [0x30#8, 0x0A#8].getLast? = some 0x0A#8 ∧ [0x30#8] ≠ [] ∧
    [0x30#8].getLast? ≠ some 0x0A#8 := by decide

/-- `SDC_LEN` above the capacity and equal to it; a sidecar with no entry and one with entries. -/
theorem witness_TloadRecoversLines :
    small.capOf .sdc < { small with sdcLen := 25#32 }.lenOf .sdc ∧
    { small with sdcLen := 24#32 }.lenOf .sdc ≤ small.capOf .sdc ∧
    symCount emptyCode = 0 ∧ symCount codeB1 ≠ 0 := by
  refine ⟨by decide, by decide, (symCount_eq_zero _).2 emptyCode_entry, fun h => ?_⟩
  exact absurd ((symCount_eq_zero _).1 h 10) (by decide +kernel)

/-- A machine with the capacities of reset and the ROM of a one-symbol buffer. -/
def coded7 : State := { State.reset with code := romOfBuffer [7] }

theorem coded7_saves : (after .tsave coded7).outcome = .ok := by
  have hle : (sidecarArtifact coded7.code).length ≤ coded7.capOf .sdc :=
    Nat.le_trans (length_sidecarArtifact_le (romOfTable_fits _)) (Nat.le_of_eq (by decide))
  have hb : tsaveBody coded7 = (coded7.commit .sdc (sidecarArtifact coded7.code), okEnding) := by
    rw [tsaveBody_eq, if_pos hle]
  have hc : commandBody .tsave coded7 = tsaveBody coded7 := rfl
  rw [outcome_after, hc, hb]
  rfl

theorem coded7_symbols : symCount coded7.code ≠ 0 := by
  have hne : (romOfBuffer [7]).entry 7 ≠ [] := by
    rw [romOfBuffer_eq, romOfTable_entry_iff, countBytes_ne_zero (buffer := [7]) (by decide)]
    decide
  have hc : coded7.code = romOfBuffer [7] := rfl
  rw [hc, Ne, symCount_eq_zero]
  exact fun h => hne (h 7)

theorem witness_SaveThenLoadRestoresRom : RomFits coded7.code ∧ exec .tsave coded7 = .next (after .tsave coded7) ∧
    (after .tsave coded7).outcome = .ok ∧ symCount coded7.code ≠ 0 :=
  ⟨romOfTable_fits _, exec_after _ _, coded7_saves, coded7_symbols⟩

theorem witness_EncodeEndings : vb1.capOf .src < { vb1 with srcLen := 9#32 }.lenOf .src ∧
    { vb1 with srcLen := 0#32 }.lenOf .src = 0 := by decide

/-- V-X1 (both fit), V-X5 (`PRI_CAP = 9`), V-X6 (`SDC_CAP = 19`). -/
theorem witness_EncodeWritesBothArtifacts : 1 ≤ vb1.lenOf .src ∧ vb1.lenOf .src ≤ vb1.capOf .src ∧
    (primaryArtifact vb1.width vb1.height (vb1.content .src) (romOfBuffer (vb1.content .src))).length = 10 ∧
    (sidecarArtifact (romOfBuffer (vb1.content .src))).length = 20 ∧
    { vb1 with caps := ⟨8#32, 9#32, 24#32, 8#32⟩ }.capOf .pri < 10 ∧
    10 ≤ { vb1 with caps := ⟨8#32, 10#32, 19#32, 8#32⟩ }.capOf .pri ∧
    { vb1 with caps := ⟨8#32, 10#32, 19#32, 8#32⟩ }.capOf .sdc < 20 := by decide +kernel

/-- `SDC_LEN` above the capacity; a sidecar without and one with an entry; with an entry, `PRI_LEN` above and within its
capacity (the endings after that are those of `witness_DecEndings`, with the same artifacts and the same ROM). -/
theorem witness_DecodeEndings :
    small.capOf .sdc < { small with sdcLen := 25#32 }.lenOf .sdc ∧
    (small.lenOf .sdc ≤ small.capOf .sdc ∧ symCount (loadLines (small.content .sdc)).code = 0) ∧
    (vb1Artifacts.lenOf .sdc ≤ vb1Artifacts.capOf .sdc ∧ symCount (loadLines (vb1Artifacts.content .sdc)).code ≠ 0) ∧
    (loadLines (vb1Artifacts.content .sdc)).code = codeB1 ∧
    { vb1Artifacts with priLen := 17#32 }.capOf .pri < { vb1Artifacts with priLen := 17#32 }.lenOf .pri ∧
    vb1Artifacts.lenOf .pri ≤ vb1Artifacts.capOf .pri := by
  refine ⟨by decide, ⟨by decide, (symCount_eq_zero _).2 emptyCode_entry⟩, ⟨by decide, fun h => ?_⟩, by decide +kernel,
    by decide, by decide⟩
  exact absurd ((symCount_eq_zero _).1 h 10) (by decide +kernel)

/-- Two states that agree in the input of a macro and differ in tables, lengths and report. -/
theorem witness_MacroIsolation :
    (vb1.caps = vb1Coded.caps ∧ vb1.width = vb1Coded.width ∧ vb1.height = vb1Coded.height ∧
      vb1.content .src = vb1Coded.content .src ∧ vb1.code ≠ vb1Coded.code ∧
      exec .encode vb1 = .next (after .encode vb1) ∧ exec .encode vb1Coded = .next (after .encode vb1Coded)) ∧
    (vb1Artifacts.content .pri = { vb1Artifacts with code := codeB1, srcLen := 1#32 }.content .pri ∧
      vb1Artifacts.content .sdc = { vb1Artifacts with code := codeB1, srcLen := 1#32 }.content .sdc ∧
      exec .decode vb1Artifacts = .next (after .decode vb1Artifacts)) := by
  refine ⟨⟨rfl, rfl, rfl, rfl, fun h => ?_, exec_after _ _, exec_after _ _⟩, rfl, rfl, exec_after _ _⟩
  exact absurd (congrArg (fun t => Table.entry t 10) h) (by decide +kernel)

theorem witness_MacrosMatchStageCommands :
    (exec .encode vb1 = .next (after .encode vb1) ∧ (after .encode vb1).outcome = .ok) ∧
    (exec .decode vb1Artifacts = .next (after .decode vb1Artifacts) ∧ (after .decode vb1Artifacts).outcome = .ok) :=
  ⟨⟨exec_after _ _, test_encode.1⟩, exec_after _ _, test_decode.1⟩

/-- V-B1's buffer; `EXPECTED = 4`, and 5 with other dimensions. -/
theorem witness_EncodeThenDecodeRoundTrip : 1 ≤ vb1.lenOf .src ∧ vb1.lenOf .src ≤ vb1.capOf .dst ∧
    exec .encode vb1 = .next (after .encode vb1) ∧ (after .encode vb1).outcome = .ok ∧
    exec .decode (after .encode vb1) = .next (after .decode (after .encode vb1)) ∧
    vb1.expected ≤ vb1.lenOf .src ∧ vb1.lenOf .src < { vb1 with width := 5, height := 1 }.expected :=
  ⟨by decide, by decide, exec_after _ _, test_encode.1, exec_after _ _, by decide, by decide⟩

theorem witness_NoByteWrittenUnlessOk : exec .build small = .next (after .build small) ∧
    (after .build small).outcome ≠ .ok := by
  refine ⟨exec_after _ _, ?_⟩
  have h0 : presentCount small.freq = 0 := witness_BuildMakesTree.1
  rw [outcome_after]
  show (buildBody small).2.code ≠ _
  rw [buildBody_eq, if_pos h0]
  decide

theorem witness_CommandsKeepInputs : exec .encode vb1 = .next (after .encode vb1) := exec_after _ _

theorem witness_TableCommandsFrame : Instr.build ∈ [Instr.sample, .build, .gen] ∧
    exec .build vb1 = .next (after .build vb1) ∧ Instr.build ≠ .sample ∧ Instr.build ≠ .gen :=
  ⟨by decide, exec_after _ _, by decide, by decide⟩

/-- An artifact, and a reason for none, for each of the two commands. -/
theorem witness_ArtifactCommandsFrame : (emitArtifact vb1Coded).toOption = some priB1 ∧
    exec .emit vb1Coded = .next (after .emit vb1Coded) ∧ Space.sdc ≠ .pri ∧
    emitArtifact { vb1Coded with srcLen := 0#32 } = .error emptyInputEnding ∧
    exec .tsave vb1Coded = .next (after .tsave vb1Coded) ∧ tsaveArtifact small = .ok [] ∧
    tsaveArtifact { vb1Coded with caps := ⟨8#32, 16#32, 19#32, 8#32⟩ } = .error (ioFailureEnding .sdc) := by
  refine ⟨by decide +kernel, exec_after _ _, by decide, rfl, exec_after _ _, ?_, ?_⟩
  · have h0 : sidecarArtifact small.code = [] := sidecarArtifact_of_empty ((symCount_eq_zero _).2 emptyCode_entry)
    rw [tsaveArtifact_eq, h0]
    rfl
  · rw [tsaveArtifact_eq]
    exact if_neg (Nat.not_le.2 witness_TsaveWritesRecords.2.1)

theorem witness_TloadDecFrame : exec .tload vb1Artifacts = .next (after .tload vb1Artifacts) ∧
    exec .dec vb1Artifacts = .next (after .dec vb1Artifacts) ∧ Space.pri ≠ .dst :=
  ⟨exec_after _ _, exec_after _ _, by decide⟩

theorem witness_MacroFrame : exec .encode vb1 = .next (after .encode vb1) ∧
    exec .decode vb1Artifacts = .next (after .decode vb1Artifacts) := ⟨exec_after _ _, exec_after _ _⟩

/-- A state with written bytes, a command accepted. -/
theorem witness_StepKeepsSpacesWf : (vb1.accept 0x10#32).SpacesWf ∧
    step (vb1.accept 0x10#32) = .next (after .sample (vb1.accept 0x10#32)) := by
  refine ⟨fun S => ?_, exec_after .sample _⟩
  cases S
  · exact ⟨by decide, by show ∀ c ∈ _, _; decide⟩
  · exact ⟨by decide, by show ∀ c ∈ _, _; decide⟩
  · exact ⟨by decide, by show ∀ c ∈ _, _; decide⟩
  · exact ⟨by decide, by show ∀ c ∈ _, _; decide⟩

/-- A state with a tree and a ROM, whose host makes a move. -/
theorem witness_StepKeepsTablesWf : (tables [1, 2]).TablesWf ∧ ∃ t, step (tables [1, 2]) = .next t :=
  ⟨tables_wf (bs := [1, 2]) (by decide) (by decide), tables [1, 2], rfl⟩

/-- A state that reports `TRUNCATED_OUTPUT(3)`, whose host makes a move. -/
def reporting : State :=
  { small with outcome := .truncatedOutput, errInfo := 3#32, decCount := 3#32, done := true, script := [.waitIdle] }

theorem witness_StepKeepsReportWf : reporting.ReportWf ∧ ∃ t, step reporting = .next t :=
  ⟨⟨by decide, by decide, by decide, by decide, fun h => absurd h (by decide)⟩, _,
    step_idle (s := reporting) (op := .waitIdle) (rest := []) rfl rfl rfl⟩

end Sys2Proof.Machine.Tests
end

section
/-! The state rules of 10_state.md: what registers read and take, what a step can do, and which facts every step keeps. -/

namespace Sys2Proof.Machine

/-! ### The register map by offset -/

theorem regAt_offset (r : Reg) : regAt r.offset = some r := by cases r <;> rfl

theorem offset_of_regAt {off : Nat} {r : Reg} (h : regAt off = some r) : r.offset = off := by
  simpa using List.find?_some h

theorem offset_lt_reserved (r : Reg) : r.offset < 0x58 := by cases r <;> decide

theorem offset_aligned (r : Reg) : r.offset % 4 = 0 := by cases r <;> rfl

/-- From 0x58 on the block holds no register (R35). -/
theorem regAt_reserved {off : Nat} (h : 0x58 ≤ off) : regAt off = none := by
  cases hr : regAt off with
  | none => rfl
  | some r =>
    have hlt := offset_lt_reserved r
    rw [offset_of_regAt hr] at hlt
    omega

theorem State.wordAt_offset (s : State) (r : Reg) : s.wordAt r.offset = s.regValue r := by
  rw [State.wordAt, regAt_offset]

theorem State.wordAt_reserved (s : State) {off : Nat} (h : 0x58 ≤ off) : s.wordAt off = 0#32 := by
  rw [State.wordAt, regAt_reserved h]

theorem State.regWrite_busy {s : State} (hb : s.busy = true) (off : Nat) (v : Word) : s.regWrite off v = s :=
  if_pos hb

theorem State.regWrite_offset {s : State} (hb : s.busy = false) (r : Reg) (v : Word) :
    s.regWrite r.offset v = s.regWriteIdle v r := by
  rw [State.regWrite, regAt_offset, if_neg (by simp [hb])]

/-- The read-only registers are `ID` and all from `DST_LEN` on: a write there, or at a reserved offset, does nothing. -/
theorem State.regWrite_readOnly (s : State) {off : Nat} (v : Word) (h : off = 0 ∨ 0x24 ≤ off) : s.regWrite off v = s := by
  unfold State.regWrite
  split
  · rfl
  · cases hr : regAt off with
    | none => rfl
    | some r =>
      obtain rfl := offset_of_regAt hr
      cases r with
      | id | dstLen | expected | symCount | maxLen | nodeCount | root | decCount | decDropped | errInfo | srcCap
      | priCap | sdcCap | dstCap => rfl
      | cmd | status | ctrl | width | height | srcLen | priLen | sdcLen => simp [Reg.offset] at h

/-! ### The words of the flags and of the root -/

theorem State.statusWord_fields (s : State) :
    s.statusWord.getLsbD 0 = s.busy ∧ s.statusWord.getLsbD 1 = s.done ∧ s.statusWord.getLsbD 2 = s.tblMalformed ∧
    s.statusWord.extractLsb' 3 5 = 0#5 ∧ s.statusWord.extractLsb' 8 4 = outcomeBits s.outcome ∧
    s.statusWord.extractLsb' 12 20 = 0#20 := by
  unfold State.statusWord
  refine ⟨?busy, ?done, ?malformed, ?reserved, ?outcome, ?high⟩
  case busy | done | malformed =>
    simp only [BitVec.getLsbD_append]
    simp
  all_goals
    ext i hi
    simp only [BitVec.getElem_extractLsb', BitVec.getLsbD_append]
  case reserved => simp; omega
  case outcome => simp [hi]
  case high => simp; omega

theorem State.toNat_ctrlWord (s : State) : s.ctrlWord.toNat = s.ie.toNat := by
  rw [State.ctrlWord, BitVec.toNat_append]
  simp

theorem toNat_zero_append_dim (d : Dim) : (0#16 ++ d : Word).toNat = d.toNat := by
  rw [BitVec.toNat_append]
  simp

theorem State.toNat_rootWord {s : State} {i : NodeIdx} (h : s.root = some i) : s.rootWord.toNat = 2 ^ 31 + i.toNat := by
  have hi := i.isLt
  rw [State.rootWord, h]
  simp only [BitVec.toNat_append]
  rw [← Nat.shiftLeft_add_eq_or_of_lt (by omega)]
  rfl

/-! ### Sizes of the tables -/

theorem symCount_le (t : Table Code) : symCount t ≤ 256 := length_codedSymbols_le t

theorem maxLen_of_empty {t : Table Code} (h : ∀ x, t.entry x = []) : maxLen t = 0 :=
  Nat.le_zero.1 (maxLen_le fun x => by simp [h x])

theorem ArenaOk.length_le {nodes : List Node} {root : Option NodeIdx} (h : ArenaOk nodes root) : nodes.length ≤ 511 := by
  rcases h with ⟨rfl, -⟩ | ⟨n, ht, -⟩
  · simp
  · have hs := ht.size
    have hn := ht.leafCount
    omega

/-! ### The map, the views, and the register writes -/

/-- Settles O7, register by register: the word at an offset is the value of the register there. -/
theorem registerMapReads : Obligations.RegisterMapReads := by
  intro s
  have hsmall : ∀ n : Nat, n < 2 ^ 32 → (BitVec.ofNat 32 n).toNat = n := fun n h => by
    rw [BitVec.toNat_ofNat, Nat.mod_eq_of_lt h]
  refine ⟨s.wordAt_offset .id, s.wordAt_offset .cmd, s.wordAt_offset .status, ?ctrl, ?width, ?height,
    s.wordAt_offset .srcLen, s.wordAt_offset .priLen, s.wordAt_offset .sdcLen, s.wordAt_offset .dstLen, ?expected,
    ?symCount, ?views, fun h => ?noRoot, fun i h => ?root, s.wordAt_offset .decCount, s.wordAt_offset .decDropped,
    s.wordAt_offset .errInfo, s.wordAt_offset .srcCap, s.wordAt_offset .priCap, s.wordAt_offset .sdcCap,
    s.wordAt_offset .dstCap, fun off => s.wordAt_reserved⟩
  case ctrl => exact s.toNat_ctrlWord
  case width => exact toNat_zero_append_dim _
  case height => exact toNat_zero_append_dim _
  case expected => exact hsmall _ s.expected_lt
  case symCount => exact hsmall _ (by have := symCount_le s.code; omega)
  case views =>
    rintro ⟨-, harena, hfits⟩
    have hmax : maxLen s.code ≤ 255 := maxLen_le hfits
    have hcnt : s.nodeCnt ≤ 511 := harena.length_le
    have hl : (s.wordAt 0x30).toNat = maxLen s.code := hsmall _ (by omega)
    have hn : (s.wordAt 0x34).toNat = s.nodeCnt := hsmall _ (by omega)
    exact ⟨hl, hn, hl ▸ hmax, hn ▸ hcnt⟩
  case noRoot =>
    rw [show s.wordAt 0x38 = s.rootWord from s.wordAt_offset .root, State.rootWord, h]
  case root => exact State.toNat_rootWord h

/-- Settles O8 with the laws of the views and of the inverse lookup. -/
theorem romViewsAndLookup : Obligations.RomViewsAndLookup := by
  intro t
  refine ⟨?count, symCount_le t, symCount_eq_zero t, length_le_maxLen t, maxLen_attained t, maxLen_of_empty,
    fun q hq => ⟨fun x => ?found, lookup_none hq⟩⟩
  case count => rw [symCount, codedSymbols_eq]
  case found => rw [lookup_some, and_iff_right hq]

/-! ### What a step does -/

theorem decodeWord_encode (i : Instr) : decodeWord (encode i) = .ok i := by cases i <;> rfl

theorem step_command {s : State} {i : Instr} (hb : s.busy = true) (hm : s.hostMovesFirst = false)
    (hi : decodeWord s.cmdLatch = .ok i) : step s = exec i s := by
  rw [step, if_pos hb, if_neg (by simp [hm]), sequencerMove, hi]

theorem State.withFetchWord_toNat (s : State) (w : Word) :
    s.withFetchWord 32 w.toNat = { s.accept w with hostSlots := 0 } := by
  rw [State.withFetchWord, Nat.mod_eq_of_lt w.isLt, BitVec.ofNat_toNat, BitVec.setWidth_eq]

/-- The step in which an idle machine's host writes a register. -/
theorem step_writeReg (r : Reg) {s : State} {v : Word} {rest : List HostOp}
    (hs : s.script = .regWrite r.offset 4 v :: rest) (hb : s.busy = false) :
    step s = .next ({ s with script := rest }.regWriteIdle v r) := by
  have hlt := offset_lt_reserved r
  rw [step_regWrite_idle hs hb (offset_aligned r) (by omega)]
  exact congrArg Host.Outcome.next (State.regWrite_offset (s := { s with script := rest }) hb r v)

/-- Settles O3: after the accept step no host move is left before the command. -/
theorem stepExecutesAcceptedCommand : Obligations.StepExecutesAcceptedCommand := by
  refine ⟨fun s i => step_command, fun s i => ?_⟩
  rw [State.withFetchWord_toNat]
  exact step_command rfl rfl (decodeWord_encode i)

/-- Settles O5: the write effect of `CMD` while idle is the accept step, and there is none while busy. -/
theorem cmdWriteAcceptsOnlyWhenIdle : Obligations.CmdWriteAcceptsOnlyWhenIdle := by
  intro s w rest hs
  exact ⟨step_writeReg .cmd hs, fun hb hm => step_regWrite_during hs hb hm rfl (by decide), s.wordAt_offset .cmd⟩

/-- Settles O6 from the fields of the word and the write effect of `STATUS`. -/
theorem statusFieldsAndDoneClear : Obligations.StatusFieldsAndDoneClear := by
  intro s
  obtain ⟨hbusy, hdone, hmal, hlow, hout, hhigh⟩ := s.statusWord_fields
  refine ⟨hbusy, hdone, hmal, hlow, hout, hhigh, fun v hb => State.regWrite_offset hb .status v,
    fun v hb => State.regWrite_busy hb _ v, fun v rest hs => ⟨fun hb hv => ?set, fun hb hv => ?unset, fun hb hm => ?during⟩⟩
  case set => exact (step_writeReg .status hs hb).trans (congrArg Host.Outcome.next (if_pos hv))
  case unset => exact (step_writeReg .status hs hb).trans (congrArg Host.Outcome.next (if_neg (Bool.eq_false_iff.1 hv)))
  case during => exact step_regWrite_during hs hb hm rfl (by decide)

/-- Settles O10, register by register. -/
theorem regWriteEffects : Obligations.RegWriteEffects := by
  intro s v
  refine ⟨fun hb => ⟨State.regWrite_offset hb .ctrl v, State.regWrite_offset hb .width v,
      State.regWrite_offset hb .height v, State.regWrite_offset hb .srcLen v, State.regWrite_offset hb .priLen v,
      State.regWrite_offset hb .sdcLen v⟩,
    fun off => s.regWrite_readOnly v, fun hb off => State.regWrite_busy hb off v, fun off rest hs h4 hlt => ?_⟩
  exact ⟨fun hb => step_regWrite_idle hs hb h4 hlt, fun hb hm => step_regWrite_during hs hb hm h4 hlt⟩

/-! ### What a command leaves alone: its inputs -/

theorem KeepsInputs.refl (s : State) : KeepsInputs s s :=
  ⟨rfl, rfl, rfl, rfl, rfl, rfl, fun _ => rfl, rfl, rfl, rfl, rfl, rfl, rfl⟩

theorem KeepsInputs.trans {s t u : State} (h : KeepsInputs s t) (k : KeepsInputs t u) : KeepsInputs s u := by
  obtain ⟨h1, h2, h3, h4, h5, h6, h7, h8, h9, h10, h11, h12, h13⟩ := h
  obtain ⟨k1, k2, k3, k4, k5, k6, k7, k8, k9, k10, k11, k12, k13⟩ := k
  exact ⟨k1.trans h1, k2.trans h2, k3.trans h3, k4.trans h4, k5.trans h5, k6.trans h6, fun a => (k7 a).trans (h7 a),
    k8.trans h8, k9.trans h9, k10.trans h10, k11.trans h11, k12.trans h12, k13.trans h13⟩

theorem keepsInputs_setLen (s : State) {S : Space} (hS : S ≠ .src) (n : Word) : KeepsInputs s (s.setLen S n) := by
  cases S with
  | src => exact absurd rfl hS
  | pri | sdc | dst => exact KeepsInputs.refl s

theorem keepsInputs_commit (s : State) {S : Space} (hS : S ≠ .src) (out : List Byte) : KeepsInputs s (s.commit S out) := by
  cases S with
  | src => exact absurd rfl hS
  | pri | sdc | dst => exact KeepsInputs.refl s

theorem decBody_keepsInputs (s : State) : KeepsInputs s (decBody s).1 := by
  have hcounted : KeepsInputs s (decCounted s) := KeepsInputs.refl s
  rcases decBody_cases s with ⟨-, e⟩ | ⟨-, -, e⟩ | ⟨-, -, -, e⟩ | ⟨-, -, -, e⟩ <;> rw [e]
  · exact KeepsInputs.refl s
  · exact hcounted
  · exact hcounted
  · exact hcounted.trans (keepsInputs_commit _ (by decide) _)

theorem encodeBody_keepsInputs (s : State) : KeepsInputs s (encodeBody s).1 := by
  have htables : KeepsInputs s (encodeTables s) := KeepsInputs.refl s
  have hdrop : ∀ t : State, KeepsInputs t t.dropTree := fun t => KeepsInputs.refl t
  rcases encodeBody_cases s with ⟨-, e⟩ | ⟨-, e⟩ | ⟨-, -, ⟨-, e⟩ | ⟨-, -, e⟩ | ⟨-, -, e⟩⟩ <;> rw [e]
  · exact KeepsInputs.refl s
  · exact KeepsInputs.refl s
  · exact htables.trans (hdrop _)
  · exact htables.trans (hdrop _)
  · exact ((htables.trans (keepsInputs_commit _ (by decide) _)).trans (keepsInputs_commit _ (by decide) _)).trans (hdrop _)

theorem decodeBody_keepsInputs (s : State) : KeepsInputs s (decodeBody s).1 := by
  rcases decodeBody_ends s with ⟨-, e⟩ | ⟨-, -, e⟩ | ⟨-, -, e⟩ <;> rw [e]
  · exact KeepsInputs.refl s
  · exact KeepsInputs.refl s
  · exact KeepsInputs.trans (KeepsInputs.refl s) (decBody_keepsInputs _)

theorem commandBody_keepsInputs (i : Instr) (s : State) : KeepsInputs s (commandBody i s).1 := by
  cases i with
  | nop | clr | gen => exact KeepsInputs.refl s
  | sample =>
    rcases sampleBody_cases s with ⟨-, e⟩ | ⟨-, e⟩ <;> rw [commandBody, e] <;> exact KeepsInputs.refl s
  | build =>
    rcases buildBody_cases s with ⟨-, e⟩ | ⟨_, _, -, e⟩ <;> rw [commandBody, e] <;> exact KeepsInputs.refl s
  | emit =>
    rcases emitBody_cases s with ⟨_, -, e⟩ | ⟨_, -, e⟩ <;> rw [commandBody, e]
    · exact keepsInputs_setLen s (by decide) _
    · exact keepsInputs_commit s (by decide) _
  | tsave =>
    rcases tsaveBody_cases s with ⟨_, -, e⟩ | ⟨_, -, e⟩ <;> rw [commandBody, e]
    · exact keepsInputs_setLen s (by decide) _
    · exact keepsInputs_commit s (by decide) _
  | tload =>
    rcases tloadBody_cases s with ⟨-, e⟩ | ⟨-, -, e⟩ | ⟨-, -, e⟩ <;> rw [commandBody, e] <;> exact KeepsInputs.refl s
  | dec => exact decBody_keepsInputs s
  | encode => exact encodeBody_keepsInputs s
  | decode => exact decodeBody_keepsInputs s

/-- Settles O51: completing a command writes only what it reports, so its body's frame is the command's. -/
theorem commandsKeepInputs : Obligations.CommandsKeepInputs := by
  intro i s t h
  rw [exec_next h]
  exact (commandBody_keepsInputs i s).trans (KeepsInputs.refl _)

/-! ### What a host move leaves alone: the tables and the report -/

/-- `FREQ`, the arena and `CODE` are as before. -/
def KeepsTables (s t : State) : Prop := KeepsTree s t ∧ t.code = s.code

/-- `STATUS`, `ERR_INFO` and the counter it may show are as before, but that `DONE` may have been cleared (R24). -/
def KeepsReport (s t : State) : Prop :=
  t.busy = s.busy ∧ (t.done = s.done ∨ t.done = false) ∧ t.outcome = s.outcome ∧ t.errInfo = s.errInfo ∧
  t.decCount = s.decCount

/-- No outcome is shown: as after accepting a command (R21) and after reset. -/
def State.ReportsNothing (t : State) : Prop := t.done = false ∧ t.outcome = .ok ∧ t.errInfo = 0#32

/-- What a host move does to the tables and to the report: only a reset touches the tables, and only a reset or an
accepted command the report. -/
def HostFrame (s t : State) : Prop :=
  (KeepsTables s t ∨ EmptyTree t ∧ t.code = emptyCode) ∧ (KeepsReport s t ∨ t.ReportsNothing)

theorem KeepsTables.refl (s : State) : KeepsTables s s := ⟨⟨rfl, rfl, rfl⟩, rfl⟩

theorem HostFrame.refl (s : State) : HostFrame s s := ⟨.inl (KeepsTables.refl s), .inl ⟨rfl, .inl rfl, rfl, rfl, rfl⟩⟩

theorem regRead_hostFrame (s : State) (off : Nat) : HostFrame s (s.regRead off) := by
  unfold State.regRead
  split <;> exact HostFrame.refl s

theorem regWriteIdle_hostFrame (s : State) (v : Word) (r : Reg) : HostFrame s (s.regWriteIdle v r) := by
  cases r with
  | cmd => exact ⟨.inl (KeepsTables.refl s), .inr ⟨rfl, rfl, rfl⟩⟩
  | status =>
    show HostFrame s (s.writeStatus v)
    unfold State.writeStatus
    split
    · exact ⟨.inl (KeepsTables.refl s), .inl ⟨rfl, .inr rfl, rfl, rfl, rfl⟩⟩
    · exact HostFrame.refl s
  | _ => exact HostFrame.refl s

theorem regWrite_hostFrame (s : State) (off : Nat) (v : Word) : HostFrame s (s.regWrite off v) := by
  unfold State.regWrite
  split
  · exact HostFrame.refl s
  · cases regAt off with
    | none => exact HostFrame.refl s
    | some r => exact regWriteIdle_hostFrame s v r

theorem memWrite_hostFrame (s : State) (S : Space) (a : Nat) (v : Byte) : HostFrame s (s.memWrite S a v) := by
  cases S <;> exact HostFrame.refl s

theorem hardwareReset_hostFrame (s : State) : HostFrame s s.hardwareReset :=
  ⟨.inr ⟨⟨rfl, rfl, rfl⟩, rfl⟩, .inr ⟨rfl, rfl, rfl⟩⟩

theorem hostPerform_hostFrame {op : HostOp} {s t : State} (h : hostPerform op s = .next t) : HostFrame s t := by
  cases op with
  | regRead off n => cases h; exact regRead_hostFrame s off
  | regWrite off n v => cases h; exact regWrite_hostFrame s off v
  | memRead S a n =>
    simp only [hostPerform] at h
    split at h
    · cases h
    · split at h
      · cases h
        exact HostFrame.refl s
      · cases h
  | memWrite S a n v =>
    simp only [hostPerform] at h
    split at h
    · cases h
    · split at h
      · cases h
        exact memWrite_hostFrame s S a v
      · cases h
  | waitIdle => cases h; exact HostFrame.refl s
  | hardwareReset => cases h; exact hardwareReset_hostFrame s

theorem hostMove_hostFrame {s t : State} (h : hostMove s = .next t) : HostFrame s t := by
  rcases hostMove_cases s with ⟨-, e⟩ | ⟨op, rest, -, -, e⟩ | ⟨op, rest, -, -, e⟩ <;> rw [e] at h
  · cases h
    exact HostFrame.refl s
  · exact hostPerform_hostFrame (s := { s with script := rest }) h
  · cases h

/-- What a step can be: a command completed, an illegal word completed, or a host move. -/
theorem step_next_cases {s t : State} (h : step s = .next t) :
    (∃ i, t = (commandBody i s).1.complete (commandBody i s).2) ∨
    ((∀ i, s.cmdLatch ≠ encode i) ∧ t = s.complete (illegalEnding s.cmdLatch)) ∨ HostFrame s t := by
  rcases step_cases s with ⟨-, -, e⟩ | ⟨-, -, e⟩ | ⟨-, e⟩ <;> rw [e] at h
  · rcases sequencerMove_cases s with ⟨i, -, e⟩ | ⟨r, hr, e⟩ <;> rw [e] at h
    · exact .inl ⟨i, exec_next h⟩
    · refine .inr (.inl ⟨fun i hi => ?_, (Host.Outcome.next.inj h).symm⟩)
      rw [hi, decodeWord_encode] at hr
      cases hr
  · exact .inr (.inr (hostMove_hostFrame (s := s.spendSlot) h))
  · exact .inr (.inr (hostMove_hostFrame h))

/-! ### The tables stay well formed -/

theorem KeepsTables.tablesWf {s t : State} (h : KeepsTables s t) (hs : s.TablesWf) : t.TablesWf := by
  obtain ⟨⟨hf, hn, hr⟩, hc⟩ := h
  unfold State.TablesWf
  rwa [hf, hn, hr, hc]

theorem romFits_emptyCode : RomFits emptyCode := fun x => by simp

theorem EmptyTree.tablesWf {t : State} (h : EmptyTree t) (hc : RomFits t.code) : t.TablesWf := by
  obtain ⟨hf, hn, hr⟩ := h
  refine ⟨?_, .inl ⟨hn, hr⟩, hc⟩
  rw [hf]
  simp [freqTotal]

theorem keepsTables_setLen (s : State) (S : Space) (n : Word) : KeepsTables s (s.setLen S n) := by
  simp [KeepsTables, KeepsTree]

theorem keepsTables_commit (s : State) (S : Space) (out : List Byte) : KeepsTables s (s.commit S out) := by
  simp [KeepsTables, KeepsTree]

theorem freqTotal_countBytes_content (s : State) (S : Space) : freqTotal (countBytes (s.content S)) < 2 ^ 32 := by
  have hlen : (s.content S).length < 2 ^ 32 := by
    rw [s.length_content]
    exact s.lenOf_lt S
  rwa [freqTotal_countBytes hlen]

theorem sampleBody_tablesWf {s : State} (h : s.TablesWf) : (sampleBody s).1.TablesWf := by
  rcases sampleBody_cases s with ⟨-, e⟩ | ⟨-, e⟩ <;> rw [e]
  · exact h
  · exact ⟨freqTotal_countBytes_content s .src, h.2⟩

theorem buildBody_tablesWf {s : State} (h : s.TablesWf) : (buildBody s).1.TablesWf := by
  obtain ⟨hfreq, -, hfits⟩ := h
  rw [buildBody_eq]
  split
  · exact ⟨hfreq, .inl ⟨rfl, rfl⟩, hfits⟩
  · exact ⟨hfreq, .inr ⟨_, (buildTree_tree s.freq (by omega)).1, rfl⟩, hfits⟩

theorem genBody_tablesWf {s : State} (h : s.TablesWf) : (genBody s).1.TablesWf := by
  obtain ⟨hfreq, harena, -⟩ := h
  exact ⟨hfreq, harena, romOf_fits harena⟩

theorem tloadBody_tablesWf {s : State} (h : s.TablesWf) : (tloadBody s).1.TablesWf := by
  obtain ⟨hfreq, harena, -⟩ := h
  rcases tloadBody_cases s with ⟨-, e⟩ | ⟨-, -, e⟩ | ⟨-, -, e⟩ <;> rw [e]
  · exact ⟨hfreq, harena, romFits_emptyCode⟩
  · exact ⟨hfreq, harena, loadLines_fits _⟩
  · exact ⟨hfreq, harena, loadLines_fits _⟩

theorem decBody_keepsTables (s : State) : KeepsTables s (decBody s).1 := by
  rcases decBody_cases s with ⟨-, e⟩ | ⟨-, -, e⟩ | ⟨-, -, -, e⟩ | ⟨-, -, -, e⟩ <;> rw [e]
  · exact KeepsTables.refl s
  · exact KeepsTables.refl s
  · exact KeepsTables.refl s
  · exact keepsTables_commit (decCounted s) _ _

/-- `ENCODE` leaves no tree, and in the ROM the codes of the buffer or none (R142, R143). -/
theorem encodeBody_tablesWf (s : State) : (encodeBody s).1.TablesWf := by
  have hrom : RomFits (romOfBuffer (s.content .src)) := romOfTable_fits _
  rcases encodeBody_cases s with ⟨-, e⟩ | ⟨-, e⟩ | ⟨-, -, ⟨-, e⟩ | ⟨-, -, e⟩ | ⟨-, -, e⟩⟩ <;> rw [e]
  · exact EmptyTree.tablesWf ⟨rfl, rfl, rfl⟩ romFits_emptyCode
  · exact EmptyTree.tablesWf ⟨rfl, rfl, rfl⟩ romFits_emptyCode
  all_goals exact EmptyTree.tablesWf ⟨rfl, rfl, rfl⟩ hrom

theorem decodeBody_tablesWf (s : State) : (decodeBody s).1.TablesWf := by
  have hload : (tloadBody (decodeStartState s)).1.TablesWf :=
    tloadBody_tablesWf (EmptyTree.tablesWf ⟨rfl, rfl, rfl⟩ romFits_emptyCode)
  rcases decodeBody_cases s with ⟨-, e⟩ | ⟨-, e⟩ <;> rw [e]
  · exact hload
  · exact (decBody_keepsTables _).tablesWf hload

theorem commandBody_tablesWf (i : Instr) {s : State} (h : s.TablesWf) : (commandBody i s).1.TablesWf := by
  cases i with
  | nop => exact h
  | clr => exact EmptyTree.tablesWf ⟨rfl, rfl, rfl⟩ romFits_emptyCode
  | sample => exact sampleBody_tablesWf h
  | build => exact buildBody_tablesWf h
  | gen => exact genBody_tablesWf h
  | emit =>
    rcases emitBody_cases s with ⟨_, -, e⟩ | ⟨_, -, e⟩ <;> rw [commandBody, e]
    · exact (keepsTables_setLen s _ _).tablesWf h
    · exact (keepsTables_commit s _ _).tablesWf h
  | tsave =>
    rcases tsaveBody_cases s with ⟨_, -, e⟩ | ⟨_, -, e⟩ <;> rw [commandBody, e]
    · exact (keepsTables_setLen s _ _).tablesWf h
    · exact (keepsTables_commit s _ _).tablesWf h
  | tload => exact tloadBody_tablesWf h
  | dec => exact (decBody_keepsTables s).tablesWf h
  | encode => exact encodeBody_tablesWf s
  | decode => exact decodeBody_tablesWf s

/-- Settles O57: every command's body keeps the tables well formed, and a host move leaves them alone or resets them. -/
theorem stepKeepsTablesWf : Obligations.StepKeepsTablesWf := by
  intro s t hs h
  rcases step_next_cases h with ⟨i, rfl⟩ | ⟨-, rfl⟩ | ⟨hkeep | ⟨hempty, hc⟩, -⟩
  · exact commandBody_tablesWf i hs
  · exact hs
  · exact hkeep.tablesWf hs
  · exact hempty.tablesWf (hc ▸ romFits_emptyCode)

/-! ### The report stays consistent -/

/-- The information word of an ending is the one its outcome requires, `count` being `DEC_COUNT` (60_exceptions.md R160). -/
def Ending.Fits (e : Ending) (count : Word) : Prop :=
  (e.code = .ok ∨ e.code = .emptyInput ∨ e.code = .tableNotFound → e.info = 0#32) ∧
  (e.code = .truncatedOutput → e.info = count) ∧
  (e.code = .ioFailure → e.info.toNat ≤ 3) ∧
  (e.code = .illegalCommand → ∀ i, e.info ≠ encode i)

theorem State.complete_reportWf {s : State} {e : Ending} (h : e.Fits s.decCount) : (s.complete e).ReportWf :=
  ⟨fun hb => absurd hb Bool.false_ne_true, h⟩

section
variable (count : Word)

theorem okEnding_fits : okEnding.Fits count := by simp [Ending.Fits, okEnding]

theorem emptyInputEnding_fits : emptyInputEnding.Fits count := by simp [Ending.Fits, emptyInputEnding]

theorem tableNotFoundEnding_fits : tableNotFoundEnding.Fits count := by simp [Ending.Fits, tableNotFoundEnding]

theorem unknownSymbolEnding_fits (k : Nat) : (unknownSymbolEnding k).Fits count := by
  simp [Ending.Fits, unknownSymbolEnding]

theorem ioFailureEnding_fits (S : Space) : (ioFailureEnding S).Fits count := by
  cases S <;> simp [Ending.Fits, ioFailureEnding, spaceId]

theorem illegalEnding_fits {w : Word} (h : ∀ i, w ≠ encode i) : (illegalEnding w).Fits count := by
  simpa [Ending.Fits, illegalEnding] using h

end

theorem truncatedEnding_fits (n : Nat) : (truncatedEnding n).Fits (BitVec.ofNat 32 n) := by
  simp [Ending.Fits, truncatedEnding]

theorem emitBody_fits (s : State) (count : Word) : (emitBody s).2.Fits count := by
  rcases emitBody_cases s with ⟨e, he, eq⟩ | ⟨_, -, eq⟩ <;> rw [eq]
  · rcases emitArtifact_error he with rfl | rfl | rfl | ⟨k, -, rfl⟩
    · exact ioFailureEnding_fits count .src
    · exact emptyInputEnding_fits count
    · exact ioFailureEnding_fits count .pri
    · exact unknownSymbolEnding_fits count k
  · exact okEnding_fits count

theorem decBody_fits (s : State) : (decBody s).2.Fits (decBody s).1.decCount := by
  rcases decBody_cases s with ⟨-, e⟩ | ⟨-, -, e⟩ | ⟨-, -, -, e⟩ | ⟨-, -, -, e⟩ <;> rw [e]
  · exact ioFailureEnding_fits _ .pri
  · exact ioFailureEnding_fits _ .dst
  · exact truncatedEnding_fits (decOut s).length
  · exact okEnding_fits _

/-- Every command ends with the information word of its outcome; `TRUNCATED_OUTPUT` shows the count it leaves. -/
theorem commandBody_fits (i : Instr) (s : State) : (commandBody i s).2.Fits (commandBody i s).1.decCount := by
  cases i with
  | nop | clr | gen => exact okEnding_fits _
  | sample =>
    rcases sampleBody_cases s with ⟨-, e⟩ | ⟨-, e⟩ <;> rw [commandBody, e]
    · exact ioFailureEnding_fits _ .src
    · exact okEnding_fits _
  | build =>
    rcases buildBody_cases s with ⟨-, e⟩ | ⟨_, _, -, e⟩ <;> rw [commandBody, e]
    · exact emptyInputEnding_fits _
    · exact okEnding_fits _
  | emit => exact emitBody_fits s _
  | tsave =>
    rw [commandBody, tsaveBody_eq]
    split
    · exact okEnding_fits _
    · exact ioFailureEnding_fits _ .sdc
  | tload =>
    rcases tloadBody_cases s with ⟨-, e⟩ | ⟨-, -, e⟩ | ⟨-, -, e⟩ <;> rw [commandBody, e]
    · exact ioFailureEnding_fits _ .sdc
    · exact tableNotFoundEnding_fits _
    · exact okEnding_fits _
  | dec => exact decBody_fits s
  | encode =>
    rcases encodeBody_cases s with ⟨-, e⟩ | ⟨-, e⟩ | ⟨-, -, ⟨-, e⟩ | ⟨-, -, e⟩ | ⟨-, -, e⟩⟩ <;> rw [commandBody, e]
    · exact ioFailureEnding_fits _ .src
    · exact emptyInputEnding_fits _
    · exact ioFailureEnding_fits _ .pri
    · exact ioFailureEnding_fits _ .sdc
    · exact okEnding_fits _
  | decode =>
    rcases decodeBody_ends s with ⟨-, e⟩ | ⟨-, -, e⟩ | ⟨-, -, e⟩ <;> rw [commandBody, e]
    · exact ioFailureEnding_fits _ .sdc
    · exact tableNotFoundEnding_fits _
    · exact decBody_fits _

theorem State.ReportsNothing.reportWf {t : State} (h : t.ReportsNothing) : t.ReportWf := by
  obtain ⟨hd, ho, he⟩ := h
  simp [State.ReportWf, hd, ho, he]

theorem KeepsReport.reportWf {s t : State} (h : KeepsReport s t) (hs : s.ReportWf) : t.ReportWf := by
  obtain ⟨hb, hd, ho, he, hc⟩ := h
  obtain ⟨hbusy, hrest⟩ := hs
  unfold State.ReportWf
  rw [hb, ho, he, hc]
  refine ⟨fun h => ?_, hrest⟩
  obtain ⟨hdone, hout, hinfo⟩ := hbusy h
  exact ⟨hd.elim (fun hd => hd.trans hdone) id, hout, hinfo⟩

/-- Settles O58: a completed command reports an ending that fits, and a host move shows less or the same. -/
theorem stepKeepsReportWf : Obligations.StepKeepsReportWf := by
  intro s t hs h
  rcases step_next_cases h with ⟨i, rfl⟩ | ⟨hill, rfl⟩ | ⟨-, hkeep | hnone⟩
  · exact State.complete_reportWf (commandBody_fits i s)
  · exact State.complete_reportWf (illegalEnding_fits _ hill)
  · exact hkeep.reportWf hs
  · exact hnone.reportWf

end Sys2Proof.Machine
end

section
/-! The memory rules of 20_memory.md: what the host's accesses do to the byte spaces and to a running command, which of
them are refused, and that every step keeps the spaces well formed. -/

namespace Sys2Proof.Machine

/-! ### The host operations, one rule per outcome -/

/-- A register read answers the map's value unless a command runs and the offset is not stable (R40). -/
theorem State.regRead_defined {s : State} {off : Nat} (h : s.busy = true → offsetStableWhileBusy off = true) :
    s.regRead off = s.respond (.word (s.wordAt off)) := by
  refine if_neg fun hu => ?_
  obtain ⟨hb, hn⟩ := Bool.and_eq_true_iff.1 hu
  simp [h hb] at hn

/-- Whatever it answers, a register read writes the host's side only (R40). -/
theorem State.regRead_withHost (s : State) (off : Nat) :
    ∃ v n, s.regRead off = s.withHost s.script (.word v :: s.responses) s.hostSlots n := by
  unfold State.regRead
  split
  · exact ⟨_, _, rfl⟩
  · exact ⟨_, _, rfl⟩

/-- The registers of R40's list and the reserved offsets are stable. -/
theorem offsetStableWhileBusy_of_listed {off : Nat}
    (h : off ∈ [0x00, 0x08, 0x0C, 0x10, 0x14, 0x28, 0x48, 0x4C, 0x50, 0x54] ∨ 0x58 ≤ off) :
    offsetStableWhileBusy off = true := by
  rcases h with hlist | hres
  · revert off
    decide
  · rw [offsetStableWhileBusy, regAt_reserved hres]

/-- A register access as the port admits it (R44). -/
theorem regAccessWellFormed_word {off : Nat} (h4 : off % 4 = 0) (hlt : off < 0x100) :
    regAccessWellFormed off 4 = true := by
  simp [regAccessWellFormed, h4, hlt]

theorem regAccessWellFormed_false {off n : Nat} (h : n ≠ 4 ∨ off % 4 ≠ 0 ∨ 0x100 ≤ off) :
    regAccessWellFormed off n = false := by
  rw [Bool.eq_false_iff]
  intro hw
  simp only [regAccessWellFormed, Bool.and_eq_true, beq_iff_eq, decide_eq_true_eq] at hw
  omega

theorem memAccessWellFormed_false {n : Nat} (h : n ≠ 1) : memAccessWellFormed n = false := by
  simpa [memAccessWellFormed] using h

/-- The operation accesses the byte of a space at an offset, in a form that may be wider than the port admits. -/
def HostOp.AccessesByte (op : HostOp) (S : Space) (a n : Nat) : Prop :=
  op = .memRead S a n ∨ ∃ v, op = .memWrite S a n v

section
variable {s : State} {op : HostOp} {S : Space} {a n : Nat}

theorem HostOp.AccessesByte.wellFormed (h : op.AccessesByte S a n) : op.wellFormed = memAccessWellFormed n := by
  rcases h with rfl | ⟨v, rfl⟩ <;> rfl

/-- A space access while a command runs is refused (R44, U3). -/
theorem hostPerform_spaceAccess_busy (h : op.AccessesByte S a n) (hb : s.busy = true) :
    hostPerform op s = .refused (.spaceAccessWhileBusy op) := by
  rcases h with rfl | ⟨v, rfl⟩ <;> exact if_pos hb

/-- A space access at or above the capacity is refused (R44, U2). -/
theorem hostPerform_spaceAccess_outside (h : op.AccessesByte S a n) (hb : s.busy = false) (ha : s.capOf S ≤ a) :
    hostPerform op s = .refused (.accessNotAdmitted op) := by
  have hrange : s.spaceAccessInRange S a = false := by simpa [State.spaceAccessInRange] using ha
  rcases h with rfl | ⟨v, rfl⟩ <;> simp [hostPerform, hb, hrange]

/-- A space access that is performed finds the machine idle and lies below the capacity (R44). -/
theorem spaceAccess_admitted {t : State} (h : op.AccessesByte S a n) (hp : hostPerform op s = .next t) :
    s.busy = false ∧ a < s.capOf S := by
  have hb : s.busy = false := by
    rw [Bool.eq_false_iff]
    intro hb
    rw [hostPerform_spaceAccess_busy h hb] at hp
    cases hp
  refine ⟨hb, Nat.lt_of_not_le fun ha => ?_⟩
  rw [hostPerform_spaceAccess_outside h hb ha] at hp
  cases hp

theorem hostPerform_memRead (hb : s.busy = false) (ha : a < s.capOf S) :
    hostPerform (.memRead S a n) s = .next (s.respond (.byte (s.memRead S a))) := by
  simp [hostPerform, hb, State.spaceAccessInRange, ha]

theorem hostPerform_memWrite {v : Byte} (hb : s.busy = false) (ha : a < s.capOf S) :
    hostPerform (.memWrite S a n v) s = .next (s.memWrite S a v) := by
  simp [hostPerform, hb, State.spaceAccessInRange, ha]

end

/-! ### The byte spaces stay well formed -/

section
variable {s : State}

theorem State.SpacesWf.setSpace (h : s.SpacesWf) {S : Space} {m : Memory} (hwf : m.wf) (hbelow : m.below (s.capOf S)) :
    (s.setSpace S m).SpacesWf := by
  intro S'
  rw [State.space_setSpace, State.capOf_setSpace]
  split
  · subst S'
    exact ⟨hwf, hbelow⟩
  · exact h S'

theorem State.SpacesWf.setLen (h : s.SpacesWf) (S : Space) (n : Word) : (s.setLen S n).SpacesWf := by
  intro S'
  rw [State.space_setLen, State.capOf_setLen]
  exact h S'

/-- A byte stored below the capacity (R43, R44). -/
theorem State.SpacesWf.memWrite (h : s.SpacesWf) {S : Space} {a : Nat} (ha : a < s.capOf S) (v : Byte) :
    (s.memWrite S a v).SpacesWf :=
  h.setSpace (Memory.store_wf (h S).1 a v) (Memory.store_below (h S).2 ha v)

/-- An artifact that fits its space (R38, R39). -/
theorem State.SpacesWf.commit (h : s.SpacesWf) {S : Space} {out : List Byte} (hfit : out.length ≤ s.capOf S) :
    (s.commit S out).SpacesWf :=
  (h.setSpace (Memory.storeAll_wf out (h S).1 0) (Memory.storeAll_below out (h S).2 (by omega))).setLen S _

theorem State.hardwareReset_spacesWf (s : State) : s.hardwareReset.SpacesWf := by
  have hspace : ∀ S, s.hardwareReset.space S = [] := fun S => by cases S <;> rfl
  intro S
  rw [hspace]
  exact ⟨List.Pairwise.nil, fun _ hc => absurd hc List.not_mem_nil⟩

theorem emitBody_spacesWf (h : s.SpacesWf) : (emitBody s).1.SpacesWf := by
  rcases emitBody_cases s with ⟨_, -, e⟩ | ⟨out, hout, e⟩ <;> rw [e]
  · exact h.setLen .pri _
  · obtain ⟨-, -, -, hfit, -⟩ := emitArtifact_ok hout
    exact h.commit hfit

theorem tsaveBody_spacesWf (h : s.SpacesWf) : (tsaveBody s).1.SpacesWf := by
  rw [tsaveBody_eq]
  split
  · exact h.commit ‹_›
  · exact h.setLen .sdc _

theorem decBody_spacesWf (h : s.SpacesWf) : (decBody s).1.SpacesWf := by
  have hcounted : (decCounted s).SpacesWf := h
  rcases decBody_cases s with ⟨-, e⟩ | ⟨-, -, e⟩ | ⟨-, -, -, e⟩ | ⟨-, hfit, -, e⟩ <;> rw [e]
  · exact h
  · exact hcounted
  · exact hcounted
  · exact hcounted.commit hfit

/-- `ENCODE` commits its artifacts only when both fit (R140, R142). -/
theorem encodeBody_spacesWf (h : s.SpacesWf) : (encodeBody s).1.SpacesWf := by
  have htables : (encodeTables s).SpacesWf := h
  have hdrop : ∀ t : State, t.SpacesWf → t.dropTree.SpacesWf := fun t ht => ht
  rcases encodeBody_cases s with ⟨-, e⟩ | ⟨-, e⟩ | ⟨-, -, ⟨-, e⟩ | ⟨-, -, e⟩ | ⟨hpri, hsdc, e⟩⟩ <;> rw [e]
  · exact h
  · exact h
  · exact htables
  · exact htables
  · exact hdrop _ ((htables.commit hpri).commit (by rwa [State.capOf_commit]))

theorem decodeBody_spacesWf (h : s.SpacesWf) : (decodeBody s).1.SpacesWf := by
  rcases decodeBody_ends s with ⟨-, e⟩ | ⟨-, -, e⟩ | ⟨-, -, e⟩ <;> rw [e]
  · exact h
  · exact h
  · exact decBody_spacesWf h

theorem commandBody_spacesWf (i : Instr) (h : s.SpacesWf) : (commandBody i s).1.SpacesWf := by
  cases i with
  | nop | clr | gen => exact h
  | sample => rcases sampleBody_cases s with ⟨-, e⟩ | ⟨-, e⟩ <;> rw [commandBody, e] <;> exact h
  | build => rcases buildBody_cases s with ⟨-, e⟩ | ⟨_, _, -, e⟩ <;> rw [commandBody, e] <;> exact h
  | emit => exact emitBody_spacesWf h
  | tsave => exact tsaveBody_spacesWf h
  | tload => rcases tloadBody_cases s with ⟨-, e⟩ | ⟨-, -, e⟩ | ⟨-, -, e⟩ <;> rw [commandBody, e] <;> exact h
  | dec => exact decBody_spacesWf h
  | encode => exact encodeBody_spacesWf h
  | decode => exact decodeBody_spacesWf h

theorem regWrite_spacesWf (h : s.SpacesWf) (off : Nat) (v : Word) : (s.regWrite off v).SpacesWf := by
  have hidle : ∀ r, (s.regWriteIdle v r).SpacesWf := by
    intro r
    cases r with
    | status =>
      show (s.writeStatus v).SpacesWf
      unfold State.writeStatus
      split <;> exact h
    | _ => exact h
  unfold State.regWrite
  split
  · exact h
  · cases regAt off with
    | none => exact h
    | some r => exact hidle r

theorem hostPerform_spacesWf {op : HostOp} {t : State} (h : s.SpacesWf) (hp : hostPerform op s = .next t) :
    t.SpacesWf := by
  cases op with
  | regRead off n =>
    obtain ⟨v, d, hread⟩ := s.regRead_withHost off
    rw [hostPerform, hread] at hp
    cases hp
    exact h
  | regWrite off n v =>
    cases hp
    exact regWrite_spacesWf h off v
  | memRead S a n =>
    obtain ⟨hb, ha⟩ := spaceAccess_admitted (.inl rfl) hp
    rw [hostPerform_memRead hb ha] at hp
    cases hp
    exact h
  | memWrite S a n v =>
    obtain ⟨hb, ha⟩ := spaceAccess_admitted (.inr ⟨v, rfl⟩) hp
    rw [hostPerform_memWrite hb ha] at hp
    cases hp
    exact h.memWrite ha v
  | waitIdle =>
    cases hp
    exact h
  | hardwareReset =>
    cases hp
    exact s.hardwareReset_spacesWf

theorem hostMove_spacesWf {t : State} (h : s.SpacesWf) (hm : hostMove s = .next t) : t.SpacesWf := by
  rcases hostMove_cases s with ⟨-, e⟩ | ⟨op, rest, -, -, e⟩ | ⟨op, rest, -, -, e⟩ <;> rw [e] at hm
  · cases hm
    exact h
  · exact hostPerform_spacesWf (s := { s with script := rest }) h hm
  · cases hm

end

/-- Settles O56: a command commits only what fits its space, and the host writes only below the capacity. -/
theorem stepKeepsSpacesWf : Obligations.StepKeepsSpacesWf := by
  intro s t hs h
  rcases step_cases s with ⟨-, -, e⟩ | ⟨-, -, e⟩ | ⟨-, e⟩ <;> rw [e] at h
  · rcases sequencerMove_cases s with ⟨i, -, e⟩ | ⟨_, -, e⟩ <;> rw [e] at h
    · rw [exec_next h]
      exact commandBody_spacesWf i hs
    · cases h
      exact hs
  · exact hostMove_spacesWf (s := s.spendSlot) hs h
  · exact hostMove_spacesWf hs h

/-! ### A running command and the host -/

/-- A host operation performed while a command runs, other than a reset, writes the host's side only (R47, R181). -/
theorem hostPerform_during {s t : State} {op : HostOp} (hb : s.busy = true) (hr : op ≠ .hardwareReset)
    (hp : hostPerform op s = .next t) : t = s.withHost t.script t.responses s.hostSlots t.draws := by
  cases op with
  | regRead off n =>
    obtain ⟨v, d, hread⟩ := s.regRead_withHost off
    rw [hostPerform, hread] at hp
    cases hp
    rfl
  | regWrite off n v =>
    rw [hostPerform, State.regWrite_busy hb] at hp
    cases hp
    rfl
  | memRead S a n =>
    rw [hostPerform_spaceAccess_busy (.inl rfl) hb] at hp
    cases hp
  | memWrite S a n v =>
    rw [hostPerform_spaceAccess_busy (.inr ⟨v, rfl⟩) hb] at hp
    cases hp
  | waitIdle =>
    cases hp
    rfl
  | hardwareReset => exact absurd rfl hr

/-- The same for the step that makes the move. -/
theorem step_during_withHost {s t : State} (hb : s.busy = true) (hm : s.hostMovesFirst = true)
    (hr : ∀ rest, s.script ≠ .hardwareReset :: rest) (h : step s = .next t) :
    t = s.withHost t.script t.responses (s.hostSlots - 1) t.draws := by
  obtain ⟨op, rest, hs⟩ := List.exists_cons_of_ne_nil (hostSlots_pos hm).2
  cases hw : op.wellFormed with
  | false =>
    rw [step_illFormed hs (fun _ => hm) hw] at h
    cases h
  | true =>
    rw [step_during hs hb hm hw] at h
    exact hostPerform_during (s := s.withHost rest s.responses (s.hostSlots - 1) s.draws) hb
      (fun hop => hr rest (hop ▸ hs)) h

/-- A command neither reads nor writes the host's side (R47, R52). -/
theorem exec_withHost {i : Instr} {s u : State} (h : exec i s = .next u) (script : List HostOp)
    (responses : List HostValue) (hostSlots draws : Nat) :
    exec i (s.withHost script responses hostSlots draws) = .next (u.withHost script responses hostSlots draws) := by
  rw [exec_eq, commandBody_withHost, exec_next h]
  rfl

/-- Settles O13: a host move writes the host's side only, and no command depends on it. -/
theorem hostMovesDoNotDisturbCommand : Obligations.HostMovesDoNotDisturbCommand := by
  intro s t hb hm hr h
  have ht := step_during_withHost hb hm hr h
  refine ⟨ht, fun i => ⟨_, exec_eq i s, ?_⟩⟩
  have hslots : t.hostSlots = s.hostSlots - 1 := by rw [ht]; rfl
  rw [hslots]
  calc exec i t = exec i (s.withHost t.script t.responses (s.hostSlots - 1) t.draws) := congrArg (exec i) ht
    _ = _ := exec_withHost (exec_eq i s) _ _ _ _

/-! ### Register reads and space accesses of the host -/

/-- Settles O9: the read answers the map's value where it is defined, and writes the host's side only. -/
theorem regReadHasNoSideEffect : Obligations.RegReadHasNoSideEffect := by
  intro s off rest hs h4 hlt
  have hw : (HostOp.regRead off 4).wellFormed = true := regAccessWellFormed_word h4 hlt
  refine ⟨fun hb => ?idle, fun hb hm => ⟨fun hl => ?stable, ?any⟩⟩
  case idle =>
    rw [step_idle hs hb hw, hostPerform, State.regRead_defined (by simp [hb]), State.wordAt_withHost]
    rfl
  case stable =>
    rw [step_during hs hb hm hw, hostPerform, State.regRead_defined fun _ => offsetStableWhileBusy_of_listed hl,
      State.wordAt_withHost]
    rfl
  case any =>
    obtain ⟨v, d, hread⟩ := (s.withHost rest s.responses (s.hostSlots - 1) s.draws).regRead_withHost off
    rw [step_during hs hb hm hw, hostPerform, hread]
    exact ⟨v, d, rfl⟩

/-- Settles O11 with the rules of reading after a write. -/
theorem hostSpaceAccesses : Obligations.HostSpaceAccesses := by
  refine ⟨fun s S a v rest hs hb ha => ?write, fun s S a rest hs hb ha => ?read⟩
  case write =>
    refine ⟨_, (step_idle hs hb rfl).trans (hostPerform_memWrite hb ha), ?same, fun S' b hother => ?other,
      (s.space S).store a v, ?fields⟩
    case same => rw [State.memRead_memWrite, if_pos ⟨rfl, rfl⟩]
    case other => rw [State.memRead_memWrite, if_neg hother, State.memRead_withHost]
    case fields => cases S <;> rfl
  case read => exact (step_idle hs hb rfl).trans (hostPerform_memRead hb ha)

/-- Settles O12: an ill-formed access is refused as it stands, a well-formed one by what it finds. -/
theorem notAdmittedAccessesRefused : Obligations.NotAdmittedAccessesRefused := by
  intro s op rest hs hm
  refine ⟨fun S a n v hop => ?space, fun off n v hop hbad => ?reg⟩
  case space =>
    have hacc : op.AccessesByte S a n := hop.imp_right fun e => ⟨v, e⟩
    refine ⟨fun hn => ?wide, fun hn hb => ?busy, fun hn hb ha => ?outside⟩
    case wide => exact step_illFormed hs hm (hacc.wellFormed.trans (memAccessWellFormed_false hn))
    all_goals
      subst hn
      have hw : op.wellFormed = true := hacc.wellFormed
    case busy => exact (step_during hs hb (hm hb) hw).trans (hostPerform_spaceAccess_busy hacc hb)
    case outside => exact (step_idle hs hb hw).trans (hostPerform_spaceAccess_outside hacc hb ha)
  case reg =>
    refine step_illFormed hs hm ?_
    rcases hop with rfl | rfl <;> exact regAccessWellFormed_false hbad

end Sys2Proof.Machine
end

section
/-! The encoding rules of 30_encoding.md: the command word and its decoder, the header's decimal fields, and the table of
R56, which command writes what. -/

namespace Sys2Proof.Machine

/-! ### The command word -/

theorem opcode_fields : ∀ i, Laws.EncodingFields.Statement i
  | .nop => Laws.EncodingFields.nop
  | .clr => Laws.EncodingFields.clr
  | .sample => Laws.EncodingFields.sample
  | .build => Laws.EncodingFields.build
  | .gen => Laws.EncodingFields.gen
  | .emit => Laws.EncodingFields.emit
  | .tsave => Laws.EncodingFields.tsave
  | .tload => Laws.EncodingFields.tload
  | .dec => Laws.EncodingFields.dec
  | .encode => Laws.EncodingFields.encode
  | .decode => Laws.EncodingFields.decode

/-- The opcode map is one to one (R54). -/
theorem decodeOp_eq_some {op : Byte} {i : Instr} : decodeOp op = some i ↔ opcode i = op := by
  constructor
  · intro h
    simpa using List.find?_some h
  · rintro rfl
    obtain ⟨-, -, -, hop⟩ := opcode_fields i
    exact hop

theorem decodeOp_eq_none {op : Byte} : decodeOp op = none ↔ ∀ i, opcode i ≠ op := by
  simp [Option.eq_none_iff_forall_ne_some, decodeOp_eq_some]

/-- A word is its two fields (R53). -/
theorem rsvField_append_opField (w : Word) : rsvField w ++ opField w = w :=
  (BitVec.extractLsb'_append_extractLsb'_eq_extractLsb' (by decide)).trans BitVec.extractLsb'_eq_self

theorem decodeWord_reserved {w : Word} (h : rsvField w ≠ 0#24) : decodeWord w = .error (.reservedBitsSet w) := if_neg h

theorem decodeWord_unknown {w : Word} (hrsv : rsvField w = 0#24) (hop : ∀ i, opcode i ≠ opField w) :
    decodeWord w = .error (.unknownOpcode (opField w)) := by
  rw [decodeWord, if_pos hrsv, decodeOp_eq_none.2 hop]

theorem decodeWord_eq_ok {w : Word} {i : Instr} : decodeWord w = .ok i ↔ w = encode i := by
  constructor
  · intro h
    by_cases hrsv : rsvField w = 0#24
    · rw [decodeWord, if_pos hrsv] at h
      cases hop : decodeOp (opField w) with
      | none =>
        rw [hop] at h
        cases h
      | some j =>
        rw [hop] at h
        cases h
        rw [encode, decodeOp_eq_some.1 hop, ← hrsv, rsvField_append_opField]
    · rw [decodeWord_reserved hrsv] at h
      cases h
  · rintro rfl
    exact decodeWord_encode i

/-- Four bytes least significant first spell their word (R45). -/
theorem decodeBytes_bytesOfWord (w : Word) : decodeBytes (bytesOfWord w) = decodeWord w := by
  have hjoin : w.extractLsb' 24 8 ++ w.extractLsb' 16 8 ++ w.extractLsb' 8 8 ++ w.extractLsb' 0 8 = w := by
    rw [BitVec.extractLsb'_append_extractLsb'_eq_extractLsb' (by decide),
      BitVec.extractLsb'_append_extractLsb'_eq_extractLsb' (by decide),
      BitVec.extractLsb'_append_extractLsb'_eq_extractLsb' (by decide)]
    exact BitVec.extractLsb'_eq_self
  exact congrArg decodeWord hjoin

theorem decodeBytes_wrongLength {bs : List Byte} (h : bs.length ≠ 4) :
    decodeBytes bs = .error (.notOneWord bs.length) := by
  unfold decodeBytes
  split
  · exact absurd rfl h
  · rfl

theorem decodeTableWord_toNat (w : Word) : decodeTableWord 32 w.toNat = (decodeWord w).toOption := by
  rw [decodeTableWord, Nat.mod_eq_of_lt w.isLt, BitVec.ofNat_toNat, BitVec.setWidth_eq, decodeBytes_bytesOfWord]

/-- Settles O2: a word is its two fields, and the opcode map is one to one. -/
theorem decodeEncodeAgree : Obligations.DecodeEncodeAgree := by
  refine ⟨fun w i => decodeWord_eq_ok, fun i => ⟨?bytes, ?table⟩, fun w => decodeWord_reserved,
    fun w => decodeWord_unknown, fun bs => decodeBytes_wrongLength⟩
  case bytes => rw [decodeBytes_bytesOfWord, decodeWord_encode]
  case table =>
    rw [decodeTableWord_toNat, decodeWord_encode]
    rfl

/-- Settles O1: the eleven words are those of the encoder. -/
theorem opcodeMapWordsDecode : Obligations.OpcodeMapWordsDecode :=
  ⟨decodeWord_encode .nop, decodeWord_encode .clr, decodeWord_encode .sample, decodeWord_encode .build,
    decodeWord_encode .gen, decodeWord_encode .emit, decodeWord_encode .tsave, decodeWord_encode .tload,
    decodeWord_encode .dec, decodeWord_encode .encode, decodeWord_encode .decode⟩

/-! ### The header -/

/-- No leading zero but the digit of the number 0 itself (R57). -/
theorem dec_of_head_zero {v : Dim} (h : (dec v).head? = some 0x30#8) : dec v = [0x30#8] := by
  obtain ⟨-, -, -, -, hzero⟩ := dec_spec v
  rw [dec, hzero h]
  rfl

/-- Settles O29 from the digits of a number and the shape of the header. -/
theorem headerSpelling : Obligations.HeaderSpelling := by
  refine ⟨fun v => ?field, fun w h => ?header⟩
  case field =>
    obtain ⟨hdigits, hpos, hle, hval, -⟩ := dec_spec v
    exact ⟨hdigits, hpos, hle, hval, dec_of_head_zero⟩
  case header =>
    obtain ⟨-, hwpos, hwle, -, -⟩ := dec_spec w
    obtain ⟨-, hhpos, hhle, -, -⟩ := dec_spec h
    have hlen := length_header w h
    obtain ⟨c, body, hshape, hc, hn⟩ := header_shape w h
    exact ⟨rfl, by omega, by omega, ⟨c, by rw [hshape]; rfl, hc⟩, c :: body, hshape, hn⟩

/-! ### What the stage commands write -/

theorem sampleBody_frame (s : State) : ∃ freq, (sampleBody s).1 = { s with freq := freq } := by
  rcases sampleBody_cases s with ⟨-, e⟩ | ⟨-, e⟩ <;> rw [e] <;> exact ⟨_, rfl⟩

theorem buildBody_frame (s : State) : ∃ nodes root, (buildBody s).1 = { s with nodes := nodes, root := root } := by
  rcases buildBody_cases s with ⟨-, e⟩ | ⟨_, _, -, e⟩ <;> rw [e] <;> exact ⟨_, _, rfl⟩

theorem tloadBody_frame (s : State) : ∃ acc, (tloadBody s).1 = tloadFill s acc := by
  rcases tloadBody_cases s with ⟨-, e⟩ | ⟨-, -, e⟩ | ⟨-, -, e⟩ <;> rw [e]
  · exact ⟨⟨emptyCode, false⟩, rfl⟩
  · exact ⟨_, rfl⟩
  · exact ⟨_, rfl⟩

/-- Settles O52: each of the three bodies updates its own table and no other field. -/
theorem tableCommandsFrame : Obligations.TableCommandsFrame := by
  intro i s t hi h
  rw [exec_next h]
  simp only [List.mem_cons, List.not_mem_nil, or_false] at hi
  rcases hi with rfl | rfl | rfl
  · obtain ⟨freq, e⟩ := sampleBody_frame s
    rw [commandBody, e]
    exact ⟨fun _ _ => rfl, fun _ => rfl, ⟨rfl, rfl⟩, rfl, fun hne => absurd rfl hne, fun _ => ⟨rfl, rfl⟩,
      fun _ => rfl⟩
  · obtain ⟨nodes, root, e⟩ := buildBody_frame s
    rw [commandBody, e]
    exact ⟨fun _ _ => rfl, fun _ => rfl, ⟨rfl, rfl⟩, rfl, fun _ => rfl, fun hne => absurd rfl hne, fun _ => rfl⟩
  · exact ⟨fun _ _ => rfl, fun _ => rfl, ⟨rfl, rfl⟩, rfl, fun _ => rfl, fun _ => ⟨rfl, rfl⟩,
      fun hne => absurd rfl hne⟩

/-! ### What the artifact commands write -/

/-- The frame of a command that commits an artifact to the space `D` or, without one, writes no byte: the tables, the
counters, `TBL_MALFORMED` and the other spaces are as before. -/
def ArtifactFrame (D : Space) (artifact : Except Ending (List Byte)) (s t : State) : Prop :=
  KeepsTree s t ∧ t.code = s.code ∧ KeepsCounters s t ∧ t.tblMalformed = s.tblMalformed ∧
  (∀ S, S ≠ D → KeepsLen s t S ∧ SameBytes s t S) ∧
  (∀ out, artifact = .ok out → HoldsArtifact s t D out) ∧
  (∀ e, artifact = .error e → SameBytes s t D)

section
variable (s : State) (D : Space) (out : List Byte)

theorem sameBytes_commit {S : Space} (h : S ≠ D) : SameBytes s (s.commit D out) S := fun a => by
  rw [State.memRead_commit, if_neg h]

theorem keepsLen_commit {S : Space} (h : S ≠ D) : KeepsLen s (s.commit D out) S := by
  rw [KeepsLen, State.lenOf_commit, if_neg h]

theorem holdsArtifact_commit : HoldsArtifact s (s.commit D out) D out := by
  refine ⟨fun a b hb => ?_, fun a ha => ?_⟩ <;> rw [State.memRead_commit, if_pos rfl]
  · rw [hb, Option.getD_some]
  · rw [List.getElem?_eq_none ha, Option.getD_none]

theorem keepsLen_setLen (n : Word) {S : Space} (h : S ≠ D) : KeepsLen s (s.setLen D n) S := by
  rw [KeepsLen, State.lenOf_setLen, if_neg h]

theorem artifactFrame_commit : ArtifactFrame D (.ok out) s (s.commit D out) := by
  obtain ⟨htree, hcode⟩ := keepsTables_commit s D out
  refine ⟨htree, hcode, ⟨s.decCount_commit D out, s.decDropped_commit D out⟩, s.tblMalformed_commit D out,
    fun S hS => ⟨keepsLen_commit s D out hS, sameBytes_commit s D out hS⟩, fun out' h => ?_, fun e h => ?_⟩ <;> cases h
  exact holdsArtifact_commit s D out

theorem artifactFrame_setLen (n : Word) (e : Ending) : ArtifactFrame D (.error e) s (s.setLen D n) := by
  obtain ⟨htree, hcode⟩ := keepsTables_setLen s D n
  refine ⟨htree, hcode, ⟨s.decCount_setLen D n, s.decDropped_setLen D n⟩, s.tblMalformed_setLen D n,
    fun S hS => ⟨keepsLen_setLen s D n hS, s.memRead_setLen D n S⟩, fun out' h => ?_,
    fun _ _ => s.memRead_setLen D n D⟩
  cases h

end

theorem emitBody_frame (s : State) : ArtifactFrame .pri (emitArtifact s) s (emitBody s).1 := by
  rcases emitBody_cases s with ⟨e, ha, eq⟩ | ⟨out, ha, eq⟩ <;> rw [ha, eq]
  · exact artifactFrame_setLen s .pri _ e
  · exact artifactFrame_commit s .pri out

theorem tsaveBody_frame (s : State) : ArtifactFrame .sdc (tsaveArtifact s) s (tsaveBody s).1 := by
  rcases tsaveBody_cases s with ⟨e, ha, eq⟩ | ⟨out, ha, eq⟩ <;> rw [ha, eq]
  · exact artifactFrame_setLen s .sdc _ e
  · exact artifactFrame_commit s .sdc out

/-- Settles O53: both commands commit their artifact, or zero the target's length when there is none. -/
theorem artifactCommandsFrame : Obligations.ArtifactCommandsFrame := by
  refine ⟨fun s t h => ?emit, fun s t h => ?tsave⟩ <;> rw [exec_next h]
  case emit => exact emitBody_frame s
  case tsave => exact tsaveBody_frame s

/-! ### What a command leaves of the spaces it writes -/

/-- Outside the spaces `Ds` every byte and every length is as before; in them every byte from the new length on. -/
def WritesBelowLen (Ds : List Space) (s t : State) : Prop :=
  (∀ S, S ∉ Ds → KeepsLen s t S ∧ SameBytes s t S) ∧ ∀ S, S ∈ Ds → SameBytesFrom s t S (t.lenOf S)

section
variable {Ds : List Space} {s t u : State}

theorem WritesBelowLen.refl (s : State) : WritesBelowLen Ds s s :=
  ⟨fun _ _ => ⟨rfl, fun _ => rfl⟩, fun _ _ _ _ => rfl⟩

/-- Before the command's writes its start may zero the lengths of the spaces it is going to write. -/
theorem WritesBelowLen.ofStart (hlen : ∀ S, S ∉ Ds → KeepsLen s u S) (hbytes : ∀ S, SameBytes s u S)
    (h : WritesBelowLen Ds u t) : WritesBelowLen Ds s t := by
  obtain ⟨hout, hin⟩ := h
  refine ⟨fun S hS => ?_, fun S hS a ha => (hin S hS a ha).trans (hbytes S a)⟩
  obtain ⟨hl, hb⟩ := hout S hS
  exact ⟨hl.trans (hlen S hS), fun a => (hb a).trans (hbytes S a)⟩

theorem WritesBelowLen.dropTree (h : WritesBelowLen Ds s t) : WritesBelowLen Ds s t.dropTree := h

theorem WritesBelowLen.complete (h : WritesBelowLen Ds s t) (e : Ending) : WritesBelowLen Ds s (t.complete e) := h

/-- A commit to a space of `Ds` that no earlier commit has written. -/
theorem WritesBelowLen.commit {D : Space} {out : List Byte} (h : WritesBelowLen Ds s t) (hD : D ∈ Ds)
    (hfresh : SameBytes s t D) (hfit : out.length < 2 ^ 32) : WritesBelowLen Ds s (t.commit D out) := by
  obtain ⟨hout, hin⟩ := h
  have hother : ∀ S, S ∉ Ds → S ≠ D := fun S hS e => hS (e ▸ hD)
  refine ⟨fun S hS => ?outside, fun S hS a ha => ?inside⟩
  case outside =>
    obtain ⟨hl, hb⟩ := hout S hS
    exact ⟨(keepsLen_commit t D out (hother S hS)).trans hl,
      fun a => (sameBytes_commit t D out (hother S hS) a).trans (hb a)⟩
  case inside =>
    by_cases hSD : S = D
    · subst S
      rw [State.lenOf_commit, if_pos rfl, BitVec.toNat_ofNat, Nat.mod_eq_of_lt hfit] at ha
      obtain ⟨-, hfrom⟩ := holdsArtifact_commit t D out
      exact (hfrom a ha).trans (hfresh a)
    · rw [keepsLen_commit t D out hSD] at ha
      exact (sameBytes_commit t D out hSD a).trans (hin S hS a ha)

end

/-- `DEC` zeroes `DST_LEN` at its start (R108), so it leaves the other lengths and every byte before it delivers. -/
theorem decBody_writesBelowLen (s : State) : WritesBelowLen [.dst] s (decBody s).1 := by
  have hlen : ∀ S, S ∉ [Space.dst] → KeepsLen s (decClear s) S := fun S hS => by
    rw [KeepsLen, decClear_lenOf, if_neg (by simpa using hS)]
  have hclear : WritesBelowLen [.dst] s (decClear s) := .ofStart hlen (fun _ _ => rfl) (.refl _)
  have hcounted : WritesBelowLen [.dst] s (decCounted s) := hclear
  rcases decBody_cases s with ⟨-, e⟩ | ⟨-, -, e⟩ | ⟨-, -, -, e⟩ | ⟨-, hfit, -, e⟩ <;> rw [e]
  · exact hclear
  · exact hcounted
  · exact hcounted
  · exact hcounted.commit (by decide) (fun _ => rfl) (hfit.trans_lt (s.capOf_lt .dst))

theorem decBody_dstLen_le (s : State) : (decBody s).1.lenOf .dst ≤ (decOut s).length := by
  have hcounted : (decCounted s).lenOf .dst ≤ (decOut s).length := Nat.zero_le _
  rcases decBody_cases s with ⟨-, e⟩ | ⟨-, -, e⟩ | ⟨-, -, -, e⟩ | ⟨-, -, -, e⟩ <;> rw [e]
  · exact Nat.zero_le _
  · exact hcounted
  · exact hcounted
  · rw [State.lenOf_commit, if_pos rfl, BitVec.toNat_ofNat]
    exact Nat.mod_le _ _

theorem decBody_tblMalformed (s : State) : (decBody s).1.tblMalformed = s.tblMalformed := by
  rcases decBody_cases s with ⟨-, e⟩ | ⟨-, -, e⟩ | ⟨-, -, -, e⟩ | ⟨-, -, -, e⟩ <;> rw [e] <;> rfl

/-- Settles O54: `TLOAD` fills `CODE` and its flag only, and `DEC` commits to `DST` at most. -/
theorem tloadDecFrame : Obligations.TloadDecFrame := by
  refine ⟨fun s t h => ?tload, fun s t h => ?dec⟩ <;> rw [exec_next h]
  case tload =>
    obtain ⟨acc, e⟩ := tloadBody_frame s
    rw [commandBody, e]
    exact ⟨⟨rfl, rfl, rfl⟩, ⟨rfl, rfl⟩, fun S => tloadFill_lenOf s acc S, fun S a => tloadFill_memRead s acc S a⟩
  case dec =>
    obtain ⟨htree, hcode⟩ := decBody_keepsTables s
    obtain ⟨hother, hdst⟩ := decBody_writesBelowLen s
    exact ⟨htree, hcode, decBody_tblMalformed s, fun S hS => hother S (by simpa using hS),
      fun a ha => hdst .dst (by decide) a ((decBody_dstLen_le s).trans ha)⟩

/-- `ENCODE` zeroes `PRI_LEN` and `SDC_LEN` at its start (R140) and commits both artifacts or none (R142). -/
theorem encodeBody_writesBelowLen (s : State) : WritesBelowLen [.pri, .sdc] s (encodeBody s).1 := by
  have hlen : ∀ S, S ∉ [Space.pri, .sdc] → KeepsLen s (encodeStart s) S := fun S hS => by
    rw [KeepsLen, encodeStart_lenOf, if_neg (by simpa using hS)]
  have hstart : WritesBelowLen [.pri, .sdc] s (encodeStart s) := .ofStart hlen (fun _ _ => rfl) (.refl _)
  have htables : WritesBelowLen [.pri, .sdc] s (encodeTables s) := hstart
  rcases encodeBody_cases s with ⟨-, e⟩ | ⟨-, e⟩ | ⟨-, -, ⟨-, e⟩ | ⟨-, -, e⟩ | ⟨hpri, hsdc, e⟩⟩ <;> rw [e]
  · exact hstart.dropTree
  · exact hstart.dropTree
  · exact htables.dropTree
  · exact htables.dropTree
  · have hone := htables.commit (D := .pri) (by decide) (fun _ => rfl) (hpri.trans_lt (s.capOf_lt .pri))
    have hfresh : ∀ out, SameBytes s ((encodeTables s).commit .pri out) .sdc :=
      fun out => sameBytes_commit (encodeTables s) .pri out (by decide)
    exact (hone.commit (by decide) (hfresh _) (hsdc.trans_lt (s.capOf_lt .sdc))).dropTree

/-- `DECODE` zeroes `DST_LEN` at its start (R144), and of its two stages only `DEC` writes bytes. -/
theorem decodeBody_writesBelowLen (s : State) : WritesBelowLen [.dst] s (decodeBody s).1 := by
  have hlen : ∀ S, S ∉ [Space.dst] → KeepsLen s (decodeStartState s) S := fun S hS => by
    rw [KeepsLen, decodeStartState_lenOf, if_neg (by simpa using hS)]
  rcases decodeBody_ends s with ⟨-, e⟩ | ⟨-, -, e⟩ | ⟨-, -, e⟩ <;> rw [e]
  · exact .ofStart hlen (fun _ _ => rfl) (.refl _)
  · exact .ofStart hlen (fun _ _ => rfl) (.refl _)
  · exact .ofStart hlen (fun _ _ => rfl) (decBody_writesBelowLen _)

/-- Settles O55: the bodies of the two whole calls write only below the lengths they leave. -/
theorem macroFrame : Obligations.MacroFrame := by
  refine ⟨fun s t h => ?encode, fun s t h => ?decode⟩ <;> rw [exec_next h]
  case encode =>
    obtain ⟨hother, hnew⟩ := (encodeBody_writesBelowLen s).complete (encodeBody s).2
    exact ⟨fun S hS => hother S (by rcases hS with rfl | rfl <;> decide), hnew .pri (by decide), hnew .sdc (by decide)⟩
  case decode =>
    obtain ⟨hother, hnew⟩ := (decodeBody_writesBelowLen s).complete (decodeBody s).2
    exact ⟨fun S hS => hother S (by simpa using hS), hnew .dst (by decide)⟩

end Sys2Proof.Machine
end

section
/-! The counting rules of 41_sample.md: what `SAMPLE` leaves in the table and what it reports. -/

namespace Sys2Proof.Machine

/-- The complete step leaves the machine idle with the ending on show (10_state.md R21, 60_exceptions.md R169). -/
theorem State.complete_reports (s : State) (e : Ending) : (s.complete e).Reports e := ⟨rfl, rfl, rfl, rfl⟩

/-- A length register holds a word, so no counter of a buffer's bytes can wrap (41_sample.md R66). -/
theorem State.length_content_lt (s : State) (S : Space) : (s.content S).length < 2 ^ 32 := by
  rw [s.length_content]
  exact s.lenOf_lt S

theorem sampleBody_fits {s : State} (h : s.lenOf .src ≤ s.capOf .src) :
    sampleBody s = ({ s with freq := countBytes (s.content .src) }, okEnding) := if_neg h.not_gt

theorem sampleBody_tooLong {s : State} (h : s.capOf .src < s.lenOf .src) :
    sampleBody s = (s, ioFailureEnding .src) := if_pos h

/-- Settles O18: a buffer that fits is counted exactly, and one that does not leaves the table alone. -/
theorem sampleCountsBuffer : Obligations.SampleCountsBuffer := by
  refine fun s => ⟨fun hfits => ⟨_, exec_eq .sample s, ?fits⟩, fun hlong => ⟨_, exec_eq .sample s, ?tooLong⟩⟩
  case fits =>
    have hlen := s.length_content_lt .src
    rw [commandBody, sampleBody_fits hfits]
    exact ⟨State.complete_reports _ _, countBytes_entry hlen,
      (freqTotal_countBytes hlen).trans (s.length_content .src), presentCount_countBytes hlen⟩
  case tooLong =>
    rw [commandBody, sampleBody_tooLong hlong]
    exact ⟨State.complete_reports _ _, rfl⟩

end Sys2Proof.Machine
end

section
/-! The rules of 42_build.md: the comparator and `extract_min`, the merge loop over any layout of its priority structure,
and the arena `BUILD` leaves. -/

namespace Sys2Proof.Machine

/-! ### The comparator and the priority structure -/

/-- Settles O19 with the laws of ≺ and what `extract_min` does. -/
theorem extractMinTakesLeast : Obligations.ExtractMinTakesLeast := by
  refine fun nodes => ⟨fun i j => ?order, precedes_irrefl nodes, fun _ _ _ => precedes_trans,
    fun _ _ => precedes_total nodes, rfl, fun q hq => ?extract⟩
  case order => rw [precedes_iff, BitVec.toNat_inj]
  case extract =>
    obtain ⟨a, h⟩ := extractMin_cons nodes hq
    obtain ⟨hmem, -, hleast⟩ := extractMin_spec h
    exact ⟨a, h, hmem, hleast⟩

/-- Two arrangements of the same indices are both empty, or give the same index and leave the same indices. -/
theorem extractMin_perm_cases (nodes : List Node) {q1 q2 : List NodeIdx} (h : q1.Perm q2) :
    (extractMin nodes q1 = none ∧ extractMin nodes q2 = none) ∨
    ∃ a r1 r2, extractMin nodes q1 = some (a, r1) ∧ extractMin nodes q2 = some (a, r2) ∧ r1.Perm r2 := by
  by_cases h1 : q1 = []
  · subst h1
    obtain rfl := h.nil_eq
    exact .inl ⟨rfl, rfl⟩
  · have h2 : q2 ≠ [] := fun e => h1 (h.trans (.of_eq e)).eq_nil
    obtain ⟨a, e1⟩ := extractMin_cons nodes h1
    obtain ⟨b, e2⟩ := extractMin_cons nodes h2
    obtain ⟨rfl, hrest⟩ := extractMin_perm h e1 e2
    exact .inr ⟨a, _, _, e1, e2, hrest⟩

/-- Settles O20, by induction on the rounds: both arrangements give each merge the same two indices. -/
theorem mergeIndependentOfQueueLayout : Obligations.MergeIndependentOfQueueLayout := by
  intro fuel
  induction fuel with
  | zero => exact fun nodes q1 q2 h => ⟨rfl, h⟩
  | succ fuel ih =>
    intro nodes q1 q2 h
    rcases extractMin_perm_cases nodes h with ⟨e1, e2⟩ | ⟨a, r1, r2, e1, e2, hr⟩
    · simp only [mergeLoop, e1, e2]
      exact ⟨trivial, h⟩
    · rcases extractMin_perm_cases nodes hr with ⟨f1, f2⟩ | ⟨b, p1, p2, f1, f2, hp⟩
      · simp only [mergeLoop, e1, e2, f1, f2]
        exact ⟨trivial, h⟩
      · simp only [mergeLoop, e1, e2, f1, f2]
        exact ih _ _ _ (hp.cons _)

/-! ### The arena BUILD leaves -/

/-- Settles O21 from the two endings of the body and the tree the merge loop makes. -/
theorem buildMakesTree : Obligations.BuildMakesTree := by
  refine fun s => ⟨_, exec_eq .build s, fun hnone => ?empty, fun hsome => ?tree⟩
  case empty =>
    rw [commandBody, buildBody_eq, if_pos hnone]
    exact ⟨State.complete_reports _ _, rfl, rfl⟩
  case tree =>
    obtain ⟨htree, -⟩ := buildTree_tree s.freq hsome
    rw [commandBody, buildBody_eq, if_neg (by omega)]
    exact ⟨State.complete_reports _ _, htree, rfl, buildTree_leaf_iff s.freq⟩

/-- Without a present symbol the merge loop has no record either. -/
theorem buildTree_nodes_of_empty {t : Table Word} (h : (buildTree t).2 = []) : (buildTree t).1 = [] := by
  obtain ⟨hinv, -, hempty, -⟩ := buildTree_inv t
  have hcount := hinv.count
  rw [hempty.1 h] at hcount
  exact List.eq_nil_of_length_eq_zero (by omega)

/-- On every table `BUILD` leaves the records of the merge loop, and as root the index that remains, if one does. -/
theorem build_arena {s t : State} (h : exec .build s = .next t) :
    t.nodes = (buildTree s.freq).1 ∧ t.root = (buildTree s.freq).2.head? := by
  rw [exec_next h, commandBody]
  rcases buildBody_cases s with ⟨hq, e⟩ | ⟨r, rest, hq, e⟩ <;> rw [e, hq]
  · exact ⟨(buildTree_nodes_of_empty hq).symm, rfl⟩
  · exact ⟨rfl, rfl⟩

/-- Settles O22: the greedy choice is part of what every merge keeps. -/
theorem buildMergesTwoLeast : Obligations.BuildMergesTwoLeast := by
  intro s t h
  obtain ⟨hinv, -⟩ := buildTree_inv s.freq
  rw [(build_arena h).1]
  exact hinv.greedy

theorem leavesOf_not_internal (t : Table Word) (i : Nat) (f : Word) (l r : NodeIdx) :
    (leavesOf t)[i]? ≠ some (.internal f l r) := by
  intro h
  obtain ⟨x, g, e⟩ := leavesOf_leaf h
  cases e

/-- For a table whose sum fits a word, the merge loop's sums are exact and what remains weighs as much as the table. -/
theorem buildTree_sums {t : Table Word} (h : freqTotal t < 2 ^ 32) :
    ((buildTree t).2.map (idxFreq (buildTree t).1)).sum = freqTotal t ∧
    ∀ (i : Nat) (f : Word) (l r : NodeIdx), (buildTree t).1[i]? = some (.internal f l r) →
      f.toNat = idxFreq (buildTree t).1 l + idxFreq (buildTree t).1 r :=
  mergeLoop_sum h _ (mergeInv_start t) (leaves_sum t) fun i f l r hi => absurd hi (leavesOf_not_internal t i f l r)

theorem buildTree_root_only {t : Table Word} {r : NodeIdx} (h : (buildTree t).2.head? = some r) :
    (buildTree t).2 = [r] := by
  obtain ⟨-, hle, -, -⟩ := buildTree_inv t
  obtain ⟨rest, e⟩ := List.head?_eq_some_iff.1 h
  rw [e, List.length_cons] at hle
  rw [e, List.eq_nil_of_length_eq_zero (by omega : rest.length = 0)]

/-- Settles O23: the merges keep the sum over the priority structure, and in the end it holds the root alone. -/
theorem buildFrequenciesAreSums : Obligations.BuildFrequenciesAreSums := by
  intro s t hfit h
  obtain ⟨hnodes, hroot⟩ := build_arena h
  obtain ⟨htotal, hsums⟩ := buildTree_sums hfit
  rw [hnodes, hroot]
  refine ⟨hsums, fun r hr => ?_⟩
  rw [buildTree_root_only hr, List.map_singleton, List.sum_singleton] at htotal
  exact htotal

end Sys2Proof.Machine
end

section
/-! The rules of 43_gen.md: what `GEN` makes of any arena, and the ROM that `BUILD` and `GEN` make of a frequency table. -/

namespace Sys2Proof.Machine

/-! ### GEN on any arena -/

/-- `GEN` ends `OK` on every state and leaves the ROM of the arena (43_gen.md R85). -/
theorem exec_gen (s : State) : ∃ t, exec .gen s = .next t ∧ t.Reports okEnding ∧ t.code = romOf s.nodes s.root :=
  ⟨_, exec_eq .gen s, State.complete_reports _ _, rfl⟩

theorem romOf_none (nodes : List Node) : romOf nodes none = emptyCode := rfl

/-- Settles O24: without a root the ROM is the empty one, and a leaf as root is the only symbol put into it. -/
theorem genEdgeCases : Obligations.GenEdgeCases := by
  intro s
  obtain ⟨t, ht, hok, hcode⟩ := exec_gen s
  refine ⟨t, ht, hok, fun hroot => ?empty, fun r x f hroot hleaf => ?single⟩
  case empty =>
    have hnone : ∀ x, t.code.entry x = [] := fun x => by rw [hcode, hroot, romOf_none, emptyCode_entry]
    exact ⟨hnone, (symCount_eq_zero _).2 hnone, maxLen_of_empty hnone⟩
  case single =>
    rw [hcode, hroot, romOf_leaf hleaf]
    refine ⟨Table.entry_put_same _ _ _, fun y hy => ?_⟩
    rw [Table.entry_put, if_neg hy, emptyCode_entry]

/-- Settles O25 with the ROM of a tree: the walk records valid paths only and every leaf, whose path is unique. -/
theorem genCodesArePaths : Obligations.GenCodesArePaths := by
  intro s n htree hn hroot
  obtain ⟨t, ht, -, hcode⟩ := exec_gen s
  refine ⟨t, ht, ?_⟩
  rw [hcode, hroot]
  exact romOf_tree htree hn

/-! ### The ROM of a frequency table -/

/-- Settles O26: a code that is a prefix of another would end in a leaf and go on through it. -/
theorem buildGenPrefixFree : Obligations.BuildGenPrefixFree := by
  intro s t u hbuild hgen x y
  rw [build_gen_code hbuild hgen]
  exact romOfTable_prefixFree s.freq

/-- No two symbols of a table share a code, since equal codes are prefixes of each other. -/
theorem romOfTable_entry_injective {t : Table Word} {x y : Byte} (hx : (romOfTable t).entry x ≠ [])
    (h : (romOfTable t).entry y = (romOfTable t).entry x) : y = x := by
  by_contra hne
  exact romOfTable_prefixFree t hne (h ▸ hx) hx (h ▸ List.prefix_rfl)

theorem lookup_romOfTable_entry {t : Table Word} {x : Byte} (hx : (romOfTable t).entry x ≠ []) :
    lookup (romOfTable t) ((romOfTable t).entry x) = some x :=
  lookup_some.2 ⟨hx, rfl, fun _ hy => (congrArg BitVec.toNat (romOfTable_entry_injective hx hy)).ge⟩

/-- A sequence that is no symbol's entry is looked up in vain, the empty sequence too. -/
theorem lookup_eq_none_of_no_entry {t : Table Code} {q : Code} (h : ∀ x, t.entry x ≠ q) : lookup t q = none := by
  by_cases hq : q = []
  · rw [lookup_eq, if_pos hq]
  · exact (lookup_none hq).2 h

/-- Settles O27: of the symbols with a given code there is only one, so the smallest is that one. -/
theorem buildGenBijection : Obligations.BuildGenBijection := by
  intro s t u hbuild hgen
  rw [build_gen_code hbuild hgen]
  exact ⟨fun _ => lookup_romOfTable_entry, fun _ => lookup_eq_none_of_no_entry⟩

theorem symCount_romOfTable (t : Table Word) : symCount (romOfTable t) = presentCount t := by
  rw [symCount, codedSymbols_eq, presentCount]
  simp only [romOfTable_entry_iff]

/-- The root of a table with a present symbol is the last record of its arena (42_build.md R77). -/
theorem romOfTable_of_present {t : Table Word} (h : 1 ≤ presentCount t) :
    romOfTable t = romOf (buildTree t).1 (some (BitVec.ofNat 9 (2 * presentCount t - 2))) := by
  rw [romOfTable, (buildTree_tree t h).2, List.head?_cons]

/-- A path visits internal records only before its leaf, and a tree of `n` leaves has `n − 1` of them (43_gen.md R91). -/
theorem length_romOfTable_entry_le {t : Table Word} (h : 2 ≤ presentCount t) (x : Byte) :
    ((romOfTable t).entry x).length ≤ presentCount t - 1 := by
  have hpos : 1 ≤ presentCount t := by omega
  rw [romOfTable_of_present hpos]
  exact romOf_tree_length (buildTree_tree t hpos).1 h x

/-- Settles O28 clause by clause from the ROM of the frequency table. -/
theorem buildGenCodeBounds : Obligations.BuildGenCodeBounds := by
  intro s t u hbuild hgen
  rw [build_gen_code hbuild hgen]
  exact ⟨romOfTable_entry_iff s.freq, symCount_romOfTable s.freq, length_romOfTable_entry_le, romOfTable_fits s.freq⟩

end Sys2Proof.Machine
end

section
/-! The rules of 44_codec.md: the artifact `EMIT` writes and how it fails, the decoder segment by segment, the endings of
`DEC`, and the round trip of the two. -/

namespace Sys2Proof.Machine

/-! ### The endings of EMIT -/

/-- A committed artifact that fits a space gives the length register its exact size. -/
theorem State.lenOf_commit_same (s : State) {S : Space} {out : List Byte} (h : out.length ≤ s.capOf S) :
    (s.commit S out).lenOf S = out.length := by
  rw [State.lenOf_commit, if_pos rfl, BitVec.toNat_ofNat, Nat.mod_eq_of_lt (h.trans_lt (s.capOf_lt S))]

theorem exec_emit_ok {s t : State} {out : List Byte} (h : exec .emit s = .next t) (hart : emitArtifact s = .ok out) :
    t = (s.commit .pri out).complete okEnding := by
  rw [exec_next h, commandBody, emitBody, hart]

/-- Without an artifact the length is 0 and no byte is written (44_codec.md R106). -/
theorem exec_emit_error {s t : State} {e : Ending} (h : exec .emit s = .next t) (hart : emitArtifact s = .error e) :
    t.Reports e ∧ t.lenOf .pri = 0 ∧ ∀ S, SameBytes s t S := by
  have ht : t = (s.setLen .pri 0#32).complete e := by rw [exec_next h, commandBody, emitBody, hart]
  rw [ht]
  exact ⟨State.complete_reports _ _, rfl, s.memRead_setLen .pri 0#32⟩

theorem emitArtifact_error_code {s : State} {e : Ending} (h : emitArtifact s = .error e) : e.code ≠ .ok := by
  rcases emitArtifact_error h with rfl | rfl | rfl | ⟨k, -, rfl⟩ <;> exact nofun

/-- `EMIT` reports `OK` exactly when there is an artifact. -/
theorem emitArtifact_of_outcome_ok {s t : State} (h : exec .emit s = .next t) (hok : t.outcome = .ok) :
    ∃ out, emitArtifact s = .ok out := by
  cases hart : emitArtifact s with
  | ok out => exact ⟨out, rfl⟩
  | error e =>
    obtain ⟨⟨hcode, -⟩, -⟩ := exec_emit_error h hart
    exact absurd (hcode.symm.trans hok) (emitArtifact_error_code hart)

/-- Settles O30: with every byte covered and room for it, the artifact is committed. -/
theorem emitWritesArtifact : Obligations.EmitWritesArtifact := by
  intro s hpos hcap hcoded hfit
  have hart := emitArtifact_covered hpos hcap hcoded
  rw [if_pos hfit] at hart
  obtain ⟨t, ht⟩ : ∃ t, exec .emit s = .next t := ⟨_, exec_eq .emit s⟩
  obtain rfl := exec_emit_ok ht hart
  exact ⟨_, ht, State.complete_reports _ _, holdsArtifact_commit s .pri _, s.lenOf_commit_same hfit⟩

/-! ### The order of EMIT's checks -/

section
variable {s : State}

theorem emitArtifact_tooLong (h : s.capOf .src < s.lenOf .src) : emitArtifact s = .error (ioFailureEnding .src) :=
  if_pos h

theorem emitArtifact_empty (hcap : s.lenOf .src ≤ s.capOf .src) (h : s.lenOf .src = 0) :
    emitArtifact s = .error emptyInputEnding := by
  rw [emitArtifact, if_neg hcap.not_gt, if_pos h]

theorem emitArtifact_headerOverflow (hpos : 1 ≤ s.lenOf .src) (hcap : s.lenOf .src ≤ s.capOf .src)
    (h : s.capOf .pri < (header s.width s.height).length) : emitArtifact s = .error (ioFailureEnding .pri) := by
  rw [emitArtifact, if_neg hcap.not_gt, if_neg (by omega), if_pos h]

/-- When the first `k` bytes have been encoded without a failure, the loop goes on at offset `k`. -/
theorem emitArtifact_resume {k : Nat} {b : Byte} (hpos : 1 ≤ s.lenOf .src) (hcap : s.lenOf .src ≤ s.capOf .src)
    (hb : (s.content .src)[k]? = some b) (hcoded : ∀ c ∈ (s.content .src).take k, s.code.entry c ≠ [])
    (hfit : (primaryArtifact s.width s.height ((s.content .src).take k) s.code).length ≤ s.capOf .pri) :
    emitArtifact s = emitLoop s.code (s.capOf .pri) k (b :: (s.content .src).drop (k + 1))
      (primaryArtifact s.width s.height ((s.content .src).take k) s.code) := by
  obtain ⟨hk, rfl⟩ := List.getElem?_eq_some_iff.1 hb
  have hheader : (header s.width s.height).length ≤ s.capOf .pri := by
    rw [primaryArtifact, List.length_append] at hfit
    omega
  have hsplit : s.content .src = (s.content .src).take k ++ (s.content .src)[k] :: (s.content .src).drop (k + 1) := by
    rw [← List.drop_eq_getElem_cons hk, List.take_append_drop]
  calc emitArtifact s
      = emitLoop s.code (s.capOf .pri) 0 (s.content .src) (header s.width s.height) := by
        rw [emitArtifact, if_neg hcap.not_gt, if_neg (by omega), if_neg hheader.not_gt]
    _ = emitLoop s.code (s.capOf .pri) 0 ((s.content .src).take k ++ (s.content .src)[k] :: (s.content .src).drop (k + 1))
          (header s.width s.height) := by rw [← hsplit]
    _ = _ := by
        rw [emitLoop_append _ hcoded hfit, List.length_take_of_le hk.le, Nat.zero_add, primaryArtifact]

theorem primaryArtifact_take_succ (w h : Dim) {buffer : List Byte} (rom : Table Code) {k : Nat} {b : Byte}
    (hb : buffer[k]? = some b) :
    primaryArtifact w h (buffer.take (k + 1)) rom = primaryArtifact w h (buffer.take k) rom ++ tokens (rom.entry b) := by
  rw [primaryArtifact, primaryArtifact, List.take_add_one, hb]
  simp

end

/-- Settles O31: each failing check, in the order of R100's pseudocode, decides the ending. -/
theorem emitFirstErrorWins : Obligations.EmitFirstErrorWins := by
  intro s
  obtain ⟨t, ht⟩ : ∃ t, exec .emit s = .next t := ⟨_, exec_eq .emit s⟩
  refine ⟨t, ht, fun hlong => (exec_emit_error ht (emitArtifact_tooLong hlong)).1, fun hcap hzero => ?empty,
    fun hpos hcap => ⟨fun hover => ?header,
      fun k b hb hcoded hfit => ⟨fun hnone => ?unknown, fun hsome hover => ?overflow⟩⟩,
    fun hne => ?unchanged⟩
  case empty =>
    obtain ⟨hreport, hlen, -⟩ := exec_emit_error ht (emitArtifact_empty hcap hzero)
    exact ⟨hreport, hlen⟩
  case header => exact (exec_emit_error ht (emitArtifact_headerOverflow hpos hcap hover)).1
  case unknown =>
    refine (exec_emit_error ht ?_).1
    rw [emitArtifact_resume hpos hcap hb hcoded hfit, emitLoop, if_pos hnone]
  case overflow =>
    refine (exec_emit_error ht ?_).1
    rw [primaryArtifact_take_succ _ _ _ hb] at hover
    rw [emitArtifact_resume hpos hcap hb hcoded hfit, emitLoop, if_neg hsome, if_pos hover]
  case unchanged =>
    cases hart : emitArtifact s with
    | error e => exact (exec_emit_error ht hart).2
    | ok out => exact absurd (congrArg State.outcome (exec_emit_ok ht hart)) hne

/-! ### The stages before EMIT -/

theorem KeepsInputs.content_src {s t : State} (h : KeepsInputs s t) : t.content .src = s.content .src := by
  obtain ⟨-, -, -, hlen, -, -, hbytes, -⟩ := h
  have hl : t.lenOf .src = s.lenOf .src := congrArg BitVec.toNat hlen
  rw [State.content, State.content, State.bytes, State.bytes, hl]
  exact List.map_congr_left fun a _ => hbytes a

section
variable {s s1 s2 s3 t : State}

theorem stages_keepInputs (h1 : exec .sample s = .next s1) (h2 : exec .build s1 = .next s2)
    (h3 : exec .gen s2 = .next s3) : KeepsInputs s s3 :=
  ((commandsKeepInputs _ _ _ h1).trans (commandsKeepInputs _ _ _ h2)).trans (commandsKeepInputs _ _ _ h3)

theorem exec_sample_freq (h : exec .sample s = .next t) (hcap : s.lenOf .src ≤ s.capOf .src) :
    t.freq = countBytes (s.content .src) := by
  rw [exec_next h, commandBody, sampleBody_fits hcap]
  rfl

/-- What `EMIT` with `OK` after the three stages tells of the buffer they started from. -/
theorem stages_emit_ok (h1 : exec .sample s = .next s1) (h2 : exec .build s1 = .next s2)
    (h3 : exec .gen s2 = .next s3) (h4 : exec .emit s3 = .next t) (hok : t.outcome = .ok) :
    s1.freq = countBytes (s.content .src) ∧ (∀ b ∈ s.content .src, s3.code.entry b ≠ []) ∧
    (primaryArtifact s.width s.height (s.content .src) s3.code).length ≤ s3.capOf .pri ∧
    t = (s3.commit .pri (primaryArtifact s.width s.height (s.content .src) s3.code)).complete okEnding := by
  have hkeep := stages_keepInputs h1 h2 h3
  have hcontent := hkeep.content_src
  obtain ⟨hcaps, hw, hh, hlen, -⟩ := hkeep
  obtain ⟨out, hart⟩ := emitArtifact_of_outcome_ok h4 hok
  obtain ⟨-, hcap, rfl, hfit, hcoded⟩ := emitArtifact_ok hart
  have ht := exec_emit_ok h4 hart
  rw [hw, hh, hcontent] at hfit ht
  rw [hcontent] at hcoded
  have hcap' : s.lenOf .src ≤ s.capOf .src := by
    rwa [State.lenOf, State.capOf, hcaps, hlen] at hcap
  exact ⟨exec_sample_freq h1 hcap', hcoded, hfit, ht⟩

end

/-! ### The size of the artifact -/

theorem length_primaryArtifact (w h : Dim) (buffer : List Byte) (rom : Table Code) :
    (primaryArtifact w h buffer rom).length =
      (dec w).length + 1 + (dec h).length + 1 + (buffer.map (fun b => (rom.entry b).length)).sum := by
  simp [primaryArtifact, length_header, List.length_flatMap]

/-- A sum over a buffer, gathered by symbol. -/
theorem sum_map_eq_sum_count (buffer : List Byte) (f : Byte → Nat) :
    (buffer.map f).sum = (allSymbols.map (fun x => buffer.count x * f x)).sum := by
  rw [Finset.sum_list_map_count, ← List.sum_toFinset _ allSymbols_nodup]
  refine Finset.sum_subset (fun x _ => List.mem_toFinset.2 (mem_allSymbols x)) fun x _ hx => ?_
  rw [List.count_eq_zero.2 fun hm => hx (List.mem_toFinset.2 hm), zero_smul]

/-- Settles O32: the artifact's size by its parts, and the payload's as a sum over the counted symbols. -/
theorem emitArtifactSize : Obligations.EmitArtifactSize := by
  refine ⟨fun s t h hok => ?size, fun s s1 s2 s3 t h1 h2 h3 h4 hok => ?payload⟩
  case size =>
    obtain ⟨out, hart⟩ := emitArtifact_of_outcome_ok h hok
    obtain ⟨-, -, hout, hfit, -⟩ := emitArtifact_ok hart
    rw [exec_emit_ok h hart, State.lenOf_complete, s.lenOf_commit_same hfit, hout, length_primaryArtifact]
  case payload =>
    obtain ⟨hfreq, hcoded, -⟩ := stages_emit_ok h1 h2 h3 h4 hok
    rw [(stages_keepInputs h1 h2 h3).content_src, hfreq]
    refine ⟨?_, (s.length_content .src).ge.trans (length_le_sum_codes hcoded)⟩
    simp only [countBytes_entry (s.length_content_lt .src)]
    exact sum_map_eq_sum_count _ _

/-! ### Where decoding starts -/

theorem decodeStart_no_digit {c : Byte} (cs : List Byte) (h : isDigit c = false) : decodeStart (c :: cs) = 0 :=
  if_neg (by simp [h])

theorem newline_not_mem_digit_cons {c : Byte} {cs : List Byte} (hc : isDigit c = true) (h : newlineByte ∉ cs) :
    newlineByte ∉ c :: cs :=
  List.not_mem_cons_of_ne_of_not_mem (isDigit_ne_newline hc).symm h

/-- Settles O33: a digit is no newline, so the first newline is the first one after it. -/
theorem decodeStartsAfterHeader : Obligations.DecodeStartsAfterHeader := by
  refine ⟨decodeStart_header, rfl, fun c cs => decodeStart_no_digit cs,
    fun c cs hc hn => decodeStart_no_newline hc (newline_not_mem_digit_cons hc hn), fun c pre post hc hn => ?_⟩
  rw [List.append_assoc]
  exact decodeStart_newline hc (newline_not_mem_digit_cons hc hn)

/-! ### The decoder -/

theorem matchCand_non_token (t : Table Code) {cand : List Byte} {c : Byte} (hc : c ∈ cand) (h : isTok c = false) :
    matchCand t cand = none :=
  if_neg fun hall => by simp [List.all_eq_true.1 hall c hc] at h

/-- Settles O34 with the rule for each kind of segment. -/
theorem decoderSegments : Obligations.DecoderSegments := by
  refine fun t => ⟨fun q x rest => decodePayload_code rest, fun span rest => decodePayload_discard rest,
    fun span => decodePayload_leftover, fun cand c hc h0 h1 => matchCand_non_token t hc ?_⟩
  simp [isTok, h0, h1]

theorem length_flatMap_tokens (t : Table Code) (l : List Byte) :
    (l.flatMap (fun x => tokens (t.entry x))).length = (l.map (fun x => (t.entry x).length)).sum := by
  simp [List.length_flatMap]

/-- The decoder's account at the end of the payload, where the leftover candidate counts as dropped (44_codec.md R112). -/
theorem decodePayload_account (t : Table Code) (payload : List Byte) :
    ((decodePayload t payload).out.map (fun x => (t.entry x).length)).sum + (decodePayload t payload).dropped =
      payload.length := by
  obtain ⟨hsum, -⟩ := foldl_decStep_account t (maxLen t) payload
  rw [decodePayload_eq]
  dsimp only
  omega

theorem payload_eq_of_dropped_zero {t : Table Code} {payload : List Byte} (h : (decodePayload t payload).dropped = 0) :
    payload = (decodePayload t payload).out.flatMap (fun x => tokens (t.entry x)) := by
  obtain ⟨-, hcodes⟩ := foldl_decStep_account t (maxLen t) payload
  rw [decodePayload_eq] at h ⊢
  obtain ⟨hdropped, hcand⟩ := Nat.add_eq_zero_iff.1 h
  have hpayload := hcodes hdropped
  rwa [List.eq_nil_of_length_eq_zero hcand, List.append_nil] at hpayload

/-- Settles O35: by the account, codes that make up the whole payload leave nothing to be dropped. -/
theorem decoderAccountsForEveryByte : Obligations.DecoderAccountsForEveryByte := by
  intro t payload
  have haccount := decodePayload_account t payload
  refine ⟨haccount, payload_eq_of_dropped_zero, fun hcodes => ?_⟩
  have hlen := congrArg List.length hcodes
  rw [length_flatMap_tokens] at hlen
  omega

/-! ### The endings of DEC -/

section
variable {s : State}

theorem decBody_priTooLong (h : s.capOf .pri < s.lenOf .pri) : decBody s = (decClear s, ioFailureEnding .pri) :=
  if_pos h

/-- Once the payload is decoded, `DEC` only delivers what it has counted. -/
theorem decBody_delivers (h : s.lenOf .pri ≤ s.capOf .pri) : decBody s = decDeliver (decCounted s) (decOut s) :=
  if_neg h.not_gt

theorem decDeliver_overflow {out : List Byte} (h : s.capOf .dst < out.length) :
    decDeliver s out = (s, ioFailureEnding .dst) := if_pos h

theorem decDeliver_truncated {out : List Byte} (hcap : out.length ≤ s.capOf .dst) (h : out.length < s.expected) :
    decDeliver s out = (s, truncatedEnding out.length) := by
  rw [decDeliver, if_neg hcap.not_gt, if_pos h]

theorem decDeliver_ok {out : List Byte} (hcap : out.length ≤ s.capOf .dst) (h : s.expected ≤ out.length) :
    decDeliver s out = (s.commit .dst out, okEnding) := by
  rw [decDeliver, if_neg hcap.not_gt, if_neg h.not_gt]

theorem decDeliver_keepsCounters (s : State) (out : List Byte) : KeepsCounters s (decDeliver s out).1 := by
  unfold decDeliver
  split
  · exact ⟨rfl, rfl⟩
  · split
    · exact ⟨rfl, rfl⟩
    · exact ⟨s.decCount_commit .dst out, s.decDropped_commit .dst out⟩

/-- An ending of `DEC` other than `OK` leaves `DST` empty and its bytes alone (44_codec.md R114, R115). -/
theorem decBody_not_ok (s : State) (h : (decBody s).2.code ≠ .ok) :
    (decBody s).1.lenOf .dst = 0 ∧ SameBytes s (decBody s).1 .dst := by
  have hcounted : (decCounted s).lenOf .dst = 0 ∧ SameBytes s (decCounted s) .dst := ⟨rfl, fun _ => rfl⟩
  rcases decBody_cases s with ⟨-, e⟩ | ⟨-, -, e⟩ | ⟨-, -, -, e⟩ | ⟨-, -, -, e⟩ <;> rw [e] at h ⊢
  · exact ⟨rfl, fun _ => rfl⟩
  · exact hcounted
  · exact hcounted
  · exact absurd rfl h

end

/-- Settles O36: an artifact above the capacity is not decoded, and any other is decoded, counted, then delivered. -/
theorem decEndings : Obligations.DecEndings := by
  refine fun s => ⟨_, exec_eq .dec s, fun hlong => ?tooLong, fun hcap => ?decoded, decBody_not_ok s⟩
  case tooLong =>
    rw [commandBody, decBody_priTooLong hlong]
    exact ⟨State.complete_reports _ _, rfl, rfl⟩
  case decoded =>
    obtain ⟨hcount, hdropped⟩ := decCounted_toNat s
    obtain ⟨hcountKept, hdroppedKept⟩ := decDeliver_keepsCounters (decCounted s) (decOut s)
    rw [commandBody, decBody_delivers hcap]
    refine ⟨decodeArtifact s.code (s.content .pri), rfl, (congrArg BitVec.toNat hcountKept).trans hcount,
      (congrArg BitVec.toNat hdroppedKept).trans hdropped, fun hover => ?overflow, fun hfit hfew => ?truncated,
      fun hfit hmany => ?ok⟩
    case overflow =>
      rw [decDeliver_overflow (s := decCounted s) (out := decOut s) hover]
      exact State.complete_reports _ _
    case truncated =>
      rw [decDeliver_truncated (s := decCounted s) (out := decOut s) hfit hfew]
      exact ⟨State.complete_reports _ _, rfl⟩
    case ok =>
      rw [decDeliver_ok (s := decCounted s) (out := decOut s) hfit hmany]
      exact ⟨State.complete_reports _ _, holdsArtifact_commit (decCounted s) .dst (decOut s),
        (decCounted s).lenOf_commit_same (S := .dst) (out := decOut s) hfit⟩

/-! ### The round trip -/

/-- A space that holds an artifact and whose length is the artifact's has it as its content. -/
theorem HoldsArtifact.content_eq {s t : State} {S : Space} {out : List Byte} (h : HoldsArtifact s t S out)
    (hlen : t.lenOf S = out.length) : t.content S = out := by
  obtain ⟨hbytes, -⟩ := h
  refine List.ext_getElem ((t.length_content S).trans hlen) fun i _ hi => ?_
  rw [← hbytes i out[i] (List.getElem?_eq_getElem hi)]
  simp [State.content, State.bytes]

/-- The decoder inverts the primary artifact of a buffer whose bytes all have a code, if no code begins
another symbol's. -/
theorem decodeArtifact_primaryArtifact (w h : Dim) {buffer : List Byte} {rom : Table Code}
    (hfree : ∀ x y, x ≠ y → rom.entry x ≠ [] → rom.entry y ≠ [] → ¬ (rom.entry x <+: rom.entry y))
    (hcoded : ∀ b ∈ buffer, rom.entry b ≠ []) :
    decodeArtifact rom (primaryArtifact w h buffer rom) = ⟨buffer, [], 0⟩ := by
  rw [decodeArtifact, primaryArtifact, decodeStart_header, List.drop_left, decodePayload_encoded hfree hcoded]

/-- Settles O37: no code of `GEN`'s ROM begins another's, so `DEC` finds the buffer in the artifact and ends by
its size contract. -/
theorem emitThenDecRoundTrip : Obligations.EmitThenDecRoundTrip := by
  intro s s1 s2 s3 s4 u t h1 h2 h3 h4 hok hcode hpri hcap hdst hdec
  obtain ⟨-, hcoded, hfit, h4eq⟩ := stages_emit_ok h1 h2 h3 h4 hok
  have hcode3 : u.code = s3.code := by rw [hcode, h4eq, State.code_complete, State.code_commit]
  have hcontent : u.content .pri = primaryArtifact s.width s.height (s.content .src) s3.code := by
    rw [hpri, h4eq, State.content_complete, State.content_commit_same _ _ _ (hfit.trans_lt (s3.capOf_lt .pri))]
  have hroom : u.lenOf .pri ≤ u.capOf .pri := by
    rw [← u.length_content, hcontent, hcap, h4eq, State.capOf_complete, State.capOf_commit]
    exact hfit
  have hstart : decodeStart (u.content .pri) = (header s.width s.height).length := by
    rw [hcontent, primaryArtifact, decodeStart_header]
  have hdecoded : decodeArtifact u.code (u.content .pri) = ⟨s.content .src, [], 0⟩ := by
    rw [hcontent, hcode3]
    exact decodeArtifact_primaryArtifact _ _ (buildGenPrefixFree s1 s2 s3 h2 h3) hcoded
  obtain ⟨t', hdec', -, hend, hfail⟩ := decEndings u
  obtain rfl : t = t' := Host.Outcome.next.inj (hdec.symm.trans hdec')
  obtain ⟨acc, hacc, hcount, hdropped, -, htruncated, hall⟩ := hend hroom
  obtain rfl : acc = ⟨s.content .src, [], 0⟩ := hacc.trans hdecoded
  dsimp only at hcount hdropped htruncated hall
  rw [s.length_content] at hcount htruncated hall
  refine ⟨hcount, BitVec.eq_of_toNat_eq hdropped, hstart, fun hmany => ?ok, fun hfew => ?truncated⟩
  case ok =>
    obtain ⟨hreport, hholds, hlen⟩ := hall hdst hmany
    exact ⟨hreport, hholds.content_eq (hlen.trans (s.length_content .src).symm)⟩
  case truncated =>
    obtain ⟨⟨hout, -⟩, -⟩ := htruncated hdst hfew
    exact ⟨hout, (hfail (by rw [hout]; exact nofun)).1⟩

end Sys2Proof.Machine
end

section
/-! The rules of 45_table_io.md: the records `TSAVE` writes, the lines of a sidecar and what each of them says, the ROM
that `TLOAD` makes of them, and the round trip of the two. -/

namespace Sys2Proof.Machine

/-! ### The endings of TSAVE -/

section
variable {s t : State}

/-- Records that fit are committed as they are, so the length register holds their exact size. -/
theorem exec_tsave_ok (h : exec .tsave s = .next t) (hfit : (sidecarArtifact s.code).length ≤ s.capOf .sdc) :
    t.Reports okEnding ∧ HoldsArtifact s t .sdc (sidecarArtifact s.code) ∧
    t.lenOf .sdc = (sidecarArtifact s.code).length := by
  have ht : t = (s.commit .sdc (sidecarArtifact s.code)).complete okEnding := by
    rw [exec_next h, commandBody, tsaveBody_eq, if_pos hfit]
  rw [ht]
  exact ⟨State.complete_reports _ _, holdsArtifact_commit s .sdc _, s.lenOf_commit_same hfit⟩

/-- Records that do not fit leave the length 0 and write no byte (45_table_io.md R124). -/
theorem exec_tsave_overflow (h : exec .tsave s = .next t) (hover : s.capOf .sdc < (sidecarArtifact s.code).length) :
    t.Reports (ioFailureEnding .sdc) ∧ t.lenOf .sdc = 0 ∧ SameBytes s t .sdc := by
  have ht : t = (s.setLen .sdc 0#32).complete (ioFailureEnding .sdc) := by
    rw [exec_next h, commandBody, tsaveBody_eq, if_neg hover.not_ge]
  rw [ht]
  exact ⟨State.complete_reports _ _, rfl, s.memRead_setLen .sdc 0#32 .sdc⟩

/-- `TSAVE` reports `OK` only when the records fit. -/
theorem sidecarArtifact_fits_of_outcome_ok (h : exec .tsave s = .next t) (hok : t.outcome = .ok) :
    (sidecarArtifact s.code).length ≤ s.capOf .sdc := by
  by_contra hover
  obtain ⟨⟨hcode, -⟩, -⟩ := exec_tsave_overflow h (not_le.1 hover)
  exact absurd (hcode.symm.trans hok) nofun

end

/-- Settles O38: the records are committed if they fit, as the empty ROM's none and the at most 66560 bytes of
fitting entries do where the premises say so. -/
theorem tsaveWritesRecords : Obligations.TsaveWritesRecords := by
  intro s
  obtain ⟨t, ht⟩ : ∃ t, exec .tsave s = .next t := ⟨_, exec_eq .tsave s⟩
  refine ⟨t, ht, fun hfit => ?fit, exec_tsave_overflow ht, fun hnone => ?empty, fun hentries hcap => ?largest⟩
  case fit =>
    rw [← length_sidecarArtifact]
    exact exec_tsave_ok ht hfit
  case empty =>
    have hlen : (sidecarArtifact s.code).length = 0 := by rw [sidecarArtifact_of_empty hnone, List.length_nil]
    obtain ⟨hreports, -, hsdc⟩ := exec_tsave_ok ht (hlen ▸ Nat.zero_le _)
    exact ⟨hreports, hsdc.trans hlen⟩
  case largest =>
    have hlen := length_sidecarArtifact_le hentries
    obtain ⟨hreports, -, hsdc⟩ := exec_tsave_ok ht (hlen.trans hcap)
    exact ⟨hreports, hsdc.trans_le hlen⟩

/-! ### The lines of a sidecar -/

/-- Data is lines that each end with a newline and a rest without one; the rest is a line unless it is empty. `cur` is
the part of the current line read so far. -/
theorem linesFrom_terminated_rest (data : List Byte) : ∀ cur, newlineByte ∉ cur →
    ∃ lines rest, (∀ line ∈ lines, newlineByte ∉ line) ∧ newlineByte ∉ rest ∧
      cur ++ data = lines.flatMap (fun l => l ++ [newlineByte]) ++ rest ∧
      linesFrom cur data = lines ++ if rest = [] then [] else [rest] := by
  induction data with
  | nil => exact fun cur hcur => ⟨[], cur, nofun, hcur, List.append_nil cur, rfl⟩
  | cons b data ih =>
    intro cur hcur
    by_cases hb : b = newlineByte
    · obtain ⟨lines, rest, hlines, hrest, hdata, hsplit⟩ := ih [] List.not_mem_nil
      refine ⟨cur :: lines, rest, List.forall_mem_cons.2 ⟨hcur, hlines⟩, hrest, ?_, ?_⟩
      · rw [List.nil_append] at hdata
        simp [hb, hdata]
      · rw [linesFrom, if_pos hb, hsplit, List.cons_append]
    · have hcur' : newlineByte ∉ cur ++ [b] := by simp [hcur, Ne.symm hb]
      obtain ⟨lines, rest, hlines, hrest, hdata, hsplit⟩ := ih (cur ++ [b]) hcur'
      refine ⟨lines, rest, hlines, hrest, ?_, ?_⟩
      · rwa [List.append_cons]
      · rw [linesFrom, if_neg hb, hsplit]

theorem getLast?_terminated {lines : List (List Byte)} (h : lines ≠ []) :
    (lines.flatMap (fun l => l ++ [newlineByte])).getLast? = some newlineByte := by
  rw [← List.dropLast_concat_getLast h, List.flatMap_append, List.flatMap_singleton, ← List.append_assoc,
    List.getLast?_concat]

/-- Settles O39: the rest behind the last newline is empty exactly for the data that end with a newline or are
empty. -/
theorem linesSplitAtNewlines : Obligations.LinesSplitAtNewlines := by
  intro data
  obtain ⟨lines, rest, hlines, hrest, hdata, hsplit⟩ := linesFrom_terminated_rest data [] List.not_mem_nil
  rw [List.nil_append] at hdata
  rw [linesOf, hsplit]
  by_cases hr : rest = []
  · rw [if_pos hr, List.append_nil]
    rw [hr, List.append_nil] at hdata
    refine ⟨hlines, fun _ => hdata.symm, fun hne hlast => absurd ?_ hlast⟩
    rw [hdata]
    exact getLast?_terminated (by rintro rfl; exact hne hdata)
  · rw [if_neg hr]
    refine ⟨?noNewline, fun hend => ?ended, fun _ _ => ⟨?unended, rest, List.getLast?_concat, hr⟩⟩
    case noNewline =>
      intro line hline
      rcases List.mem_append.1 hline with hl | hl
      · exact hlines line hl
      · rwa [List.mem_singleton.1 hl]
    case ended =>
      have hlast : data.getLast? = rest.getLast? := by rw [hdata, List.getLast?_append_of_ne_nil _ hr]
      rcases hend with hnil | hnl
      · exact absurd (List.append_eq_nil_iff.1 (hdata.symm.trans hnil)).2 hr
      · exact absurd (List.mem_of_getLast? (hlast.symm.trans hnl)) hrest
    case unended =>
      rw [List.flatMap_append, List.flatMap_singleton, ← List.append_assoc, hdata]
      rfl

/-! ### The well-formed lines -/

theorem isDigit_iff {c : Byte} : isDigit c = true ↔ 0x30 ≤ c.toNat ∧ c.toNat ≤ 0x39 := by
  rw [isDigit, Bool.and_eq_true, decide_eq_true_eq, decide_eq_true_eq]

theorem length_tokenLine (d0 d1 d2 sp : Byte) (q : Code) : (d0 :: d1 :: d2 :: sp :: tokens q).length = 4 + q.length := by
  rw [← length_tokens q]
  simp only [List.length_cons]
  omega

/-- Settles O40: the digits, the space and the tokens stand at fixed positions, so the line's length bounds the
code's. -/
theorem wellFormedLines : Obligations.WellFormedLines := by
  intro line x q
  rw [parseLine_some]
  constructor
  · rintro ⟨d0, d1, d2, rfl, hmin, hmax, h0, h1, h2, hx⟩
    refine ⟨d0, d1, d2, tokens q, rfl, ?_, ?_, isDigit_iff.1 h0, isDigit_iff.1 h1, isDigit_iff.1 h2, hx, rfl⟩ <;>
      rw [length_tokenLine] <;> omega
  · rintro ⟨d0, d1, d2, toks, rfl, hmin, hmax, h0, h1, h2, hx, rfl⟩
    rw [length_tokenLine] at hmin hmax
    exact ⟨d0, d1, d2, rfl, by omega, by omega, isDigit_iff.2 h0, isDigit_iff.2 h1, isDigit_iff.2 h2, hx⟩

/-! ### The endings of TLOAD -/

section
variable {s t : State}

theorem exec_tload_tooLong (h : exec .tload s = .next t) (hlong : s.capOf .sdc < s.lenOf .sdc) :
    t = (tloadClear s).complete (ioFailureEnding .sdc) := by
  rw [exec_next h, commandBody, tloadBody, if_pos hlong]

/-- A sidecar that fits is parsed; the ending says whether that gave any entry (45_table_io.md R132). -/
theorem exec_tload_parsed (h : exec .tload s = .next t) (hcap : s.lenOf .sdc ≤ s.capOf .sdc) :
    t.code = (loadLines (s.content .sdc)).code ∧ t.tblMalformed = (loadLines (s.content .sdc)).malformed ∧
    (symCount t.code = 0 → t.Reports tableNotFoundEnding) ∧ (symCount t.code ≠ 0 → t.Reports okEnding) := by
  rcases tloadBody_cases s with ⟨hlong, -⟩ | ⟨-, hnone, e⟩ | ⟨-, hsome, e⟩
  · exact absurd hlong hcap.not_gt
  · rw [exec_next h, commandBody, e]
    exact ⟨rfl, rfl, fun _ => State.complete_reports _ _, fun hne => absurd hnone hne⟩
  · rw [exec_next h, commandBody, e]
    exact ⟨rfl, rfl, fun hz => absurd hz hsome, fun _ => State.complete_reports _ _⟩

end

/-- Settles O41: a fold over the lines from the empty ROM, in which a symbol's last line wins and a malformed line
only sets the flag. -/
theorem tloadRecoversLines : Obligations.TloadRecoversLines := by
  intro s
  obtain ⟨t, ht⟩ : ∃ t, exec .tload s = .next t := ⟨_, exec_eq .tload s⟩
  refine ⟨t, ht, fun hlong => ?tooLong, fun hcap => ?parsed⟩
  case tooLong =>
    rw [exec_tload_tooLong ht hlong]
    exact ⟨State.complete_reports _ _, emptyCode_entry, rfl⟩
  case parsed =>
    obtain ⟨hcode, hflag, hend⟩ := exec_tload_parsed ht hcap
    refine ⟨fun x => ?entry, ?flag, hend⟩
    case entry => rw [hcode, loadLines, foldl_loadLine_entry, emptyCode_entry]
    case flag =>
      rw [hflag, loadLines, foldl_loadLine_malformed]
      simp only [Bool.false_eq_true, false_or]

/-! ### The round trip -/

theorem exec_capOf {i : Instr} {s t : State} (h : exec i s = .next t) (S : Space) : t.capOf S = s.capOf S := by
  obtain ⟨hcaps, -⟩ := commandsKeepInputs i s t h
  cases S <;> rw [State.capOf, State.capOf, hcaps]

/-- Settles O42: `OK` means the whole sidecar is there, and parsing it gives the ROM it was made of. -/
theorem saveThenLoadRestoresRom : Obligations.SaveThenLoadRestoresRom := by
  intro s t u hentries hsave hok hsdc hcap
  have hfit := sidecarArtifact_fits_of_outcome_ok hsave hok
  obtain ⟨-, hholds, hlen⟩ := exec_tsave_ok hsave hfit
  have hcontent : u.content .sdc = sidecarArtifact s.code := hsdc.trans (hholds.content_eq hlen)
  have hroom : u.lenOf .sdc ≤ u.capOf .sdc := by
    rw [← u.length_content, hcontent, hcap, exec_capOf hsave]
    exact hfit
  obtain ⟨v, hload⟩ : ∃ v, exec .tload u = .next v := ⟨_, exec_eq .tload u⟩
  obtain ⟨hcode, hflag, hempty, hsome⟩ := exec_tload_parsed hload hroom
  obtain ⟨hrom, hwell⟩ := loadLines_sidecarArtifact hentries
  rw [← hcontent] at hrom hwell
  have hrestored : v.code = s.code := hcode.trans hrom
  rw [hrestored] at hempty hsome
  exact ⟨v, hload, hrestored, hflag.trans hwell, hsome, hempty⟩

end Sys2Proof.Machine
end

section
/-! The rules of 46_macro.md: the endings of `ENCODE` and `DECODE` and what each leaves, that both depend on their inputs
only, that they leave what the stage commands leave, and the round trip of the two. -/

namespace Sys2Proof.Machine

/-! ### Reports, artifacts, and operations that commute -/

/-- A report determines the ending. -/
theorem State.complete_reports_iff (s : State) (e f : Ending) : (s.complete e).Reports f ↔ e = f :=
  ⟨fun ⟨hcode, hinfo, _⟩ => congr (congrArg Ending.mk hcode) hinfo, fun h => h ▸ s.complete_reports e⟩

theorem exec_of_body {i : Instr} {s t : State} {e : Ending} (h : commandBody i s = (t, e)) :
    exec i s = .next (t.complete e) := by
  rw [exec_eq, h]

theorem symCount_emptyCode : symCount emptyCode = 0 := (symCount_eq_zero _).2 emptyCode_entry

section
variable {s t u : State} {S D : Space} {out : List Byte}

theorem HoldsArtifact.ofStart (h : HoldsArtifact u t S out) (hbytes : SameBytes s u S) : HoldsArtifact s t S out := by
  obtain ⟨hin, hfrom⟩ := h
  exact ⟨hin, fun a ha => (hfrom a ha).trans (hbytes a)⟩

theorem HoldsArtifact.commit_other (h : HoldsArtifact s t S out) (hSD : S ≠ D) (out' : List Byte) :
    HoldsArtifact s (t.commit D out') S out := by
  obtain ⟨hin, hfrom⟩ := h
  have hsame := sameBytes_commit t D out' hSD
  exact ⟨fun a b hb => (hsame a).trans (hin a b hb), fun a ha => (hsame a).trans (hfrom a ha)⟩

theorem EmptyTree.keepsTree (hs : EmptyTree s) (ht : EmptyTree t) : KeepsTree s t := by
  obtain ⟨hfreq, hnodes, hroot⟩ := hs
  obtain ⟨hfreq', hnodes', hroot'⟩ := ht
  exact ⟨hfreq'.trans hfreq.symm, hnodes'.trans hnodes.symm, hroot'.trans hroot.symm⟩

theorem HoldsArtifact.complete (h : HoldsArtifact s t S out) (e : Ending) : HoldsArtifact s (t.complete e) S out := h

end

section
variable (s : State) (S : Space) (out : List Byte) (e : Ending)

theorem State.complete_complete (f : Ending) : (s.complete e).complete f = s.complete f := rfl

theorem State.complete_dropTree : (s.complete e).dropTree = s.dropTree.complete e := rfl

theorem State.complete_commit : (s.complete e).commit S out = (s.commit S out).complete e := by cases S <;> rfl

theorem State.commit_dropTree : (s.commit S out).dropTree = s.dropTree.commit S out := by cases S <;> rfl

theorem State.setLen_commit_same (n : Word) : (s.setLen S n).commit S out = s.commit S out := by cases S <;> rfl

end

/-! ### What ENCODE leaves -/

/-- The primary artifact of `ENCODE`, made with the ROM of the buffer (46_macro.md R140). Irreducible, as are the next
two: no unification should start to build the tree of the buffer. -/
@[irreducible] def encodedPrimary (s : State) : List Byte :=
  primaryArtifact s.width s.height (s.content .src) (romOfBuffer (s.content .src))

/-- The sidecar artifact of `ENCODE`, made of the same ROM. -/
@[irreducible] def encodedSidecar (s : State) : List Byte := sidecarArtifact (romOfBuffer (s.content .src))

/-- The state that `ENCODE` completes with `OK`. -/
@[irreducible] def encodedState (s : State) : State :=
  ((encodeTables s).dropTree.commit .pri (encodedPrimary s)).commit .sdc (encodedSidecar s)

/-- Both artifact lengths are 0 and no byte of any space is written. -/
def NoArtifacts (s t : State) : Prop := t.lenOf .pri = 0 ∧ t.lenOf .sdc = 0 ∧ ∀ S, SameBytes s t S

theorem NoArtifacts.complete {s t : State} (h : NoArtifacts s t) (e : Ending) : NoArtifacts s (t.complete e) := h

section
variable (s : State)

/-- The checks of `ENCODE` in their order (46_macro.md R140, 60_exceptions.md R168). -/
theorem encodeBody_eq : encodeBody s =
    if s.capOf .src < s.lenOf .src then ((encodeStart s).dropTree, ioFailureEnding .src)
    else if s.lenOf .src = 0 then ((encodeStart s).dropTree, emptyInputEnding)
    else if s.capOf .pri < (encodedPrimary s).length then ((encodeTables s).dropTree, ioFailureEnding .pri)
    else if s.capOf .sdc < (encodedSidecar s).length then ((encodeTables s).dropTree, ioFailureEnding .sdc)
    else (encodedState s, okEnding) := by
  rcases encodeBody_cases s with
    ⟨hlong, e⟩ | ⟨hempty, e⟩ | ⟨hpos, hcap, ⟨hpri, e⟩ | ⟨hpri, hsdc, e⟩ | ⟨hpri, hsdc, e⟩⟩
  · rw [if_pos hlong, e]
  · rw [if_neg (by omega), if_pos hempty, e]
  all_goals
    rw [← encodedPrimary] at hpri
    rw [if_neg hcap.not_gt, if_neg (by omega : s.lenOf .src ≠ 0), e]
  · rw [if_pos hpri]
  · rw [← encodedSidecar] at hsdc
    rw [if_neg hpri.not_gt, if_pos hsdc]
  · rw [← encodedSidecar] at hsdc
    rw [if_neg hpri.not_gt, if_neg hsdc.not_gt, State.commit_dropTree, State.commit_dropTree, ← encodedPrimary,
      ← encodedSidecar, encodedState]

theorem encodedState_code : (encodedState s).code = romOfBuffer (s.content .src) := by
  rw [encodedState, State.code_commit, State.code_commit, State.code_dropTree, encodeTables_code]

theorem encodedState_counters : (encodedState s).decCount = 0#32 ∧ (encodedState s).decDropped = 0#32 ∧
    (encodedState s).tblMalformed = false := by
  rw [encodedState]
  exact ⟨rfl, rfl, rfl⟩

theorem encodedState_primary : HoldsArtifact s (encodedState s) .pri (encodedPrimary s) := by
  rw [encodedState]
  have hpri := holdsArtifact_commit (encodeTables s).dropTree .pri (encodedPrimary s)
  exact (hpri.ofStart (encodeTables_memRead s .pri)).commit_other (by decide) (encodedSidecar s)

theorem encodedState_sidecar : HoldsArtifact s (encodedState s) .sdc (encodedSidecar s) := by
  rw [encodedState]
  refine (holdsArtifact_commit _ .sdc (encodedSidecar s)).ofStart fun a => ?_
  rw [sameBytes_commit _ .pri (encodedPrimary s) (by decide), State.memRead_dropTree, encodeTables_memRead]

theorem encodeBody_emptyTree : EmptyTree (encodeBody s).1 := ⟨rfl, rfl, rfl⟩

theorem encodeBody_counters : (encodeBody s).1.decCount = 0#32 ∧ (encodeBody s).1.decDropped = 0#32 ∧
    (encodeBody s).1.tblMalformed = false := by
  rw [encodeBody_eq]
  split_ifs
  case neg => exact encodedState_counters s
  all_goals exact ⟨rfl, rfl, rfl⟩

/-- The five endings, and when the two early ones come (46_macro.md R141). -/
theorem encodeBody_ending :
    ((encodeBody s).2 = okEnding ∨ (encodeBody s).2 = emptyInputEnding ∨ (encodeBody s).2 = ioFailureEnding .src ∨
      (encodeBody s).2 = ioFailureEnding .pri ∨ (encodeBody s).2 = ioFailureEnding .sdc) ∧
    ((encodeBody s).2 = ioFailureEnding .src ↔ s.capOf .src < s.lenOf .src) ∧
    ((encodeBody s).2 = emptyInputEnding ↔ s.lenOf .src = 0) := by
  rw [encodeBody_eq]
  split_ifs with hlong hempty
  · exact ⟨.inr (.inr (.inl rfl)), iff_of_true rfl hlong, iff_of_false nofun (by omega)⟩
  · exact ⟨.inr (.inl rfl), iff_of_false nofun hlong, iff_of_true rfl hempty⟩
  · exact ⟨.inr (.inr (.inr (.inl rfl))), iff_of_false nofun hlong, iff_of_false nofun hempty⟩
  · exact ⟨.inr (.inr (.inr (.inr rfl))), iff_of_false nofun hlong, iff_of_false nofun hempty⟩
  · exact ⟨.inl rfl, iff_of_false nofun hlong, iff_of_false nofun hempty⟩

end

section
variable {s t : State}

theorem encodedState_priLen (h : (encodedPrimary s).length ≤ s.capOf .pri) :
    (encodedState s).lenOf .pri = (encodedPrimary s).length := by
  rw [encodedState, keepsLen_commit _ .sdc _ (by decide), State.lenOf_commit_same]
  rwa [State.capOf_dropTree, encodeTables_capOf]

theorem encodedState_sdcLen (h : (encodedSidecar s).length ≤ s.capOf .sdc) :
    (encodedState s).lenOf .sdc = (encodedSidecar s).length := by
  rw [encodedState, State.lenOf_commit_same]
  rwa [State.capOf_commit, State.capOf_dropTree, encodeTables_capOf]

theorem encodedState_content_pri (h : (encodedPrimary s).length ≤ s.capOf .pri) :
    (encodedState s).content .pri = encodedPrimary s :=
  (encodedState_primary s).content_eq (encodedState_priLen h)

theorem encodedState_content_sdc (h : (encodedSidecar s).length ≤ s.capOf .sdc) :
    (encodedState s).content .sdc = encodedSidecar s :=
  (encodedState_sidecar s).content_eq (encodedState_sdcLen h)

/-- `ENCODE` commits its artifacts with `OK` only (46_macro.md R142). -/
theorem encodeBody_not_ok (h : (encodeBody s).2.code ≠ .ok) : NoArtifacts s (encodeBody s).1 := by
  have hstart : NoArtifacts s (encodeStart s) := ⟨rfl, rfl, encodeStart_memRead s⟩
  have htables : NoArtifacts s (encodeTables s) := ⟨rfl, rfl, encodeTables_memRead s⟩
  rw [encodeBody_eq] at h ⊢
  split_ifs at h ⊢
  · exact hstart
  · exact hstart
  · exact htables
  · exact htables
  · exact absurd rfl h

theorem encodeBody_early_code (h : s.capOf .src < s.lenOf .src ∨ s.lenOf .src = 0) :
    (encodeBody s).1.code = emptyCode := by
  rw [encodeBody_eq]
  split_ifs with hlong hempty
  · rfl
  · rfl
  all_goals exact (h.elim hlong hempty).elim

/-- Past the two early checks only the artifacts' sizes matter. -/
theorem encodeBody_stages (hpos : 1 ≤ s.lenOf .src) (hcap : s.lenOf .src ≤ s.capOf .src) : encodeBody s =
    if s.capOf .pri < (encodedPrimary s).length then ((encodeTables s).dropTree, ioFailureEnding .pri)
    else if s.capOf .sdc < (encodedSidecar s).length then ((encodeTables s).dropTree, ioFailureEnding .sdc)
    else (encodedState s, okEnding) := by
  rw [encodeBody_eq, if_neg hcap.not_gt, if_neg (by omega : s.lenOf .src ≠ 0)]

theorem encodeBody_stages_code (hpos : 1 ≤ s.lenOf .src) (hcap : s.lenOf .src ≤ s.capOf .src) :
    (encodeBody s).1.code = romOfBuffer (s.content .src) := by
  rw [encodeBody_stages hpos hcap]
  split_ifs
  · rfl
  · rfl
  · exact encodedState_code s

theorem exec_encode_error {e : Ending} (h : exec .encode s = .next t) (hend : (encodeBody s).2 = e)
    (he : e.code ≠ .ok) : t.Reports e ∧ NoArtifacts s t := by
  rw [exec_next h, commandBody, hend]
  exact ⟨State.complete_reports _ _, (encodeBody_not_ok (hend ▸ he)).complete e⟩

/-- `ENCODE` reports `OK` only past all its checks. -/
theorem exec_encode_ok (h : exec .encode s = .next t) (hok : t.outcome = .ok) :
    1 ≤ s.lenOf .src ∧ s.lenOf .src ≤ s.capOf .src ∧ (encodedPrimary s).length ≤ s.capOf .pri ∧
    (encodedSidecar s).length ≤ s.capOf .sdc ∧ t = (encodedState s).complete okEnding := by
  obtain rfl := exec_next h
  rw [State.outcome_complete, commandBody, encodeBody_eq] at hok
  rw [commandBody, encodeBody_eq]
  split_ifs at hok ⊢ with hlong hempty hpri hsdc
  case neg => exact ⟨by omega, not_lt.1 hlong, not_lt.1 hpri, not_lt.1 hsdc, rfl⟩
  all_goals exact nomatch hok

end

/-- Settles O43: the endings are those of the checks of `ENCODE`, and `FREQ` and the arena are emptied after any. -/
theorem encodeEndings : Obligations.EncodeEndings := by
  intro s
  obtain ⟨hcount, hdropped, hflag⟩ := encodeBody_counters s
  obtain ⟨hending, hlong, hempty⟩ := encodeBody_ending s
  have hreports := State.complete_reports_iff (encodeBody s).1 (encodeBody s).2
  refine ⟨_, exec_eq .encode s, encodeBody_emptyTree s, hcount, hdropped, hflag, ?reports, encodeBody_not_ok,
    (hreports _).trans hlong, (hreports _).trans hempty, fun h => ?early⟩
  case reports => simpa only [commandBody, hreports] using hending
  case early => rw [State.code_complete, commandBody, encodeBody_early_code h, symCount_emptyCode]

/-- Settles O44: the two sizes are checked in turn, and only when both artifacts fit are both committed. -/
theorem encodeWritesBothArtifacts : Obligations.EncodeWritesBothArtifacts := by
  intro s hpos hcap
  obtain ⟨t, ht⟩ : ∃ t, exec .encode s = .next t := ⟨_, exec_eq .encode s⟩
  have hbody := encodeBody_stages hpos hcap
  have hcode : t.code = romOfBuffer (s.content .src) := by
    rw [exec_next ht]
    exact encodeBody_stages_code hpos hcap
  refine ⟨t, ht, hcode, ?_⟩
  rw [hcode, ← encodedPrimary, ← encodedSidecar]
  refine ⟨fun hpri hsdc => ?fits, fun hpri => ?primary, fun hpri hsdc => ?sidecar⟩
  case fits =>
    rw [if_neg hpri.not_gt, if_neg hsdc.not_gt] at hbody
    rw [exec_next ht, commandBody, hbody, State.lenOf_complete, State.lenOf_complete]
    exact ⟨State.complete_reports _ _, (encodedState_primary s).complete _, encodedState_priLen hpri,
      (encodedState_sidecar s).complete _, encodedState_sdcLen hsdc⟩
  case primary => exact exec_encode_error ht (by rw [hbody, if_pos hpri]) nofun
  case sidecar => exact exec_encode_error ht (by rw [hbody, if_neg hpri.not_gt, if_pos hsdc]) nofun

/-! ### What DECODE leaves -/

/-- The state from which `DECODE` goes on to the payload: cleared, then loaded from the sidecar (46_macro.md R144). -/
def decodeLoaded (s : State) : State := tloadFill (decodeStartState s) (loadLines (s.content .sdc))

theorem loadLines_malformed_iff (data : List Byte) :
    (loadLines data).malformed = true ↔ ∃ line ∈ linesOf data, parseLine line = none := by
  rw [loadLines, foldl_loadLine_malformed]
  simp only [Bool.false_eq_true, false_or]

section
variable (s : State)

theorem decBody_code : (decBody s).1.code = s.code := (decBody_keepsTables s).2

/-- The checks of `DEC` in their order (44_codec.md R108). -/
theorem decBody_eq : decBody s =
    if s.capOf .pri < s.lenOf .pri then (decClear s, ioFailureEnding .pri)
    else if s.capOf .dst < (decOut s).length then (decCounted s, ioFailureEnding .dst)
    else if (decOut s).length < s.expected then (decCounted s, truncatedEnding (decOut s).length)
    else ((decCounted s).commit .dst (decOut s), okEnding) := rfl

theorem decodeLoaded_content_pri : (decodeLoaded s).content .pri = s.content .pri :=
  (tloadFill_content _ _ .pri).trans (decodeStartState_content s (by decide))

/-- The checks of the `TLOAD` body come first; past them `DECODE` is `DEC` with the loaded ROM (46_macro.md R145). -/
theorem decodeBody_eq : decodeBody s =
    if s.capOf .sdc < s.lenOf .sdc then (tloadClear (decodeStartState s), ioFailureEnding .sdc)
    else if symCount (loadLines (s.content .sdc)).code = 0 then (decodeLoaded s, tableNotFoundEnding)
    else decBody (decodeLoaded s) := by
  rcases decodeBody_ends s with ⟨hlong, e⟩ | ⟨hcap, hnone, e⟩ | ⟨hcap, hsome, e⟩
  · rw [if_pos hlong, e]
  · rw [if_neg hcap.not_gt, if_pos hnone, e, decodeLoaded]
  · rw [if_neg hcap.not_gt, if_neg hsome, e, decodeLoaded]

theorem decodeBody_emptyTree : EmptyTree (decodeBody s).1 := by
  rw [decodeBody_eq]
  split_ifs
  · exact ⟨rfl, rfl, rfl⟩
  · exact ⟨rfl, rfl, rfl⟩
  · obtain ⟨⟨hfreq, hnodes, hroot⟩, -⟩ := decBody_keepsTables (decodeLoaded s)
    exact ⟨hfreq, hnodes, hroot⟩

end

section
variable {s : State}

/-- `DECODE` writes `DST` and its length with `OK` only (46_macro.md R146). -/
theorem decodeBody_not_ok (h : (decodeBody s).2.code ≠ .ok) :
    (decodeBody s).1.lenOf .dst = 0 ∧ SameBytes s (decodeBody s).1 .dst := by
  rw [decodeBody_eq] at h ⊢
  split_ifs at h ⊢
  · exact ⟨rfl, fun _ => rfl⟩
  · exact ⟨rfl, fun _ => rfl⟩
  · exact decBody_not_ok _ h

theorem decodeBody_tblMalformed (hcap : s.lenOf .sdc ≤ s.capOf .sdc) :
    (decodeBody s).1.tblMalformed = (loadLines (s.content .sdc)).malformed := by
  rw [decodeBody_eq, if_neg hcap.not_gt]
  split_ifs
  · rfl
  · exact decBody_tblMalformed _

/-- Without a recovered entry nothing is decoded (46_macro.md R145). -/
theorem decodeBody_early (h : s.capOf .sdc < s.lenOf .sdc ∨ symCount (loadLines (s.content .sdc)).code = 0) :
    symCount (decodeBody s).1.code = 0 ∧ (decodeBody s).1.decCount = 0#32 ∧ (decodeBody s).1.decDropped = 0#32 := by
  rw [decodeBody_eq]
  split_ifs with hlong hnone
  · exact ⟨symCount_emptyCode, rfl, rfl⟩
  · exact ⟨hnone, rfl, rfl⟩
  · exact (h.elim hlong hnone).elim

theorem decodeBody_loaded (hcap : s.lenOf .sdc ≤ s.capOf .sdc) (h : symCount (loadLines (s.content .sdc)).code ≠ 0) :
    decodeBody s = decBody (decodeLoaded s) := by
  rw [decodeBody_eq, if_neg hcap.not_gt, if_neg h]

theorem exec_decode_loaded (hcap : s.lenOf .sdc ≤ s.capOf .sdc) (h : symCount (loadLines (s.content .sdc)).code ≠ 0) :
    exec .decode s = exec .dec (decodeLoaded s) := by
  rw [exec_eq, exec_eq, commandBody, commandBody, decodeBody_loaded hcap h]

end

/-- Settles O45: past the checks of `TLOAD` the endings are those of `DEC` on the loaded state, whose payload and bytes
are those of the start. -/
theorem decodeEndings : Obligations.DecodeEndings := by
  intro s
  obtain ⟨t, ht⟩ : ∃ t, exec .decode s = .next t := ⟨_, exec_eq .decode s⟩
  have hbody : t = (decodeBody s).1.complete (decodeBody s).2 := exec_next ht
  obtain ⟨-, hframe⟩ := macroFrame
  obtain ⟨hkept, -⟩ := hframe s t ht
  obtain ⟨hpriLen, hpri⟩ := hkept .pri (by decide)
  obtain ⟨hsdcLen, hsdc⟩ := hkept .sdc (by decide)
  obtain ⟨-, hw, hh, -⟩ := commandsKeepInputs _ _ _ ht
  refine ⟨t, ht, ?tree, BitVec.eq_of_toNat_eq hpriLen, BitVec.eq_of_toNat_eq hsdcLen, hw, hh, hpri, hsdc, ?notOk,
    fun hlong => ?tooLong, fun hcap => ?flag, fun hcap hnone => ?noEntry, ?early, fun hcap hsome => ?loaded⟩
  case tree => rw [hbody]; exact decodeBody_emptyTree s
  case notOk => rw [hbody]; exact decodeBody_not_ok
  case tooLong =>
    rw [hbody, decodeBody_eq, if_pos hlong]
    exact ⟨State.complete_reports _ _, rfl⟩
  case flag => rw [hbody, State.tblMalformed_complete, decodeBody_tblMalformed hcap, loadLines_malformed_iff]
  case noEntry =>
    rw [hbody, decodeBody_eq, if_neg hcap.not_gt, if_pos hnone]
    exact State.complete_reports _ _
  case early => rw [hbody]; exact decodeBody_early
  case loaded =>
    obtain ⟨t', ht', hlong, hdecoded, -⟩ := decEndings (decodeLoaded s)
    obtain rfl : t = t' := Host.Outcome.next.inj ((ht.symm.trans (exec_decode_loaded hcap hsome)).trans ht')
    refine ⟨?code, hlong, fun hfit => ?decoded⟩
    case code =>
      rw [hbody, decodeBody_loaded hcap hsome]
      exact decBody_code _
    case decoded =>
      obtain ⟨acc, hacc, hcount, hdropped, hover, htruncated, hall⟩ := hdecoded hfit
      rw [decodeLoaded_content_pri] at hacc
      refine ⟨acc, hacc, hcount, hdropped, hover, htruncated, fun hroom hmany => ?_⟩
      obtain ⟨hreports, hholds, hlen⟩ := hall hroom hmany
      exact ⟨hreports, hholds.ofStart fun _ => rfl, hlen⟩

/-! ### Isolation -/

theorem State.capOf_congr {s t : State} (h : s.caps = t.caps) (S : Space) : s.capOf S = t.capOf S := by
  cases S <;> rw [State.capOf, State.capOf, h]

theorem State.lenOf_congr {s t : State} {S : Space} (h : s.content S = t.content S) : s.lenOf S = t.lenOf S := by
  rw [← s.length_content, h, t.length_content]

theorem State.statusWord_complete_congr {s t : State} (h : s.tblMalformed = t.tblMalformed) (e : Ending) :
    (s.complete e).statusWord = (t.complete e).statusWord := by
  rw [State.statusWord, State.statusWord, State.tblMalformed_complete, State.tblMalformed_complete, h]
  rfl

section
variable {s1 s2 : State} (hcaps : s1.caps = s2.caps) (hw : s1.width = s2.width) (hh : s1.height = s2.height)
include hcaps hw hh

/-- `ENCODE` reads the content of `SRC`, the dimensions and the capacities. -/
theorem encodeBody_isolated (hsrc : s1.content .src = s2.content .src) :
    (encodeBody s1).2 = (encodeBody s2).2 ∧ (encodeBody s1).1.code = (encodeBody s2).1.code ∧
    (encodeBody s1).1.content .pri = (encodeBody s2).1.content .pri ∧
    (encodeBody s1).1.content .sdc = (encodeBody s2).1.content .sdc := by
  have hcap := State.capOf_congr hcaps
  have hrom : romOfBuffer (s1.content .src) = romOfBuffer (s2.content .src) := congrArg romOfBuffer hsrc
  have hpri : encodedPrimary s1 = encodedPrimary s2 := by rw [encodedPrimary, hw, hh, hsrc, ← encodedPrimary]
  have hsdc : encodedSidecar s1 = encodedSidecar s2 := by rw [encodedSidecar, hrom, ← encodedSidecar]
  rw [encodeBody_eq, encodeBody_eq, hcap, hcap, hcap, State.lenOf_congr hsrc, hpri, hsdc]
  split_ifs with _ _ hpriOver hsdcOver
  · exact ⟨rfl, rfl, rfl, rfl⟩
  · exact ⟨rfl, rfl, rfl, rfl⟩
  · exact ⟨rfl, hrom, rfl, rfl⟩
  · exact ⟨rfl, hrom, rfl, rfl⟩
  · have hpriFits : (encodedPrimary s2).length ≤ s2.capOf .pri := not_lt.1 hpriOver
    have hsdcFits : (encodedSidecar s2).length ≤ s2.capOf .sdc := not_lt.1 hsdcOver
    refine ⟨rfl, by rw [encodedState_code, encodedState_code, hrom], ?_, ?_⟩
    · rw [encodedState_content_pri hpriFits, encodedState_content_pri (by rwa [hpri, hcap]), hpri]
    · rw [encodedState_content_sdc hsdcFits, encodedState_content_sdc (by rwa [hsdc, hcap]), hsdc]

/-- `DEC` reads the ROM, the content of `PRI`, the dimensions and the capacities. -/
theorem decBody_isolated (hcode : s1.code = s2.code) (hpri : s1.content .pri = s2.content .pri) :
    (decBody s1).2 = (decBody s2).2 ∧ KeepsCounters (decBody s2).1 (decBody s1).1 ∧
    (decBody s1).1.content .dst = (decBody s2).1.content .dst := by
  have hcap := State.capOf_congr hcaps
  have hexpected : s1.expected = s2.expected := by rw [State.expected, hw, hh, ← State.expected]
  have hacc : decodeArtifact s1.code (s1.content .pri) = decodeArtifact s2.code (s2.content .pri) := by rw [hcode, hpri]
  have hout : decOut s1 = decOut s2 := congrArg DecAcc.out hacc
  have hcounters : KeepsCounters (decCounted s2) (decCounted s1) :=
    ⟨congrArg (fun acc : DecAcc => BitVec.ofNat 32 acc.out.length) hacc,
      congrArg (fun acc : DecAcc => BitVec.ofNat 32 acc.dropped) hacc⟩
  rw [decBody_eq, decBody_eq, hcap, hcap, State.lenOf_congr hpri, hout, hexpected]
  split_ifs with _ hover
  · exact ⟨rfl, ⟨rfl, rfl⟩, rfl⟩
  · exact ⟨rfl, hcounters, rfl⟩
  · exact ⟨rfl, hcounters, rfl⟩
  · have hlt : (decOut s2).length < 2 ^ 32 := (not_lt.1 hover).trans_lt (s2.capOf_lt .dst)
    exact ⟨rfl, hcounters, by rw [State.content_commit_same _ _ _ hlt, State.content_commit_same _ _ _ hlt]⟩

/-- `DECODE` reads the contents of `PRI` and `SDC`, the dimensions and the capacities. -/
theorem decodeBody_isolated (hpri : s1.content .pri = s2.content .pri) (hsdc : s1.content .sdc = s2.content .sdc) :
    (decodeBody s1).2 = (decodeBody s2).2 ∧ (decodeBody s1).1.code = (decodeBody s2).1.code ∧
    (decodeBody s1).1.tblMalformed = (decodeBody s2).1.tblMalformed ∧
    KeepsCounters (decodeBody s2).1 (decodeBody s1).1 ∧
    (decodeBody s1).1.content .dst = (decodeBody s2).1.content .dst := by
  have hload : loadLines (s1.content .sdc) = loadLines (s2.content .sdc) := congrArg loadLines hsdc
  have hcode : (decodeLoaded s1).code = (decodeLoaded s2).code := congrArg LoadAcc.code hload
  have hflag : (decodeLoaded s1).tblMalformed = (decodeLoaded s2).tblMalformed := congrArg LoadAcc.malformed hload
  have hpri' : (decodeLoaded s1).content .pri = (decodeLoaded s2).content .pri := by
    rw [decodeLoaded_content_pri, decodeLoaded_content_pri, hpri]
  rw [decodeBody_eq, decodeBody_eq, State.capOf_congr hcaps, State.lenOf_congr hsdc, hload]
  split_ifs
  · exact ⟨rfl, rfl, rfl, ⟨rfl, rfl⟩, rfl⟩
  · exact ⟨rfl, hcode, hflag, ⟨rfl, rfl⟩, rfl⟩
  · obtain ⟨hend, hcounters, hdst⟩ :=
      decBody_isolated (s1 := decodeLoaded s1) (s2 := decodeLoaded s2) hcaps hw hh hcode hpri'
    refine ⟨hend, ?_, ?_, hcounters, hdst⟩
    · rw [decBody_code, decBody_code, hcode]
    · rw [decBody_tblMalformed, decBody_tblMalformed, hflag]

end

/-- Settles O46: each check reads the inputs only, so both runs take the same branch, and there leave the same. -/
theorem macroIsolation : Obligations.MacroIsolation := by
  refine ⟨fun s1 s2 t1 t2 hcaps hw hh hsrc h1 h2 => ?encode,
    fun s1 s2 t1 t2 hcaps hw hh hpri hsdc h1 h2 => ?decode⟩ <;>
    obtain rfl := exec_next h1 <;> obtain rfl := exec_next h2 <;> rw [commandBody, commandBody]
  case encode =>
    obtain ⟨hend, hcode, hpri, hsdc⟩ := encodeBody_isolated hcaps hw hh hsrc
    obtain ⟨hfreq, hnodes, hroot⟩ := (encodeBody_emptyTree s2).keepsTree (encodeBody_emptyTree s1)
    obtain ⟨hcount1, hdropped1, hflag1⟩ := encodeBody_counters s1
    obtain ⟨hcount2, hdropped2, hflag2⟩ := encodeBody_counters s2
    have hstatus := State.statusWord_complete_congr (hflag1.trans hflag2.symm) (encodeBody s2).2
    have hpriLen := BitVec.eq_of_toNat_eq (State.lenOf_congr hpri)
    have hsdcLen := BitVec.eq_of_toNat_eq (State.lenOf_congr hsdc)
    rw [hend]
    generalize encodeBody s1 = p, encodeBody s2 = q at *
    exact ⟨rfl, rfl, hcode, hfreq, hnodes, hroot, hpriLen, hsdcLen, hpri, hsdc, hcount1.trans hcount2.symm,
      hdropped1.trans hdropped2.symm, hstatus⟩
  case decode =>
    obtain ⟨hend, hcode, hflag, ⟨hcount, hdropped⟩, hdst⟩ := decodeBody_isolated hcaps hw hh hpri hsdc
    obtain ⟨hfreq, hnodes, hroot⟩ := (decodeBody_emptyTree s2).keepsTree (decodeBody_emptyTree s1)
    have hstatus := State.statusWord_complete_congr hflag (decodeBody s2).2
    have hdstLen := BitVec.eq_of_toNat_eq (State.lenOf_congr hdst)
    rw [hend]
    generalize decodeBody s1 = p, decodeBody s2 = q at *
    exact ⟨rfl, rfl, hcode, hfreq, hnodes, hroot, hdstLen, hdst, hcount, hdropped, hstatus⟩

/-! ### The stage commands -/

/-- The tables that `SAMPLE`, `BUILD` and `GEN` make, on the state that `CLR` leaves. -/
def stageTables (s : State) : State :=
  { s.clearAll with
    freq := countBytes (s.content .src), nodes := (buildTree (countBytes (s.content .src))).1,
    root := (buildTree (countBytes (s.content .src))).2.head?, code := romOfBuffer (s.content .src) }

/-- `ENCODE` differs from its stages by the two lengths it zeroes first (46_macro.md R140). -/
theorem encodeTables_dropTree (s : State) :
    (encodeTables s).dropTree = ((stageTables s).dropTree.setLen .sdc 0#32).setLen .pri 0#32 := rfl

theorem State.setLen_sdc_commit_pri (s : State) (n : Word) (out : List Byte) :
    (s.setLen .sdc n).commit .pri out = (s.commit .pri out).setLen .sdc n := rfl

/-- With both artifacts committed the zeroed lengths are overwritten. -/
theorem encodedState_eq_stages (s : State) : encodedState s =
    ((stageTables s).dropTree.commit .pri (encodedPrimary s)).commit .sdc (encodedSidecar s) := by
  rw [encodedState, encodeTables_dropTree, State.setLen_commit_same, State.setLen_sdc_commit_pri,
    State.setLen_commit_same]

section
variable {s : State} {out : List Byte}

theorem buildBody_present (h : 1 ≤ presentCount s.freq) : buildBody s =
    ({ s with nodes := (buildTree s.freq).1, root := (buildTree s.freq).2.head? }, okEnding) := by
  rcases buildTree_arena s.freq with ⟨hnone, -⟩ | ⟨-, -, hroot⟩
  · omega
  · rw [buildBody_eq, if_neg (by omega), hroot]
    rfl

theorem emitBody_covered (hpos : 1 ≤ s.lenOf .src) (hcap : s.lenOf .src ≤ s.capOf .src)
    (hcoded : ∀ b ∈ s.content .src, s.code.entry b ≠ [])
    (hout : primaryArtifact s.width s.height (s.content .src) s.code = out) (hfit : out.length ≤ s.capOf .pri) :
    emitBody s = (s.commit .pri out, okEnding) := by
  rw [emitBody, emitArtifact_covered hpos hcap hcoded, hout, if_pos hfit]

theorem tsaveBody_fits (hout : sidecarArtifact s.code = out) (hfit : out.length ≤ s.capOf .sdc) :
    tsaveBody s = (s.commit .sdc out, okEnding) := by
  rw [tsaveBody_eq, hout, if_pos hfit]

theorem tloadBody_loaded (hcap : s.lenOf .sdc ≤ s.capOf .sdc) (h : symCount (loadLines (s.content .sdc)).code ≠ 0) :
    tloadBody s = (tloadFill s (loadLines (s.content .sdc)), okEnding) := by
  rw [tloadBody, if_neg hcap.not_gt, if_neg h]

/-- `DEC` zeroes `DST_LEN` first and does not read what the command before it reported. -/
theorem decBody_setLen_complete (n : Word) (e : Ending) :
    decBody ((s.setLen .dst n).complete e) = ((decBody s).1.complete e, (decBody s).2) := by
  have hcap : ((s.setLen .dst n).complete e).capOf = s.capOf := rfl
  have hlen : ((s.setLen .dst n).complete e).lenOf .pri = s.lenOf .pri := rfl
  have hout : decOut ((s.setLen .dst n).complete e) = decOut s := rfl
  have hexpected : ((s.setLen .dst n).complete e).expected = s.expected := rfl
  rw [decBody_eq, decBody_eq s, hcap, hlen, hout, hexpected]
  split_ifs <;> rfl

theorem romOfBuffer_covers (s : State) : ∀ b ∈ s.content .src, (romOfBuffer (s.content .src)).entry b ≠ [] :=
  fun b hb => (romOfBuffer_entry_iff (s.length_content_lt .src) b).2 hb

theorem exec_table_stages (hpos : 1 ≤ s.lenOf .src) (hcap : s.lenOf .src ≤ s.capOf .src) :
    ∃ s1 s2 s3, exec .clr s = .next s1 ∧ exec .sample s1 = .next s2 ∧ exec .build s2 = .next s3 ∧
      exec .gen s3 = .next ((stageTables s).complete okEnding) := by
  have hpresent : 1 ≤ presentCount (countBytes (s.content .src)) :=
    presentCount_pos (s.length_content_lt .src) (List.ne_nil_of_length_pos (by rwa [s.length_content]))
  exact ⟨_, _, _, exec_of_body rfl, exec_of_body (sampleBody_fits hcap), exec_of_body (buildBody_present hpresent),
    rfl⟩

/-- `EMIT` then `TSAVE`, when both artifacts are committed. -/
theorem exec_emit_tsave {pri sdc : List Byte} (hemit : emitBody s = (s.commit .pri pri, okEnding))
    (hout : sidecarArtifact s.code = sdc) (hfit : sdc.length ≤ s.capOf .sdc) :
    ∃ t, exec .emit s = .next t ∧
      exec .tsave t = .next (((s.commit .pri pri).commit .sdc sdc).complete okEnding) := by
  have htsave : tsaveBody ((s.commit .pri pri).complete okEnding) =
      (((s.commit .pri pri).complete okEnding).commit .sdc sdc, okEnding) := by
    refine tsaveBody_fits ?_ ?_
    · rwa [State.code_complete, State.code_commit]
    · rwa [State.capOf_complete, State.capOf_commit]
  refine ⟨_, exec_of_body hemit, ?_⟩
  rw [exec_of_body (i := .tsave) htsave, State.complete_commit, State.complete_complete]

theorem exec_artifact_stages (hpos : 1 ≤ s.lenOf .src) (hcap : s.lenOf .src ≤ s.capOf .src)
    (hpri : (encodedPrimary s).length ≤ s.capOf .pri) (hsdc : (encodedSidecar s).length ≤ s.capOf .sdc) :
    ∃ t u, exec .emit ((stageTables s).complete okEnding) = .next t ∧ exec .tsave t = .next u ∧
      (encodedState s).complete okEnding = u.dropTree := by
  have hprimary : primaryArtifact s.width s.height (s.content .src) (romOfBuffer (s.content .src)) =
      encodedPrimary s := by rw [encodedPrimary]
  have hsidecar : sidecarArtifact (romOfBuffer (s.content .src)) = encodedSidecar s := by rw [encodedSidecar]
  have hemit := emitBody_covered (s := (stageTables s).complete okEnding) hpos hcap (romOfBuffer_covers s) hprimary hpri
  obtain ⟨t, ht, hu⟩ := exec_emit_tsave hemit hsidecar hsdc
  refine ⟨t, _, ht, hu, ?_⟩
  simp only [State.complete_commit, State.complete_complete, State.complete_dropTree, State.commit_dropTree,
    encodedState_eq_stages]

end

/-- Settles O47: completing a command writes the report only, which no later stage reads. -/
theorem macrosMatchStageCommands : Obligations.MacrosMatchStageCommands := by
  refine ⟨fun s t h hok => ?encode, fun s t h hend => ?decode⟩
  case encode =>
    obtain ⟨hpos, hcap, hpri, hsdc, rfl⟩ := exec_encode_ok h hok
    obtain ⟨s1, s2, s3, h1, h2, h3, h4⟩ := exec_table_stages hpos hcap
    obtain ⟨s5, s6, h5, h6, hfinal⟩ := exec_artifact_stages hpos hcap hpri hsdc
    exact ⟨s1, s2, s3, _, s5, s6, h1, h2, h3, h4, h5, h6, hfinal⟩
  case decode =>
    obtain rfl := exec_next h
    have hloaded : s.lenOf .sdc ≤ s.capOf .sdc ∧ symCount (loadLines (s.content .sdc)).code ≠ 0 := by
      rcases decodeBody_ends s with ⟨-, e⟩ | ⟨-, -, e⟩ | ⟨hcap, hsome, -⟩
      case inr.inr => exact ⟨hcap, hsome⟩
      all_goals
        rw [commandBody, e] at hend
        simp only [State.complete_reports_iff, State.outcome_complete] at hend
        exact absurd hend (by decide)
    obtain ⟨hcap, hsome⟩ := hloaded
    refine ⟨_, _, _, exec_of_body rfl, exec_of_body (tloadBody_loaded hcap hsome),
      exec_of_body (decBody_setLen_complete (s := decodeLoaded s) s.dstLen okEnding), ?_⟩
    rw [commandBody, decodeBody_loaded hcap hsome]
    rfl

/-! ### The round trip -/

/-- With the ROM of the buffer the primary artifact decodes to the buffer. -/
theorem decodeArtifact_encodedPrimary (s : State) :
    decodeArtifact (romOfBuffer (s.content .src)) (encodedPrimary s) = ⟨s.content .src, [], 0⟩ := by
  rw [encodedPrimary]
  exact decodeArtifact_primaryArtifact _ _ (fun _ _ => romOfTable_prefixFree _) (romOfBuffer_covers s)

/-- The sidecar gives that ROM back, no line malformed. -/
theorem loadLines_encodedSidecar (s : State) : (loadLines (encodedSidecar s)).code = romOfBuffer (s.content .src) ∧
    (loadLines (encodedSidecar s)).malformed = false := by
  rw [encodedSidecar]
  exact loadLines_sidecarArtifact (romOfTable_fits (countBytes (s.content .src)))

theorem symCount_romOfBuffer {s : State} (hpos : 1 ≤ s.lenOf .src) : symCount (romOfBuffer (s.content .src)) ≠ 0 := by
  obtain ⟨b, hb⟩ := List.exists_mem_of_length_pos (hpos.trans_eq (s.length_content .src).symm)
  exact fun hnone => romOfBuffer_covers s b hb ((symCount_eq_zero _).1 hnone b)

/-- Settles O48: the sidecar gives back the ROM the buffer was coded with, which decodes the payload to the buffer. -/
theorem encodeThenDecodeRoundTrip : Obligations.EncodeThenDecodeRoundTrip := by
  intro s t u hpos hdst henc hok hdec
  obtain ⟨hcaps, hw, hh, -⟩ := commandsKeepInputs _ _ _ henc
  have hcap := State.capOf_congr hcaps
  obtain ⟨-, -, hpriFits, hsdcFits, ht⟩ := exec_encode_ok henc hok
  have hpri : t.content .pri = encodedPrimary s := by
    rw [ht, State.content_complete, encodedState_content_pri hpriFits]
  have hsdc : t.content .sdc = encodedSidecar s := by
    rw [ht, State.content_complete, encodedState_content_sdc hsdcFits]
  have hpriLen : t.lenOf .pri ≤ t.capOf .pri := by
    rw [← t.length_content, hpri, hcap]
    exact hpriFits
  have hsdcLen : t.lenOf .sdc ≤ t.capOf .sdc := by
    rw [← t.length_content, hsdc, hcap]
    exact hsdcFits
  obtain ⟨hrom, hwell⟩ := loadLines_encodedSidecar s
  rw [← hsdc] at hrom hwell
  obtain ⟨u', hdec', -, -, -, -, -, -, -, -, -, hflag, -, -, hloaded⟩ := decodeEndings t
  obtain rfl : u = u' := Host.Outcome.next.inj (hdec.symm.trans hdec')
  obtain ⟨-, -, hdecoded⟩ := hloaded hsdcLen (hrom.symm ▸ symCount_romOfBuffer hpos)
  obtain ⟨acc, hacc, hcount, hdropped, -, htruncated, hall⟩ := hdecoded hpriLen
  obtain rfl : acc = ⟨s.content .src, [], 0⟩ := by
    rw [hacc, hrom, hpri]
    exact decodeArtifact_encodedPrimary s
  dsimp only at hcount hdropped htruncated hall
  rw [s.length_content] at hcount
  rw [s.length_content, hw, hh, hcap] at htruncated hall
  refine ⟨hcount, BitVec.eq_of_toNat_eq hdropped, ?flag, fun hmany => ?ok, fun hfew => ?truncated⟩
  case flag =>
    rw [Bool.eq_false_iff, Ne, hflag hsdcLen, ← loadLines_malformed_iff, hwell]
    exact Bool.false_ne_true
  case ok =>
    obtain ⟨hreports, hholds, hlen⟩ := hall hdst hmany
    exact ⟨hreports, hholds.content_eq (hlen.trans (s.length_content .src).symm)⟩
  case truncated =>
    obtain ⟨⟨houtcome, -⟩, -⟩ := htruncated hdst hfew
    exact houtcome

end Sys2Proof.Machine
end

section
/-! The rules of 47_housekeeping.md: what `NOP` and `CLR` leave. -/

namespace Sys2Proof.Machine

/-- `NOP` is the complete step alone (47_housekeeping.md R152). -/
theorem exec_nop (s : State) : exec .nop s = .next (s.complete okEnding) := exec_of_body rfl

/-- `CLR` clears the tables, the counters and the flag, then completes (47_housekeeping.md R153). -/
theorem exec_clr (s : State) : exec .clr s = .next (s.clearAll.complete okEnding) := exec_of_body rfl

theorem maxLen_emptyCode : maxLen emptyCode = 0 :=
  Nat.le_zero.1 (maxLen_le fun x => (congrArg List.length (emptyCode_entry x)).le)

theorem State.emptyTree_clearAll (s : State) : EmptyTree s.clearAll :=
  ⟨s.freq_clearAll, s.nodes_clearAll, s.root_clearAll⟩

section
variable {t : State}

theorem EmptyTree.nodeCnt (h : EmptyTree t) : t.nodeCnt = 0 := by
  obtain ⟨-, hnodes, -⟩ := h
  rw [State.nodeCnt, hnodes, List.length_nil]

theorem EmptyTree.rootWord (h : EmptyTree t) : t.rootWord = 0#32 := by
  obtain ⟨-, -, hroot⟩ := h
  rw [State.rootWord, hroot]

end

/-- Settles O17: `NOP` is the complete step alone, and `CLR` clears before it, so the views of the empty arena and of the
empty ROM read 0. -/
theorem nopAndClr : Obligations.NopAndClr := by
  refine ⟨⟨decodeWord_encode .nop, exec_nop⟩, decodeWord_encode .clr, fun s => ⟨_, exec_clr s, ?_⟩⟩
  have htree : EmptyTree (s.clearAll.complete okEnding) := s.emptyTree_clearAll
  have hkeeps : KeepsInputs s (s.clearAll.complete okEnding) := commandsKeepInputs .clr s _ (exec_clr s)
  have hlens : ∀ S, KeepsLen s (s.clearAll.complete okEnding) S := s.lenOf_clearAll
  have hbytes : ∀ S, SameBytes s (s.clearAll.complete okEnding) S := s.memRead_clearAll
  exact ⟨s.clearAll.complete_reports okEnding, emptyFreq_entry, s.nodes_clearAll, s.root_clearAll, emptyCode_entry,
    s.decCount_clearAll, s.decDropped_clearAll, s.tblMalformed_clearAll, symCount_emptyCode, maxLen_emptyCode,
    htree.nodeCnt, htree.rootWord, hkeeps, hlens, hbytes⟩

end Sys2Proof.Machine
end

section
/-! The rules of 60_exceptions.md: which command ends with which outcome, that only `OK` comes with written bytes, illegal
words, and the interrupt output. -/

namespace Sys2Proof.Machine

/-! ### The outcomes of each command -/

/-- The commands that can end with an outcome (60_exceptions.md R160); an illegal word is no command. -/
def commandsEndingWith : OutcomeCode → List Instr
  | .ok => allInstrs
  | .emptyInput => [.build, .emit, .encode]
  | .tableNotFound => [.tload, .decode]
  | .truncatedOutput => [.dec, .decode]
  | .unknownSymbol => [.emit]
  | .ioFailure => [.sample, .emit, .tsave, .tload, .dec, .encode, .decode]
  | .illegalCommand => []

/-- The table is closed data, so an entry is found by evaluation, whatever the state of the ending. -/
theorem mem_commandsEndingWith {i : Instr} {c : OutcomeCode} (h : (commandsEndingWith c).elem i = true) :
    i ∈ commandsEndingWith c := List.elem_iff.1 h

theorem emitBody_code_mem (s : State) : Instr.emit ∈ commandsEndingWith (emitBody s).2.code := by
  rcases emitBody_cases s with ⟨e, he, eq⟩ | ⟨_, -, eq⟩ <;> rw [eq]
  · rcases emitArtifact_error he with rfl | rfl | rfl | ⟨k, -, rfl⟩ <;> exact mem_commandsEndingWith rfl
  · exact mem_commandsEndingWith rfl

/-- The outcomes of the `DEC` body are those of `DEC`, and of `DECODE`, which runs it too (46_macro.md R144). -/
theorem decBody_code_mem (s : State) :
    Instr.dec ∈ commandsEndingWith (decBody s).2.code ∧ Instr.decode ∈ commandsEndingWith (decBody s).2.code := by
  rcases decBody_cases s with ⟨-, e⟩ | ⟨-, -, e⟩ | ⟨-, -, -, e⟩ | ⟨-, -, -, e⟩ <;> rw [e] <;>
    exact ⟨mem_commandsEndingWith rfl, mem_commandsEndingWith rfl⟩

/-- Every command ends with an outcome that R160 gives it. -/
theorem commandBody_code_mem (i : Instr) (s : State) : i ∈ commandsEndingWith (commandBody i s).2.code := by
  cases i with
  | nop | clr | gen => exact mem_commandsEndingWith rfl
  | sample =>
    rcases sampleBody_cases s with ⟨-, e⟩ | ⟨-, e⟩ <;> rw [commandBody, e] <;> exact mem_commandsEndingWith rfl
  | build =>
    rcases buildBody_cases s with ⟨-, e⟩ | ⟨_, _, -, e⟩ <;> rw [commandBody, e] <;> exact mem_commandsEndingWith rfl
  | emit => exact emitBody_code_mem s
  | tsave =>
    rw [commandBody, tsaveBody_eq]
    split <;> exact mem_commandsEndingWith rfl
  | tload =>
    rcases tloadBody_cases s with ⟨-, e⟩ | ⟨-, -, e⟩ | ⟨-, -, e⟩ <;> rw [commandBody, e] <;>
      exact mem_commandsEndingWith rfl
  | dec =>
    obtain ⟨hdec, -⟩ := decBody_code_mem s
    exact hdec
  | encode =>
    obtain ⟨hending, -⟩ := encodeBody_ending s
    rcases hending with e | e | e | e | e <;> rw [commandBody, e] <;> exact mem_commandsEndingWith rfl
  | decode =>
    rw [commandBody, decodeBody_eq]
    split_ifs
    · exact mem_commandsEndingWith rfl
    · exact mem_commandsEndingWith rfl
    · obtain ⟨-, hdecode⟩ := decBody_code_mem (decodeLoaded s)
      exact hdecode

/-- The offset that `UNKNOWN_SYMBOL` reports lies in the buffer (60_exceptions.md R165). -/
theorem emitBody_unknownSymbol {s : State} (h : (emitBody s).2.code = .unknownSymbol) :
    (emitBody s).2.info.toNat < s.lenOf .src := by
  rcases emitBody_cases s with ⟨e, he, eq⟩ | ⟨_, -, eq⟩ <;> rw [eq] at h ⊢
  · rcases emitArtifact_error he with rfl | rfl | rfl | ⟨k, hk, rfl⟩
    case inr.inr.inr =>
      rw [unknownSymbolEnding, BitVec.toNat_ofNat]
      exact (Nat.mod_le _ _).trans_lt hk
    all_goals cases h
  · cases h

/-- Settles O49: the outcome is one that R160 gives the command, and the information word is the outcome's. -/
theorem outcomesPerCommand : Obligations.OutcomesPerCommand := by
  intro i s
  have hcommand := commandBody_code_mem i s
  obtain ⟨hzero, hcount, hspace, -⟩ := commandBody_fits i s
  refine ⟨_, exec_eq i s, rfl, rfl, ?_⟩
  rw [State.outcome_complete, State.errInfo_complete, State.decCount_complete]
  cases hc : (commandBody i s).2.code <;> rw [hc] at hcommand
  case ok => exact .inl ⟨rfl, hzero (.inl hc)⟩
  case emptyInput => exact .inr (.inl ⟨rfl, hzero (.inr (.inl hc)), hcommand⟩)
  case tableNotFound => exact .inr (.inr (.inl ⟨rfl, hzero (.inr (.inr hc)), hcommand⟩))
  case truncatedOutput => exact .inr (.inr (.inr (.inl ⟨rfl, hcount hc, hcommand⟩)))
  case unknownSymbol =>
    obtain rfl := List.mem_singleton.1 hcommand
    exact .inr (.inr (.inr (.inr (.inl ⟨rfl, rfl, emitBody_unknownSymbol hc⟩))))
  case ioFailure => exact .inr (.inr (.inr (.inr (.inr ⟨rfl, hspace hc, hcommand⟩))))
  case illegalCommand => cases hcommand

/-! ### Without OK no byte is written -/

/-- A command that writes below its new lengths only has written nothing where it leaves them 0. -/
theorem WritesBelowLen.sameBytes_of_empty {Ds : List Space} {s t : State} (h : WritesBelowLen Ds s t)
    (hempty : ∀ D ∈ Ds, t.lenOf D = 0) (S : Space) : SameBytes s t S := by
  obtain ⟨hother, hnew⟩ := h
  by_cases hS : S ∈ Ds
  · exact fun a => hnew S hS a (by simp [hempty S hS])
  · exact (hother S hS).2

/-- A command body that ends otherwise than `OK` writes no byte (60_exceptions.md R166): it commits no artifact. -/
theorem commandBody_sameBytes (i : Instr) (s : State) (h : (commandBody i s).2.code ≠ .ok) (S : Space) :
    SameBytes s (commandBody i s).1 S := by
  cases i with
  | nop | clr | gen => exact absurd rfl h
  | sample =>
    obtain ⟨freq, e⟩ := sampleBody_frame s
    rw [commandBody, e]
    exact fun _ => rfl
  | build =>
    obtain ⟨nodes, root, e⟩ := buildBody_frame s
    rw [commandBody, e]
    exact fun _ => rfl
  | emit =>
    rcases emitBody_cases s with ⟨_, -, e⟩ | ⟨_, -, e⟩ <;> rw [commandBody, e] at h ⊢
    · exact s.memRead_setLen .pri 0#32 S
    · exact absurd rfl h
  | tsave =>
    rcases tsaveBody_cases s with ⟨_, -, e⟩ | ⟨_, -, e⟩ <;> rw [commandBody, e] at h ⊢
    · exact s.memRead_setLen .sdc 0#32 S
    · exact absurd rfl h
  | tload =>
    obtain ⟨acc, e⟩ := tloadBody_frame s
    rw [commandBody, e]
    exact tloadFill_memRead s acc S
  | dec =>
    obtain ⟨hlen, -⟩ := decBody_not_ok s h
    exact (decBody_writesBelowLen s).sameBytes_of_empty (by simpa using hlen) S
  | encode =>
    obtain ⟨-, -, hbytes⟩ := encodeBody_not_ok h
    exact hbytes S
  | decode =>
    obtain ⟨hlen, -⟩ := decodeBody_not_ok h
    exact (decodeBody_writesBelowLen s).sameBytes_of_empty (by simpa using hlen) S

/-- Settles O50: completing a command writes only what it reports, so it suffices that its body writes no byte. -/
theorem noByteWrittenUnlessOk : Obligations.NoByteWrittenUnlessOk := by
  intro i s t h hne
  obtain rfl := exec_next h
  exact commandBody_sameBytes i s hne

/-! ### Illegal words -/

/-- A latched word that is none of the eleven is completed as it stands (R167). -/
theorem step_illegal {s : State} (hb : s.busy = true) (hm : s.hostMovesFirst = false)
    (hill : ∀ i, s.cmdLatch ≠ encode i) : step s = .next (s.complete (illegalEnding s.cmdLatch)) := by
  rw [step, if_pos hb, if_neg (by simp [hm])]
  rcases sequencerMove_cases s with ⟨i, hi, -⟩ | ⟨_, -, e⟩
  · exact absurd (decodeWord_eq_ok.1 hi) (hill i)
  · exact e

/-- Settles O4: completing the word is the whole step. -/
theorem illegalWordOnlyReports : Obligations.IllegalWordOnlyReports := fun _ hb hm hill => step_illegal hb hm hill

/-! ### The interrupt output -/

theorem State.irqO_complete (s : State) (e : Ending) : (s.complete e).irqO = s.ie := Bool.true_and s.ie

theorem State.irqO_of_not_done {s : State} (h : s.done = false) : s.irqO = false := by
  rw [State.irqO, h, Bool.false_and]

theorem exec_irqO {i : Instr} {s t : State} (h : exec i s = .next t) : t.irqO = s.ie := by
  obtain ⟨-, -, -, -, hie, -⟩ := commandBody_keepsInputs i s
  rw [exec_next h, State.irqO_complete, hie]

/-- The step that completes the latched word, legal or not, raises the output if it is enabled. -/
theorem step_complete_irqO {s : State} (hb : s.busy = true) (hm : s.hostMovesFirst = false) :
    ∃ t, step s = .next t ∧ t.irqO = s.ie := by
  by_cases hword : ∃ i, s.cmdLatch = encode i
  · obtain ⟨i, hi⟩ := hword
    have hexec := exec_eq i s
    exact ⟨_, (step_command hb hm (decodeWord_eq_ok.2 hi)).trans hexec, exec_irqO hexec⟩
  · exact ⟨_, step_illegal hb hm (not_exists.1 hword), s.irqO_complete _⟩

/-- Settles O15: `DONE` is set by every completion, and cleared by accepting a word and by the write to `STATUS`. -/
theorem irqIsDoneAndEnabled : Obligations.IrqIsDoneAndEnabled := by
  refine ⟨fun _ => rfl, fun s hie => ?disabled, fun i s t => exec_irqO, fun s => step_complete_irqO,
    fun s w rest hb hs => ?accept, fun s v rest hb hs hv => ?clear⟩
  case disabled => rw [State.irqO, hie, Bool.and_false]
  case accept => exact ⟨_, step_writeReg .cmd hs hb, State.irqO_of_not_done rfl⟩
  case clear =>
    have hwrite : ({ s with script := rest }.writeStatus v).done = false := by rw [State.writeStatus, if_pos hv]
    exact ⟨_, step_writeReg .status hs hb, State.irqO_of_not_done hwrite⟩

end Sys2Proof.Machine
end

section
/-! The rules of 70_reset_and_hazards.md: the state after reset, and the completion of an accepted command. -/

namespace Sys2Proof.Machine

/-! ### Reset -/

theorem State.statusWord_eq_zero {s : State} (hbusy : s.busy = false) (hdone : s.done = false)
    (hmal : s.tblMalformed = false) (hout : s.outcome = .ok) : s.statusWord = 0#32 := by
  rw [State.statusWord, hbusy, hdone, hmal, hout]
  rfl

theorem State.ctrlWord_eq_zero {s : State} (hie : s.ie = false) : s.ctrlWord = 0#32 := by
  rw [State.ctrlWord, hie]
  rfl

/-- R180's table, row by row, whatever the host's side holds and however many resets there have been. -/
theorem isResetState_resetWith (caps : Caps) (script : List HostOp) (responses : List HostValue) (durations : List Nat)
    (draws resets : Nat) :
    IsResetState { State.resetWith caps with
      script := script, responses := responses, durations := durations, draws := draws, resets := resets } := by
  refine ⟨State.statusWord_eq_zero rfl rfl rfl rfl, rfl, State.ctrlWord_eq_zero rfl, rfl, rfl, rfl, rfl,
    fun S => ?lengths, rfl, rfl, rfl, emptyFreq_entry, rfl, rfl, rfl, emptyCode_entry, symCount_emptyCode,
    maxLen_emptyCode, rfl, fun S a => ?bytes⟩
  case lengths => cases S <;> rfl
  case bytes => cases S <;> rfl

theorem isResetState_hardwareReset (s : State) : IsResetState s.hardwareReset :=
  isResetState_resetWith s.caps s.script s.responses s.durations s.draws (s.resets + 1)

/-- The step in which the platform resets the machine, whether or not a command runs (R180). -/
theorem step_hardwareReset {s : State} {rest : List HostOp} (hs : s.script = .hardwareReset :: rest)
    (hm : s.busy = true → s.hostMovesFirst = true) : step s = .next { s with script := rest }.hardwareReset := by
  cases hb : s.busy with
  | false => exact step_idle hs hb rfl
  | true => exact step_during hs hb (hm hb) rfl

/-- Settles O16: R180's table covers both `State.reset` and the state in which the step of a reset ends. -/
theorem hardwareResetState : Obligations.HardwareResetState := by
  refine ⟨isResetState_resetWith _ [] [] [] 0 0, fun s rest hs hm => ?_⟩
  exact ⟨_, step_hardwareReset hs hm, isResetState_hardwareReset _, rfl, rfl, rfl⟩

/-- Settles O59: the spaces are those after any reset, the tables are empty and nothing is reported. -/
theorem resetMeetsInvariants : Obligations.ResetMeetsInvariants := by
  refine ⟨State.reset.hardwareReset_spacesWf, ?tables, ?report⟩
  case tables => exact EmptyTree.tablesWf ⟨rfl, rfl, rfl⟩ romFits_emptyCode
  case report => exact State.ReportsNothing.reportWf ⟨rfl, rfl, rfl⟩

/-! ### Every accepted command completes -/

theorem run_succ_of_step {M : Host.Core} {s t : M.State} (h : M.step s = .next t) (k : Nat) :
    M.run (k + 1) s = M.run k t := by
  rw [Host.Core.run, h]

/-- The step of the sequencer completes the latched word with some ending, legal or not (R21, R167). -/
theorem step_completes {s : State} (hb : s.busy = true) (hm : s.hostMovesFirst = false) :
    ∃ u e, step s = .next (State.complete u e) := by
  by_cases hword : ∃ i, s.cmdLatch = encode i
  · obtain ⟨i, hi⟩ := hword
    exact ⟨_, _, (step_command hb hm (decodeWord_eq_ok.2 hi)).trans (exec_eq i s)⟩
  · exact ⟨_, _, step_illegal hb hm (not_exists.1 hword)⟩

theorem HostOp.wellFormed_of_quiet {op : HostOp} (h : op.quiet = true) : op.wellFormed = true := by
  cases op with
  | regRead | regWrite | waitIdle => exact h
  | memRead | memWrite | hardwareReset => cases h

/-- A quiet operation is performed while a command runs, and leaves the rest of the script, or itself before it while
`wait` still reads `BUSY = 1`. -/
theorem hostPerform_quiet {op : HostOp} {s : State} (hb : s.busy = true) (hq : op.quiet = true) :
    ∃ t, hostPerform op s = .next t ∧ t.script ⊆ op :: s.script := by
  cases op with
  | regRead off n =>
    obtain ⟨v, d, hread⟩ := s.regRead_withHost off
    exact ⟨_, congrArg Host.Outcome.next hread, List.subset_cons_self _ _⟩
  | regWrite off n v => exact ⟨s, congrArg Host.Outcome.next (State.regWrite_busy hb off v), List.subset_cons_self _ _⟩
  | waitIdle => exact ⟨_, rfl, by simp [hb]⟩
  | memRead | memWrite | hardwareReset => cases hq

/-- The move of a quiet host uses up one of its moves, and the command goes on running under a quiet host (R181). -/
theorem step_during_quiet {s : State} (hb : s.busy = true) (hm : s.hostMovesFirst = true)
    (hq : ∀ op ∈ s.script, op.quiet = true) :
    ∃ t, step s = .next t ∧ t.busy = true ∧ t.hostSlots = s.hostSlots - 1 ∧ ∀ op ∈ t.script, op.quiet = true := by
  obtain ⟨op, rest, hs⟩ := List.exists_cons_of_ne_nil (hostSlots_pos hm).2
  have hop : op.quiet = true := hq op (hs ▸ List.mem_cons_self)
  have hstep := step_during hs hb hm (HostOp.wellFormed_of_quiet hop)
  obtain ⟨t, ht, hsub⟩ := hostPerform_quiet (s := s.withHost rest s.responses (s.hostSlots - 1) s.draws) hb hop
  have hreset : op ≠ .hardwareReset := by
    rintro rfl
    cases hop
  have hframe := hostPerform_during (s := s.withHost rest s.responses (s.hostSlots - 1) s.draws) hb hreset ht
  refine ⟨t, hstep.trans ht, ?_, ?_, fun op' h => hq op' (hs ▸ hsub h)⟩
  · rw [hframe]
    exact hb
  · rw [hframe]
    rfl

/-- Settles O14 by induction on the moves the command outlasts: each step is a quiet move of the host, which uses one up,
or completes the command. -/
theorem acceptedCommandCompletes : Obligations.AcceptedCommandCompletes := by
  intro s hb hq
  induction hn : s.hostSlots using Nat.strong_induction_on generalizing s with
  | _ n ih =>
    cases hm : s.hostMovesFirst with
    | true =>
      obtain ⟨t, hstep, htb, hslots, htq⟩ := step_during_quiet hb hm hq
      have hpos := (hostSlots_pos hm).1
      obtain ⟨k, u, hk, hrun, hidle, hdone⟩ := ih t.hostSlots (by omega) t htb htq rfl
      exact ⟨k + 1, u, by omega, (run_succ_of_step (M := Sys2Proof.core) hstep k).trans hrun, hidle, hdone⟩
    | false =>
      obtain ⟨u, e, hstep⟩ := step_completes hb hm
      exact ⟨1, u.complete e, by omega, run_succ_of_step (M := Sys2Proof.core) hstep 0, rfl, rfl⟩

end Sys2Proof.Machine
end
